-- ==== Sys2Proof/Word.lean ====
section
/-! DEFINITION. The word types of the machine: the bus word, the byte cell of memory, the 2-bit selector of a command word. -/

namespace Sys2Proof

/-- One byte of a memory cell (spec 20_memory.md R53: bytes are a storage choice; no access is narrower than a word). -/
abbrev Byte := BitVec 8

/-- The 32-bit word every bus access and every register has (spec 00_scope.md R7, R9). -/
abbrev Word := BitVec 32

/-- A 2-bit selector field of the command word; code `k` names the operand slot `OP[k]` (spec 30_encoding.md R84). -/
abbrev Sel := BitVec 2

end Sys2Proof
end

