-- ==== Sys2Proof/Config.lean ====
section
/-! DEFINITION. The configuration record of spec 00_scope.md R8 with its defaults, and the open values: constants without a body. -/

namespace Sys2Proof

/-- The values the spec fixes (00_scope.md R7): words in a slot, and bits in a word. -/
def slotWords : Nat := 48

/-- The parameters the source leaves open (00_scope.md R8), each with the spec's default; COUNT_RESET, which has none, with the
model's value. Every use in the model names the field, not the number. The parameters R8 calls OPEN are constants without a
body, below. -/
structure Config where
  /-- CTRL_OFF (decision D1). -/
  ctrlOff : Nat := 0x000
  /-- GIE_OFF (D1). -/
  gieOff : Nat := 0x11C
  /-- GIE_MASK (D1): the mask written at open. -/
  gieMask : Word := 0x80000000#32
  /-- IER_OFF (D1). -/
  ierOff : Nat := 0x128
  /-- IER_MASK (D1): the mask written at open. -/
  ierMask : Word := 0x00000001#32
  /-- PART_LSB (D2). -/
  partLsb : Nat := 0
  /-- DST_LSB (D2). -/
  dstLsb : Nat := 2
  /-- LEFT_LSB (D2). -/
  leftLsb : Nat := 4
  /-- RIGHT_LSB (D2). -/
  rightLsb : Nat := 6
  /-- START_BIT (D2). -/
  startBit : Nat := 8
  /-- AUTO_BIT (D2). -/
  autoBit : Nat := 9
  /-- PART_LOW (D3). -/
  partLow : BitVec 2 := 1#2
  /-- PART_HIGH (D3). -/
  partHigh : BitVec 2 := 2#2
  /-- PART_TOTAL (D3). -/
  partTotal : BitVec 2 := 3#2
  /-- The one PART code that names no width (D3: 0 reserved). -/
  partReserved : BitVec 2 := 0#2
  /-- MOD_OFF (D5). -/
  modOff : Nat := 0x0000
  /-- OP_OFF[k] (D5). -/
  opOff : Sel → Nat := fun k => 0x1000 * (k.toNat + 1)
  /-- FIFO_OFF (D5). -/
  fifoOff : Nat := 0x5000
  /-- STRIDE (D5): bytes between consecutive words of a slot. -/
  stride : Nat := 4
  /-- HIGH_OFF (D5; R60 demands 16 × STRIDE). -/
  highOff : Nat := 0x40
  /-- ACC (D13): the accumulator slot of the auto-run. -/
  acc : Sel := 0#2
  /-- TAB1 (D13): the multiplicand of pair value 01. -/
  tab1 : Sel := 1#2
  /-- TAB2 (D13): the multiplicand of pair value 10. -/
  tab2 : Sel := 2#2
  /-- TAB3 (D13): the multiplicand of pair value 11. -/
  tab3 : Sel := 3#2
  /-- COUNT_RESET (D19): the interrupt count before the first delivery. The spec leaves it unspecified, any 32-bit value; zero
  is the model's choice (DESIGN CHOICE, log entry 12). -/
  countReset : Word := 0#32

namespace Config

/-- The ten bit positions the command fields occupy (30_encoding.md R81). -/
def fieldBits (c : Config) : List Nat :=
  [c.partLsb, c.partLsb + 1, c.dstLsb, c.dstLsb + 1, c.leftLsb, c.leftLsb + 1, c.rightLsb, c.rightLsb + 1,
    c.startBit, c.autoBit]

/-- The six locations of the data space (20_memory.md R55). -/
def locations (c : Config) : List Nat :=
  [c.modOff, c.opOff 0#2, c.opOff 1#2, c.opOff 2#2, c.opOff 3#2, c.fifoOff]

/-- A configuration is well-formed: HIGH_OFF is 16 × STRIDE (20_memory.md R60), the command fields do not overlap
(30_encoding.md R81), the four PART codes differ (R82), the auto-run's four slots differ (40_engine_ops.md R123 (e)),
each location is in a page of its own (20_memory.md R55) and the control registers have offsets of their own (R54). -/
def wf (c : Config) : Bool :=
  decide (c.highOff = 16 * c.stride) && decide (0 < c.stride) && decide (c.stride % 4 = 0) &&
  decide (c.fieldBits.Nodup) && c.fieldBits.all (fun b => decide (b < 32)) &&
  decide ([c.partLow, c.partHigh, c.partTotal, c.partReserved].Nodup) &&
  decide ([c.acc, c.tab1, c.tab2, c.tab3].Nodup) &&
  decide ((c.locations.map (fun o => o / 0x1000)).Nodup) && c.locations.all (fun o => decide (o < 0x6000)) &&
  decide ([c.ctrlOff, c.gieOff, c.ierOff].Nodup)

/-- CTRL_BASE: OPEN (00_scope.md R8, D5); every rule uses offsets within the space, none this base. -/
opaque ctrlBase : Nat

/-- DATA_BASE: OPEN (00_scope.md R8, D5); no rule depends on it. -/
opaque dataBase : Nat

/-- T_SETTLE: OPEN (00_scope.md R8, D11). The model has no time: the delay is the hold of 41_host_primitives.md R150. -/
opaque tSettle : Nat

/-- T_TIMEOUT: about 140 ms, unaudited (60_exceptions.md R252, D18). The model has no time: see R253. -/
opaque tTimeout : Nat

/-- FREE VALUE (DESIGN CHOICE, log entry 6): by how many words the exponent FIFO is deeper than 96. -/
opaque fifoExtra : Nat

/-- FREE VALUE (log entry 7): `draw(32-bit word)` of 00_scope.md R11, one value for each number of a draw. -/
opaque drawWord : Nat → Word

/-- FREE VALUE (DESIGN CHOICE, log entry 8): what the external big-number library gives for `2^(2n) mod 0`. -/
opaque r2OfZero : Nat → Nat

/-- FIFO_DEPTH (00_scope.md R8, D14): OPEN, and 96 suffices for every exponent length up to 1536. -/
def fifoDepth : Nat := fifoExtra + 96

end Config

/-- The configuration the model runs with: every parameter at the spec's default (00_scope.md R8), and
COUNT_RESET at the model's value (log entry 12). -/
def cfg : Config := {}

end Sys2Proof
end

