-- ==== Sys2Proof/Syntax.lean ====
section
/-! DEFINITION. Widths, slots, engine commands, and the two syntaxes: `Instr`, one constructor for each row of
spec/opcode_table.json, and `Request`, what the host puts on the interface before it is decoded. -/

namespace Sys2Proof

/-- A pipeline width (00_scope.md R12): 512, 1024 or 1536 bits. -/
inductive Width where
  | low
  | high
  | total
deriving DecidableEq, Repr

/-- A slot (10_state.md R21, R22): the modulus slot or one of the four operand slots. -/
inductive Slot where
  | mod
  | op (k : Sel)
deriving DecidableEq, Repr

/-- A bus address space (10_state.md R34). -/
inductive Space where
  | ctrl
  | data
deriving DecidableEq, Repr

/-- A command as the engine latches it (10_state.md R30). -/
inductive Cmd where
  | mmul (w : Width) (d l r : Sel)
  | auto (w : Width)
deriving DecidableEq, Repr

/-- One constructor for each row of spec/opcode_table.json. `x` is a command word's reserved bits, in place
(30_encoding.md R81: preserved, no effect); a value operand `v`, `x`, `y`, `g`, `e`, `m` of a wrapper operation is the
number its word array stands for (10_state.md R24); `t` and `n` are bit lengths. -/
inductive Instr where
  -- command words (format CMD, 30_encoding.md R81 to R86)
  | mmulL (x : Word) (d l r : Sel)
  | mmulH (x : Word) (d l r : Sel)
  | mmulT (x : Word) (d l r : Sel)
  | autoL (x : Word)
  | autoH (x : Word)
  | autoT (x : Word)
  | idleWord (x : Word) (a : Bool) (p : BitVec 2) (d l r : Sel)
  | reservedPart (x : Word) (a : Bool) (d l r : Sel)
  | reservedAuto (x : Word) (p : BitVec 2) (d l r : Sel)
  -- the exponent word and the slot image (30_encoding.md R88, R91)
  | expw (e1 e0 : BitVec 16)
  | slotImage (S : Slot) (img : List Word)
  -- bus accesses of slot words (20_memory.md R56, R57)
  | rMod (i : BitVec 6)
  | wMod (i : BitVec 6) (v : Word)
  | rOp0 (i : BitVec 6)
  | wOp0 (i : BitVec 6) (v : Word)
  | rOp1 (i : BitVec 6)
  | wOp1 (i : BitVec 6) (v : Word)
  | rOp2 (i : BitVec 6)
  | wOp2 (i : BitVec 6) (v : Word)
  | rOp3 (i : BitVec 6)
  | wOp3 (i : BitVec 6) (v : Word)
  -- the exponent FIFO port (41_host_primitives.md R146, R147)
  | wFifo (v : Word)
  | rFifo
  -- control-space registers (41_host_primitives.md R141, R142, R148, R149)
  | rCtrl
  | wCtrl (v : Word)
  | rGie
  | wGie (v : Word)
  | rIer
  | wIer (v : Word)
  -- the notification channel and the settle delay (60_exceptions.md R237, R238; 41_host_primitives.md R150)
  | arm
  | cnt
  | delay
  -- wrapper operations (42_protocol_wrapper.md)
  | openSession
  | closeSession
  | wrs (S : Slot) (w : Width) (v : Nat)
  | rds (S : Slot) (w : Width)
  | startSingle (w : Width) (d l r : Sel)
  | startAuto (w : Width)
  | pushe (e0 : Nat) (e1 : Option Nat) (t : Nat)
  | wait
  | updmod (m n : Nat)
  -- pseudo-instructions (43_algorithms.md); `mn` is the explicit modulus and its bit length, if given (R218)
  | mul (x y : Nat) (mn : Option (Nat × Nat))
  | exp (g e t : Nat) (mn : Option (Nat × Nat))
  | dexp (g0 e0 g1 e1 t : Nat) (mn : Option (Nat × Nat))
deriving DecidableEq, Repr

/-- What the host puts on the interface, before decoding: an encoded object (30_encoding.md R80), a bus or channel access
with its offset and its size in bytes (00_scope.md R11), the settle delay, or a call of a wrapper operation, for which
the table gives no bits. -/
inductive Request where
  /-- A command word (format CMD), delivered to CTRL. -/
  | cmd (v : Word)
  /-- An exponent word (format EXPW), delivered to the FIFO port. -/
  | expw (v : Word)
  /-- A slot image (format SLOT), delivered at a slot's base. -/
  | image (S : Slot) (ws : List Word)
  /-- `MemRead((sp, off), n)`. -/
  | memRead (sp : Space) (off : Word) (n : Nat)
  /-- `MemWrite((sp, off), n, v)`. -/
  | memWrite (sp : Space) (off : Word) (n : Nat) (v : Word)
  /-- A write of `n` bytes holding `v` to the notification channel. -/
  | chanWrite (n : Nat) (v : Word)
  /-- A blocking read of `n` bytes of the notification channel. -/
  | chanRead (n : Nat)
  /-- The settle delay (41_host_primitives.md R150). -/
  | delay
  /-- A call of a wrapper operation or an algorithm. -/
  | call (i : Instr)
deriving DecidableEq, Repr

end Sys2Proof
end

