-- ==== Sys2Proof/Machine/Fields.lean ====
section
/-! DEFINITION. The bit fields of the command word and the assembly of one (spec 30_encoding.md R81, R82, R93). -/

namespace Sys2Proof

/-- CTRL.PART (R81). -/
def fieldPart (v : Word) : BitVec 2 := v.extractLsb' cfg.partLsb 2

/-- CTRL.DST (R81). -/
def fieldDst (v : Word) : Sel := v.extractLsb' cfg.dstLsb 2

/-- CTRL.LEFT (R81). -/
def fieldLeft (v : Word) : Sel := v.extractLsb' cfg.leftLsb 2

/-- CTRL.RIGHT (R81). -/
def fieldRight (v : Word) : Sel := v.extractLsb' cfg.rightLsb 2

/-- CTRL.START (R81). -/
def fieldStart (v : Word) : Bool := v.getLsbD cfg.startBit

/-- CTRL.AUTO (R81). -/
def fieldAuto (v : Word) : Bool := v.getLsbD cfg.autoBit

/-- A one-bit field at position `k`. -/
def bitAt (k : Nat) (b : Bool) : Word := (BitVec.ofBool b).setWidth 32 <<< k

/-- The ten command-field bits holding the given fields (R81, R93); every other bit is 0. -/
def cmdFields (p : BitVec 2) (d l r : Sel) (start auto : Bool) : Word :=
  (p.setWidth 32 <<< cfg.partLsb) ||| (d.setWidth 32 <<< cfg.dstLsb) ||| (l.setWidth 32 <<< cfg.leftLsb) |||
    (r.setWidth 32 <<< cfg.rightLsb) ||| bitAt cfg.startBit start ||| bitAt cfg.autoBit auto

/-- CMD_MASK (R81): all ten command-field bits; 0x3FF with the default positions. -/
def cmdMask : Word := cmdFields 3#2 3#2 3#2 3#2 true true

/-- The START bit alone. -/
def startMask : Word := bitAt cfg.startBit true

/-- The reserved bits 31..10 of a word, in place (R81). -/
def reservedBits (v : Word) : Word := v &&& ~~~cmdMask

/-- R93: "clears the command-field bits, ORs in the new" fields. -/
def cmdWord (old : Word) (p : BitVec 2) (d l r : Sel) (start auto : Bool) : Word :=
  reservedBits old ||| cmdFields p d l r start auto

/-- `code(w)` (00_scope.md R12, 30_encoding.md R82). -/
def codeOfWidth : Width → BitVec 2
  | .low => cfg.partLow
  | .high => cfg.partHigh
  | .total => cfg.partTotal

/-- The width a PART code names, if any (R82). -/
def widthOfCode (p : BitVec 2) : Option Width :=
  if p = cfg.partLow then some .low
  else if p = cfg.partHigh then some .high
  else if p = cfg.partTotal then some .total
  else none

/-- R93 `word1` of a single operation. -/
def singleWord1 (old : Word) (w : Width) (d l r : Sel) : Word := cmdWord old (codeOfWidth w) d l r true false

/-- R93 `word1` of an auto-run: selectors zero. -/
def autoWord1 (old : Word) (w : Width) : Word := cmdWord old (codeOfWidth w) 0#2 0#2 0#2 true true

/-- R93 `word2`: the same word with START = 0. -/
def word2 (v : Word) : Word := v &&& ~~~startMask

/-- The command a launch word starts (30_encoding.md R83, R85): none for a reserved word (R86). -/
def decodeCmd (v : Word) : Option Cmd :=
  match widthOfCode (fieldPart v) with
  | none => none
  | some w =>
    if fieldAuto v then
      if fieldDst v = 0#2 ∧ fieldLeft v = 0#2 ∧ fieldRight v = 0#2 then some (.auto w) else none
    else some (.mmul w (fieldDst v) (fieldLeft v) (fieldRight v))

/-- Byte offset in the data space of slot `S` (20_memory.md R55). -/
def slotBase : Slot → Nat
  | .mod => cfg.modOff
  | .op k => cfg.opOff k

/-- Byte offset of word `i` of slot `S` (20_memory.md R59). -/
def wordAddr (S : Slot) (i : Nat) : Nat := slotBase S + i * cfg.stride

/-- The word index that byte offset `off` has in a slot whose base is `base`, if it has one (R59, R58). -/
def wordIndex (base off : Nat) : Option (BitVec 6) :=
  if base ≤ off ∧ (off - base) % cfg.stride = 0 ∧ (off - base) / cfg.stride < slotWords then
    some (BitVec.ofNat 6 ((off - base) / cfg.stride))
  else none

end Sys2Proof
end

