-- ==== Sys2Proof/Machine/State.lean ====
section
/-! DEFINITION. The state as plain data, the reasons a step can stop, and the state after device reset (spec 10_state.md). -/

namespace Sys2Proof.Machine

/-- The data space's storage: (byte offset, byte) cells of the five slots, offsets strictly rising. An unlisted offset
holds no value (10_state.md R25, R45). -/
abbrev Memory := List Host.Cell

/-- The canonical form: offsets strictly rising. Unlisted offsets hold no value, so no entry can equal one. -/
def Memory.wf : Memory → Bool
  | [] => true
  | [_] => true
  | a :: b :: rest => decide (a.1 < b.1) && Memory.wf (b :: rest)

/-- The engine phase (10_state.md R30). -/
inductive Eng where
  | idle
  | latching (c : Cmd)
  | busyMmul (w : Width) (d l r : Sel)
  | busyAuto (w : Width)
deriving DecidableEq, Repr

/-- The four errors of the wrapper (60_exceptions.md R231). -/
inductive HostError where
  /-- E1, raised by open. -/
  | initializationError
  /-- E2, raised by updateModulus and the explicit-modulus algorithms; also written UnsupportedModulusLength (C1). -/
  | unsupportedWidth
  /-- E3, raised by push and by the two exponentiations. -/
  | invalidExponentLength
  /-- E4, logged by wait; never raised to the caller. -/
  | completionTimeout
deriving DecidableEq, Repr

/-- The host's receiving side (the model's own, log entry 9): what the last read or call gave its caller. -/
inductive Ret where
  /-- A call returned normally with no value. -/
  | done
  /-- The word a bus read returned. -/
  | word (v : Word)
  /-- What a channel read returned: a count, or none at the deadline (60_exceptions.md R238). -/
  | count (c : Option Word)
  /-- The word array a slot read or an algorithm returned, word 0 least significant. -/
  | value (ws : List Word)
  /-- A call raised this error (60_exceptions.md R230). -/
  | error (e : HostError)
deriving DecidableEq, Repr

/-- Who moves next (the model's own, log entry 5): the environment's schedule of the three agents of 00_scope.md R6.
`timeout` is the deadline of a blocked channel read passing (60_exceptions.md R238 outcome (b)); elsewhere it is void. -/
inductive Turn where
  | engine
  | irq
  | host
  | timeout
deriving DecidableEq, Repr

/-- The Device Session (10_state.md R33). -/
structure Session where
  /-- `sess.open`. -/
  isOpen : Bool
  /-- `sess.last_count`. -/
  lastCount : Word
  /-- `sess.width`; none until updateModulus. -/
  width : Option Width
  /-- `sess.n`; none until updateModulus. -/
  n : Option Nat
  /-- `sess.words`; none until updateModulus. -/
  words : Option Nat
  /-- `sess.r2`: 48 words. -/
  r2 : List Word
  /-- `sess.desync`: a wait has timed out (70_reset_and_hazards.md R284). -/
  desync : Bool
deriving DecidableEq, Repr

/-- No operation of the model ends in a fault: "The device raises no synchronous exception" (60_exceptions.md R230), and
what the spec gives no meaning is its `refuse`, a refusal here. The type has no constructor. -/
inductive Fault where
deriving DecidableEq, Repr

/-- Every reason the model gives a situation no meaning. Each but the last two of the list is a `refuse` of the spec
(00_scope.md R11); a refusal is SAFE: the model stops where the chip may go on. -/
inductive Refusal where
  /-- An instruction without a meaning; raised by no arm of this model. -/
  | notModelled (mnemonic : String)
  /-- 20_memory.md R52: an access that is not 4 bytes at a multiple of 4; raised by the fetch. Safe. -/
  | accessShape
  /-- 20_memory.md R58: nothing is at the offset; raised by the fetch and by a word index of 48 or more. Safe. -/
  | unmappedOffset
  /-- 60_exceptions.md R237, R238: the shape of a channel transfer; raised by the fetch. Safe. -/
  | channelShape
  /-- 30_encoding.md R91: a slot image that has not 48 words; raised by the fetch and by the image row. Safe. -/
  | imageShape
  /-- 10_state.md R25: a slot word that holds no value, read by the host or by the engine. Safe. -/
  | unwrittenSlotWord
  /-- 20_memory.md R66: a slot or FIFO write while the engine is not idle. Safe. -/
  | writeWhileBusy
  /-- 41_host_primitives.md R146: the FIFO is full. Safe. -/
  | fifoOverflow
  /-- 41_host_primitives.md R147: the FIFO is never read by the host. Safe. -/
  | fifoRead
  /-- 30_encoding.md R86: a launch of a reserved command word. Safe. -/
  | reservedCommand
  /-- 40_engine_ops.md R112: START raised while the engine is not idle. Safe. -/
  | launchWhileBusy
  /-- 40_engine_ops.md R113: a change of the command bits other than clearing START while the engine is not idle. Safe. -/
  | controlWriteWhileBusy
  /-- 40_engine_ops.md R117, R120: an even modulus, or an operand not below the modulus. Safe. -/
  | operandOutOfDomain
  /-- 40_engine_ops.md R123 (a): an auto-run that finds the FIFO empty. Safe. -/
  | autoRunWithEmptyFifo
  /-- 42_protocol_wrapper.md R170: open's precondition, no session is open, fails. Safe. -/
  | sessionAlreadyOpen
  /-- 43_algorithms.md R210: an ambient algorithm before any updateModulus: there is no width to run at. Safe. -/
  | noAmbientModulus
  /-- The model's own: the host called a row that is not a call (log entry 3); raised by the fetch. Safe. -/
  | notACall
deriving DecidableEq, Repr

/-- The complete state (10_state.md R20), then the model's own fields, each named in the assumption log. -/
structure State where
  /-- OP[0..3] and MOD (R21, R22), as cells of the data space. -/
  mem : Memory
  /-- FIFO (R26), head first. -/
  fifo : List Word
  /-- CTRL (R27). -/
  ctrl : Word
  /-- IER (R28). -/
  ier : Word
  /-- GIE (R28). -/
  gie : Word
  /-- eng (R30). -/
  eng : Eng
  /-- irq_pend (R31). -/
  irqPend : Bool
  /-- irq_count (R29). -/
  irqCount : Word
  /-- irq_armed (R29). -/
  irqArmed : Bool
  /-- chan_seen (R29). -/
  chanSeen : Word
  /-- The Device Session (R33). -/
  sess : Session
  /-- The model's own (log entry 9): what the last read or call gave the host. -/
  ret : Ret
  /-- The model's own (log entry 10): the errors the wrapper has logged, oldest first (60_exceptions.md R231). -/
  log : List HostError
  /-- The model's own (log entry 2): the requests the host has still to make, next first. -/
  prog : List Request
  /-- The model's own (log entry 5): who moves next, as far as the environment has fixed it. -/
  sched : List Turn
  /-- The model's own (log entry 11): for the opens to come, whether a mapping fails; none listed means it succeeds. -/
  mapFails : List Bool
  /-- The model's own (log entry 7): how many draws have been made. -/
  draws : Nat
deriving DecidableEq, Repr

/-- The session before open (10_state.md R45; log entry 12 for the fields R45 leaves unspecified). -/
def Session.reset : Session where
  isOpen := false
  lastCount := 0#32
  width := none
  n := none
  words := none
  r2 := List.replicate slotWords 0#32
  desync := false

/-- The state after device reset (10_state.md R45, 70_reset_and_hazards.md R270). `irq_count` is
the parameter COUNT_RESET; its value, `chan_seen` and `sess.r2` are unspecified there and zero here (log entry 12). -/
def State.reset : State where
  mem := []
  fifo := []
  ctrl := 0#32
  ier := 0#32
  gie := 0#32
  eng := .idle
  irqPend := false
  irqCount := cfg.countReset
  irqArmed := false
  chanSeen := 0#32
  sess := Session.reset
  ret := .done
  log := []
  prog := []
  sched := []
  mapFails := []
  draws := 0

/-- What every operation of the machine answers. -/
abbrev Result := Host.Outcome State Fault Refusal

end Sys2Proof.Machine
end

