-- ==== Sys2Proof/Machine/Flags.lean ====
section
/-! DEFINITION. The conditions the machine tests. The device has no flags (spec 10_state.md R32): these are the engine's
phase, the interrupt enables and the channel's comparison. -/

namespace Sys2Proof.Machine

/-- "Busy" (10_state.md R30): the engine is not idle. -/
def busy (s : State) : Bool := decide (s.eng ≠ .idle)

/-- The engine has not latched the strobe yet (10_state.md R30). -/
def latching (s : State) : Bool :=
  match s.eng with
  | .latching _ => true
  | _ => false

/-- Interrupt delivery is enabled (10_state.md R28): both masks are set. -/
def irqEnabled (s : State) : Bool :=
  decide (s.ier &&& cfg.ierMask = cfg.ierMask) && decide (s.gie &&& cfg.gieMask = cfg.gieMask)

/-- The IRQ step `deliver` is enabled (60_exceptions.md R234). -/
def deliverEnabled (s : State) : Bool := s.irqPend && irqEnabled s && s.irqArmed

/-- The channel has a count the host has not been given (60_exceptions.md R238). -/
def countNew (s : State) : Bool := decide (s.irqCount ≠ s.chanSeen)

end Sys2Proof.Machine
end

