-- ==== Sys2Proof/WellFormed.lean ====
section
/-! DEFINITION. Which instructions an encoding stands for. -/

namespace Sys2Proof

/-- `x` holds reserved bits only (30_encoding.md R81). -/
def reservedOnly (x : Word) : Bool := decide (x &&& cmdMask = 0#32)

/-- A word index of a slot: 0 to 47 (20_memory.md R59; 48 to 63 are unmapped, R58). -/
def indexOk (i : BitVec 6) : Bool := decide (i.toNat < slotWords)

/-- Well-formed instructions: reserved bits where the row has them, a word index a slot has, a 48-word image, and for the
two rows of reserved words what their notes in the table say (30_encoding.md R86). -/
def Instr.wf : Instr → Bool
  | .mmulL x _ _ _ => reservedOnly x
  | .mmulH x _ _ _ => reservedOnly x
  | .mmulT x _ _ _ => reservedOnly x
  | .autoL x => reservedOnly x
  | .autoH x => reservedOnly x
  | .autoT x => reservedOnly x
  | .idleWord x _ _ _ _ _ => reservedOnly x
  | .reservedPart x _ _ _ _ => reservedOnly x
  | .reservedAuto x p d l r =>
    reservedOnly x && decide (p ≠ cfg.partReserved) && !(decide (d = 0#2) && decide (l = 0#2) && decide (r = 0#2))
  | .expw _ _ => true
  | .slotImage _ img => decide (img.length = slotWords)
  | .rMod i => indexOk i
  | .wMod i _ => indexOk i
  | .rOp0 i => indexOk i
  | .wOp0 i _ => indexOk i
  | .rOp1 i => indexOk i
  | .wOp1 i _ => indexOk i
  | .rOp2 i => indexOk i
  | .wOp2 i _ => indexOk i
  | .rOp3 i => indexOk i
  | .wOp3 i _ => indexOk i
  | .wFifo _ => true
  | .rFifo => true
  | .rCtrl => true
  | .wCtrl _ => true
  | .rGie => true
  | .wGie _ => true
  | .rIer => true
  | .wIer _ => true
  | .arm => true
  | .cnt => true
  | .delay => true
  | .openSession => true
  | .closeSession => true
  | .wrs _ _ _ => true
  | .rds _ _ => true
  | .startSingle _ _ _ _ => true
  | .startAuto _ => true
  | .pushe _ _ _ => true
  | .wait => true
  | .updmod _ _ => true
  | .mul _ _ _ => true
  | .exp _ _ _ _ => true
  | .dexp _ _ _ _ _ _ => true

/-- The rows the table gives no bits: the wrapper operations and the algorithms (format PSEUDO). -/
def Instr.isCall : Instr → Bool
  | .openSession => true
  | .closeSession => true
  | .wrs _ _ _ => true
  | .rds _ _ => true
  | .startSingle _ _ _ _ => true
  | .startAuto _ => true
  | .pushe _ _ _ => true
  | .wait => true
  | .updmod _ _ => true
  | .mul _ _ _ => true
  | .exp _ _ _ _ => true
  | .dexp _ _ _ _ _ _ => true
  | _ => false

end Sys2Proof
end

