-- ==== Sys2Proof/Decode.lean ====
section
/-! DEFINITION. The decoder from what the host puts on the interface to an instruction, total and refusing by name, and
after it the encoder (spec 30_encoding.md R81 to R88; 20_memory.md R52 to R59; 60_exceptions.md R237, R238). -/

namespace Sys2Proof

/-- Why a request is no instruction; each is a `refuse` of the spec, but the last two, which are the model's. -/
inductive DecodeError where
  /-- 20_memory.md R52: a size other than 4 bytes, or a misaligned offset. -/
  | accessShape
  /-- 20_memory.md R58: nothing is at that offset. -/
  | unmappedOffset
  /-- 60_exceptions.md R237, R238: a channel write of a value other than 1, or a size other than 4 bytes. -/
  | channelShape
  /-- 30_encoding.md R80, R91: a slot image has 48 words. -/
  | imageShape
  /-- The model's own: only a row without bits is called (log entry 3). -/
  | notACall
deriving DecidableEq, Repr

/-- The row of a command word (30_encoding.md R83, R85, R86; the PART = 0 row before the AUTO row, as the table's note says). -/
def decodeCommand (v : Word) : Instr :=
  let x := reservedBits v
  let d := fieldDst v
  let l := fieldLeft v
  let r := fieldRight v
  if fieldStart v then
    match widthOfCode (fieldPart v), fieldAuto v with
    | none, a => .reservedPart x a d l r
    | some .low, false => .mmulL x d l r
    | some .high, false => .mmulH x d l r
    | some .total, false => .mmulT x d l r
    | some w, true =>
      if d = 0#2 ∧ l = 0#2 ∧ r = 0#2 then
        match w with
        | .low => .autoL x
        | .high => .autoH x
        | .total => .autoT x
      else .reservedAuto x (fieldPart v) d l r
  else .idleWord x (fieldAuto v) (fieldPart v) d l r

/-- The slot and word index of a data-space offset (20_memory.md R55, R59). -/
def locate (off : Nat) : Option (Slot × BitVec 6) :=
  match wordIndex (slotBase .mod) off with
  | some i => some (.mod, i)
  | none =>
    match wordIndex (slotBase (.op 0#2)) off with
    | some i => some (.op 0#2, i)
    | none =>
      match wordIndex (slotBase (.op 1#2)) off with
      | some i => some (.op 1#2, i)
      | none =>
        match wordIndex (slotBase (.op 2#2)) off with
        | some i => some (.op 2#2, i)
        | none =>
          match wordIndex (slotBase (.op 3#2)) off with
          | some i => some (.op 3#2, i)
          | none => none

/-- The row of a read of word `i` of a slot (20_memory.md R56). -/
def slotRead (S : Slot) (i : BitVec 6) : Instr :=
  match S with
  | .mod => .rMod i
  | .op k =>
    if k = 0#2 then .rOp0 i else if k = 1#2 then .rOp1 i else if k = 2#2 then .rOp2 i else .rOp3 i

/-- The row of a write of word `i` of a slot (20_memory.md R57). -/
def slotWrite (S : Slot) (i : BitVec 6) (v : Word) : Instr :=
  match S with
  | .mod => .wMod i v
  | .op k =>
    if k = 0#2 then .wOp0 i v else if k = 1#2 then .wOp1 i v else if k = 2#2 then .wOp2 i v else .wOp3 i v

/-- A data-space read (20_memory.md R55, R58; 41_host_primitives.md R147 for the FIFO port). -/
def decodeDataRead (off : Nat) : Except DecodeError Instr :=
  match locate off with
  | some (S, i) => .ok (slotRead S i)
  | none => if off = cfg.fifoOff then .ok .rFifo else .error .unmappedOffset

/-- A data-space write (20_memory.md R55, R58; 41_host_primitives.md R146 for the FIFO port). -/
def decodeDataWrite (off : Nat) (v : Word) : Except DecodeError Instr :=
  match locate off with
  | some (S, i) => .ok (slotWrite S i v)
  | none => if off = cfg.fifoOff then .ok (.wFifo v) else .error .unmappedOffset

/-- A control-space read (20_memory.md R54, R58). -/
def decodeCtrlRead (off : Nat) : Except DecodeError Instr :=
  if off = cfg.ctrlOff then .ok .rCtrl
  else if off = cfg.gieOff then .ok .rGie
  else if off = cfg.ierOff then .ok .rIer
  else .error .unmappedOffset

/-- A control-space write (20_memory.md R54, R58). -/
def decodeCtrlWrite (off : Nat) (v : Word) : Except DecodeError Instr :=
  if off = cfg.ctrlOff then .ok (.wCtrl v)
  else if off = cfg.gieOff then .ok (.wGie v)
  else if off = cfg.ierOff then .ok (.wIer v)
  else .error .unmappedOffset

/-- R52: an admitted access is 4 bytes at a multiple of 4. -/
def shapeOk (off : Word) (n : Nat) : Bool := decide (n = 4) && decide (off.toNat % 4 = 0)

/-- The decoder: total on every request. -/
def decode : Request → Except DecodeError Instr
  | .cmd v => .ok (decodeCommand v)
  | .expw v => .ok (.expw (v.extractLsb' 16 16) (v.extractLsb' 0 16))
  | .image S ws => if ws.length = slotWords then .ok (.slotImage S ws) else .error .imageShape
  | .memRead sp off n =>
    if shapeOk off n then
      match sp with
      | .data => decodeDataRead off.toNat
      | .ctrl => decodeCtrlRead off.toNat
    else .error .accessShape
  | .memWrite sp off n v =>
    if shapeOk off n then
      match sp with
      | .data => decodeDataWrite off.toNat v
      | .ctrl => decodeCtrlWrite off.toNat v
    else .error .accessShape
  | .chanWrite n v => if n = 4 ∧ v = 1#32 then .ok .arm else .error .channelShape
  | .chanRead n => if n = 4 then .ok .cnt else .error .channelShape
  | .delay => .ok .delay
  | .call i => if i.isCall then .ok i else .error .notACall

/-- A 4-byte read of word `i` of slot `S` at its offset (20_memory.md R59). -/
def readRequest (S : Slot) (i : BitVec 6) : Request := .memRead .data (BitVec.ofNat 32 (wordAddr S i.toNat)) 4

/-- A 4-byte write of word `i` of slot `S` at its offset (20_memory.md R59). -/
def writeRequest (S : Slot) (i : BitVec 6) (v : Word) : Request :=
  .memWrite .data (BitVec.ofNat 32 (wordAddr S i.toNat)) 4 v

/-- The encoder: what the host puts on the interface for an instruction, from the same tables (R81, R83, R88, R54, R55). -/
def encode : Instr → Request
  | .mmulL x d l r => .cmd (cmdWord x cfg.partLow d l r true false)
  | .mmulH x d l r => .cmd (cmdWord x cfg.partHigh d l r true false)
  | .mmulT x d l r => .cmd (cmdWord x cfg.partTotal d l r true false)
  | .autoL x => .cmd (cmdWord x cfg.partLow 0#2 0#2 0#2 true true)
  | .autoH x => .cmd (cmdWord x cfg.partHigh 0#2 0#2 0#2 true true)
  | .autoT x => .cmd (cmdWord x cfg.partTotal 0#2 0#2 0#2 true true)
  | .idleWord x a p d l r => .cmd (cmdWord x p d l r false a)
  | .reservedPart x a d l r => .cmd (cmdWord x cfg.partReserved d l r true a)
  | .reservedAuto x p d l r => .cmd (cmdWord x p d l r true true)
  | .expw e1 e0 => .expw (e1 ++ e0)
  | .slotImage S img => .image S img
  | .rMod i => readRequest .mod i
  | .wMod i v => writeRequest .mod i v
  | .rOp0 i => readRequest (.op 0#2) i
  | .wOp0 i v => writeRequest (.op 0#2) i v
  | .rOp1 i => readRequest (.op 1#2) i
  | .wOp1 i v => writeRequest (.op 1#2) i v
  | .rOp2 i => readRequest (.op 2#2) i
  | .wOp2 i v => writeRequest (.op 2#2) i v
  | .rOp3 i => readRequest (.op 3#2) i
  | .wOp3 i v => writeRequest (.op 3#2) i v
  | .wFifo v => .memWrite .data (BitVec.ofNat 32 cfg.fifoOff) 4 v
  | .rFifo => .memRead .data (BitVec.ofNat 32 cfg.fifoOff) 4
  | .rCtrl => .memRead .ctrl (BitVec.ofNat 32 cfg.ctrlOff) 4
  | .wCtrl v => .memWrite .ctrl (BitVec.ofNat 32 cfg.ctrlOff) 4 v
  | .rGie => .memRead .ctrl (BitVec.ofNat 32 cfg.gieOff) 4
  | .wGie v => .memWrite .ctrl (BitVec.ofNat 32 cfg.gieOff) 4 v
  | .rIer => .memRead .ctrl (BitVec.ofNat 32 cfg.ierOff) 4
  | .wIer v => .memWrite .ctrl (BitVec.ofNat 32 cfg.ierOff) 4 v
  | .arm => .chanWrite 4 1#32
  | .cnt => .chanRead 4
  | .delay => .delay
  | .openSession => .call .openSession
  | .closeSession => .call .closeSession
  | .wrs S w v => .call (.wrs S w v)
  | .rds S w => .call (.rds S w)
  | .startSingle w d l r => .call (.startSingle w d l r)
  | .startAuto w => .call (.startAuto w)
  | .pushe e0 e1 t => .call (.pushe e0 e1 t)
  | .wait => .call .wait
  | .updmod m n => .call (.updmod m n)
  | .mul x y mn => .call (.mul x y mn)
  | .exp g e t mn => .call (.exp g e t mn)
  | .dexp g0 e0 g1 e1 t mn => .call (.dexp g0 e0 g1 e1 t mn)

/-- The request an opcode-table word stands for when only its bits are given (log entry 4): a 32-bit word is the command
word, but for ARM's, which the table fixes whole; a 16-bit word is a data-space offset where one is mapped there and else
a control-space offset, with the operand word of zeros that makes it a write; 12 bits or fewer are a control-space offset. -/
def tableRequest (nbits w : Nat) : Option Request :=
  let off := BitVec.ofNat 32 w
  if nbits = 32 then
    if w = 1 then some (.chanWrite 4 1#32) else some (.cmd off)
  else if nbits = 16 then
    if off.toNat = cfg.gieOff ∨ off.toNat = cfg.ierOff then some (.memWrite .ctrl off 4 0#32)
    else some (.memWrite .data off 4 0#32)
  else if 0 < nbits ∧ nbits ≤ 12 then some (.memWrite .ctrl off 4 0#32)
  else none

/-- The instruction the decoder reads from an opcode-table word. -/
def decodeTableWord (nbits w : Nat) : Option Instr :=
  match tableRequest nbits w with
  | none => none
  | some q => (decode q).toOption

end Sys2Proof
end

