-- ==== Sys2Proof/Machine/Operands.lean ====
section
/-! DEFINITION. The operands, as functions of plain data: widths and regions, numbers and word arrays, the slot codec, the
exponent stream, and the Montgomery arithmetic (spec 00_scope.md R12, 10_state.md R23, R24, 42_protocol_wrapper.md R172,
R173, 30_encoding.md R89, 40_engine_ops.md R110, 43_algorithms.md R211). -/

namespace Sys2Proof.Machine

/-- `n(w)`: the bit length of a width (00_scope.md R12). -/
def bitsOf : Width → Nat
  | .low => 512
  | .high => 1024
  | .total => 1536

/-- `cnt(w)`: the words of a width's region (00_scope.md R12). -/
def cntOf : Width → Nat
  | .low => 16
  | .high => 32
  | .total => 48

/-- `lo(w)`: the first word of a width's region (00_scope.md R12, 10_state.md R23). -/
def loOf : Width → Nat
  | .low => 0
  | .high => 16
  | .total => 0

/-- The width a bit length selects (42_protocol_wrapper.md R197). -/
def widthOfBits (n : Nat) : Option Width :=
  if n = 512 then some .low else if n = 1024 then some .high else if n = 1536 then some .total else none

/-- The number a word array stands for, word 0 least significant (10_state.md R24). -/
def valueOf : List Word → Nat
  | [] => 0
  | v :: vs => v.toNat + 2 ^ 32 * valueOf vs

/-- The first `k` words of a number, word 0 least significant (10_state.md R24). -/
def wordsOf : Nat → Nat → List Word
  | 0, _ => []
  | k + 1, v => BitVec.ofNat 32 v :: wordsOf k (v / 2 ^ 32)

/-- Word `i` of a number (10_state.md R24). -/
def wordAt (v i : Nat) : Word := BitVec.ofNat 32 (v / 2 ^ (32 * i))

/-- `encode(value_words, w)` (42_protocol_wrapper.md R172): a 48-word buffer from a word array. Only its first `cnt(w)`
words are used, and a shorter array stands for a number, so its missing words are 0. -/
def slotEncode (vs : List Word) (w : Width) : List Word :=
  let body := (List.range (cntOf w)).map (fun i => vs.getD i 0#32)
  List.replicate (loOf w) 0#32 ++ body ++ List.replicate (slotWords - loOf w - cntOf w) 0#32

/-- `decode(buf, w)` (42_protocol_wrapper.md R173). -/
def slotDecode (buf : List Word) (w : Width) : List Word := (buf.drop (loOf w)).take (cntOf w)

/-- The image of a number at a width (30_encoding.md R91): the encoding of its words. -/
def slotImageOf (v : Nat) (w : Width) : List Word := slotEncode (wordsOf (cntOf w) v) w

/-- `A_i` of 30_encoding.md R89: the high halves of word `i` of the two exponents, stream 1 above stream 0. -/
def expWordA (e0 e1 i : Nat) : Word := (wordAt e1 i &&& 0xFFFF0000#32) ||| (wordAt e0 i >>> 16)

/-- `B_i` of 30_encoding.md R89: the low halves. -/
def expWordB (e0 e1 i : Nat) : Word := ((wordAt e1 i &&& 0x0000FFFF#32) <<< 16) ||| (wordAt e0 i &&& 0x0000FFFF#32)

/-- The stream of `k` exponent words, most significant first (R89); an absent `e1` is 0 (R90). -/
def expStream (e0 e1 : Nat) : Nat → List Word
  | 0 => []
  | k + 1 => expWordA e0 e1 k :: expWordB e0 e1 k :: expStream e0 e1 k

/-- `Rinv` of 40_engine_ops.md R110 for odd `m`: the inverse of `2^n`, as the n-th power of the inverse `(m + 1) / 2` of 2. -/
def rinv (m n : Nat) : Nat := ((m + 1) / 2) ^ n % m

/-- `MontMul(a, b, m, n)` (40_engine_ops.md R110). -/
def montMul (a b m n : Nat) : Nat := a * b * rinv m n % m

/-- R² (43_algorithms.md R211): `2^(2n) mod m`; for `m = 0`, where that is no number, an open value (log entry 8). -/
def r2Of (m n : Nat) : Nat := if m = 0 then Config.r2OfZero n else 2 ^ (2 * n) % m

/-- `sess.r2` as updateModulus fills it (42_protocol_wrapper.md R196): the words of R², the rest of the 48 zero. -/
def r2Words (m n : Nat) (w : Width) : List Word :=
  wordsOf (cntOf w) (r2Of m n) ++ List.replicate (slotWords - cntOf w) 0#32

/-- The multiplicand slot of a pair bit (40_engine_ops.md R120): none for 00, TAB1 for 01, TAB2 for 10, TAB3 for 11. -/
def tabSlot (b1 b0 : Bool) : Option Slot :=
  match b1, b0 with
  | false, false => none
  | false, true => some (.op cfg.tab1)
  | true, false => some (.op cfg.tab2)
  | true, true => some (.op cfg.tab3)

end Sys2Proof.Machine
end

