-- ==== Sys2Proof/Machine/Ops.lean ====
section
/-! DEFINITION. The named operations: storage, the ENGINE's steps, the IRQ's step, the host's primitive accesses, the turns
the other agents take between two of them, and raising an error (spec 20_memory.md, 40_engine_ops.md, 41_host_primitives.md,
60_exceptions.md). -/

namespace Sys2Proof.Machine

/-- Run `f` on what `o` answers; a stop stays a stop. -/
def andThen {α β : Type} (o : Host.Outcome α Fault Refusal) (f : α → Host.Outcome β Fault Refusal) :
    Host.Outcome β Fault Refusal :=
  match o with
  | .next a => f a
  | .fault e => .fault e
  | .refused r => .refused r

/-! ### Storage (20_memory.md R53: little-endian lanes, where a model stores bytes) -/

/-- The byte at an offset; none where nothing is stored. -/
def getByte : Memory → Nat → Option Byte
  | [], _ => none
  | (k, b) :: rest, a => if k = a then some b else getByte rest a

/-- Store one byte, keeping offsets strictly rising. -/
def setByte : Memory → Nat → Byte → Memory
  | [], a, b => [(a, b)]
  | (k, c) :: rest, a, b =>
    if a < k then (a, b) :: (k, c) :: rest
    else if a = k then (a, b) :: rest
    else (k, c) :: setByte rest a b

/-- Make one offset hold no value. -/
def clearByte : Memory → Nat → Memory
  | [], _ => []
  | (k, c) :: rest, a => if k = a then clearByte rest a else (k, c) :: clearByte rest a

/-- The word at an offset: a value only where all four bytes have one. -/
def getWord (m : Memory) (a : Nat) : Option Word :=
  match getByte m a, getByte m (a + 1), getByte m (a + 2), getByte m (a + 3) with
  | some b0, some b1, some b2, some b3 => some (b3 ++ b2 ++ b1 ++ b0)
  | _, _, _, _ => none

/-- Store a word at an offset. -/
def setWord (m : Memory) (a : Nat) (v : Word) : Memory :=
  setByte (setByte (setByte (setByte m a (v.extractLsb' 0 8)) (a + 1) (v.extractLsb' 8 8))
    (a + 2) (v.extractLsb' 16 8)) (a + 3) (v.extractLsb' 24 8)

/-- Make a word hold no value (40_engine_ops.md R115). -/
def clearWord (m : Memory) (a : Nat) : Memory :=
  clearByte (clearByte (clearByte (clearByte m a) (a + 1)) (a + 2)) (a + 3)

/-- The `k` words from an offset on, STRIDE apart; none if one of them holds no value. -/
def readRun (m : Memory) (a : Nat) : Nat → Option (List Word)
  | 0 => some []
  | k + 1 =>
    match getWord m a, readRun m (a + cfg.stride) k with
    | some v, some vs => some (v :: vs)
    | _, _ => none

/-- Store words from an offset on, STRIDE apart, in ascending order. -/
def writeRun (m : Memory) (a : Nat) : List Word → Memory
  | [] => m
  | v :: vs => writeRun (setWord m a v) (a + cfg.stride) vs

/-- Make `k` words from an offset on hold no value. -/
def clearRun (m : Memory) (a : Nat) : Nat → Memory
  | 0 => m
  | k + 1 => clearRun (clearWord m a) (a + cfg.stride) k

/-- `S[i]` (10_state.md R21). -/
def slotWord (m : Memory) (S : Slot) (i : Nat) : Option Word := getWord m (wordAddr S i)

/-- `val(S, w)` (10_state.md R24): none if a word of the region holds no value. -/
def regionVal (m : Memory) (S : Slot) (w : Width) : Option Nat :=
  (readRun m (wordAddr S (loOf w)) (cntOf w)).map valueOf

/-- `setval(S, w, v)` (10_state.md R24). -/
def setRegion (m : Memory) (S : Slot) (w : Width) (v : Nat) : Memory :=
  writeRun m (wordAddr S (loOf w)) (wordsOf (cntOf w) v)

/-- Every word of a slot outside the active region holds no value (40_engine_ops.md R115). -/
def clearInactive (m : Memory) (S : Slot) (w : Width) : Memory :=
  clearRun (clearRun m (wordAddr S 0) (loOf w)) (wordAddr S (loOf w + cntOf w)) (slotWords - loOf w - cntOf w)

/-- What a completed operation leaves of its destination (R114, R115, R120). -/
def storeResult (m : Memory) (S : Slot) (w : Width) (v : Nat) : Memory := clearInactive (setRegion m S w v) S w

/-! ### The ENGINE (40_engine_ops.md R112, R114, R120) -/

/-- The end of an operation: the result is in place, the engine idle and its request pending, in one step (R114, R120,
R126; 60_exceptions.md R233). -/
def finishOp (S : Slot) (w : Width) (v : Nat) (s : State) : State :=
  { s with mem := storeResult s.mem S w v, eng := .idle, irqPend := true }

/-- The step `complete` of a single operation (R114, R117). -/
def completeMmul (w : Width) (d l r : Sel) (s : State) : Result :=
  match regionVal s.mem .mod w, regionVal s.mem (.op l) w, regionVal s.mem (.op r) w with
  | some m, some a, some b =>
    if m % 2 = 1 ∧ a < m ∧ b < m then .next (finishOp (.op d) w (montMul a b m (bitsOf w)) s)
    else .refused .operandOutOfDomain
  | _, _, _ => .refused .unwrittenSlotWord

/-- One pair bit of an auto-run (R120): square, then multiply by the selected multiplicand, if any. -/
def autoPair (mem : Memory) (w : Width) (m : Nat) (b1 b0 : Bool) (A : Nat) : Host.Outcome Nat Fault Refusal :=
  let sq := montMul A A m (bitsOf w)
  match tabSlot b1 b0 with
  | none => .next sq
  | some S =>
    match regionVal mem S w with
    | none => .refused .unwrittenSlotWord
    | some T => if T < m then .next (montMul sq T m (bitsOf w)) else .refused .operandOutOfDomain

/-- The pair bits `k - 1` down to 0 of an exponent word (R120, R122; 30_encoding.md R88). -/
def autoWord (mem : Memory) (w : Width) (m : Nat) (x : Word) : Nat → Nat → Host.Outcome Nat Fault Refusal
  | 0, A => .next A
  | k + 1, A => andThen (autoPair mem w m (x.getLsbD (16 + k)) (x.getLsbD k) A) (autoWord mem w m x k)

/-- The words of the FIFO, head first, until it is empty (R120). -/
def autoRun (mem : Memory) (w : Width) (m : Nat) : List Word → Nat → Host.Outcome Nat Fault Refusal
  | [], A => .next A
  | x :: xs, A => andThen (autoWord mem w m x 16 A) (autoRun mem w m xs)

/-- The step `complete` of an auto-run (R120, R123). -/
def completeAuto (w : Width) (s : State) : Result :=
  match regionVal s.mem .mod w with
  | none => .refused .unwrittenSlotWord
  | some m =>
    if s.fifo = [] then .refused .autoRunWithEmptyFifo
    else
      match regionVal s.mem (.op cfg.acc) w with
      | none => .refused .unwrittenSlotWord
      | some A =>
        if m % 2 = 1 ∧ A < m then
          andThen (autoRun s.mem w m s.fifo A) (fun v => .next { finishOp (.op cfg.acc) w v s with fifo := [] })
        else .refused .operandOutOfDomain

/-- The busy phase of a latched command (R112). -/
def busyOf : Cmd → Eng
  | .mmul w d l r => .busyMmul w d l r
  | .auto w => .busyAuto w

/-- One step of the ENGINE: `latch`, `complete`, or nothing when it is idle (R112, R114, R120). -/
def engineStep (s : State) : Result :=
  match s.eng with
  | .idle => .next s
  | .latching c => .next { s with eng := busyOf c }
  | .busyMmul w d l r => completeMmul w d l r s
  | .busyAuto w => completeAuto w s

/-! ### The IRQ agent: taking the completion interrupt (60_exceptions.md R234) -/

/-- The step `deliver` where it is enabled, else nothing: the count goes up by one, the request and the arming are
cleared. This is the machine's only interrupt entry (R242: nothing is saved and no control is transferred). -/
def irqStep (s : State) : State :=
  if deliverEnabled s then { s with irqCount := s.irqCount + 1#32, irqPend := false, irqArmed := false } else s

/-! ### Turns of the other agents between two host accesses (00_scope.md R6) -/

/-- The ENGINE and IRQ steps the schedule puts before the host's next access. -/
def agentsGo : List Turn → State → Result
  | [], s => .next { s with sched := [] }
  | .host :: ts, s => .next { s with sched := ts }
  | .timeout :: ts, s => agentsGo ts s
  | .engine :: ts, s => andThen (engineStep s) (agentsGo ts)
  | .irq :: ts, s => agentsGo ts (irqStep s)

/-- The turns of the other agents, by the state's schedule. -/
def agents (s : State) : Result := agentsGo s.sched s

/-- One host access inside a wrapper operation: the other agents' turns, then the access. -/
def turn (f : State → Result) (s : State) : Result := andThen (agents s) f

/-- A fixed sequence of operations. -/
def runAll : List (State → Result) → State → Result
  | [], s => .next s
  | f :: fs, s => andThen (f s) (runAll fs)

/-! ### The host's primitive accesses (41_host_primitives.md R140) -/

/-- A read of the data-space word at an offset of a slot (20_memory.md R56, R66). -/
def readData (a : Nat) (s : State) : Result :=
  if busy s then .next { s with ret := .word (Config.drawWord s.draws), draws := s.draws + 1 }
  else
    match getWord s.mem a with
    | some v => .next { s with ret := .word v }
    | none => .refused .unwrittenSlotWord

/-- A write of the data-space word at an offset of a slot (20_memory.md R57, R66). -/
def writeData (a : Nat) (v : Word) (s : State) : Result :=
  if busy s then .refused .writeWhileBusy else .next { s with mem := setWord s.mem a v }

/-- `R S[i]`: an index of 48 or more is unmapped (20_memory.md R58). -/
def readSlot (S : Slot) (i : BitVec 6) (s : State) : Result :=
  if indexOk i then readData (wordAddr S i.toNat) s else .refused .unmappedOffset

/-- `W S[i], v`. -/
def writeSlot (S : Slot) (i : BitVec 6) (v : Word) (s : State) : Result :=
  if indexOk i then writeData (wordAddr S i.toNat) v s else .refused .unmappedOffset

/-- `W FIFO, v` (41_host_primitives.md R146). -/
def pushFifo (v : Word) (s : State) : Result :=
  if busy s then .refused .writeWhileBusy
  else if s.fifo.length < Config.fifoDepth then .next { s with fifo := s.fifo ++ [v] }
  else .refused .fifoOverflow

/-- `R CTRL` (41_host_primitives.md R141). -/
def readCtrl (s : State) : Result := .next { s with ret := .word s.ctrl }

/-- `W CTRL, v` (40_engine_ops.md R112, R113): the launch, the withdrawal of an unlatched strobe, or no effect on the engine. -/
def writeCtrl (v : Word) (s : State) : Result :=
  if s.eng = .idle then
    if !fieldStart s.ctrl && fieldStart v then
      match decodeCmd v with
      | some c => .next { s with ctrl := v, eng := .latching c }
      | none => .refused .reservedCommand
    else .next { s with ctrl := v }
  else if !fieldStart s.ctrl && fieldStart v then .refused .launchWhileBusy
  else if (v ^^^ s.ctrl) &&& (cmdMask &&& ~~~startMask) ≠ 0#32 then .refused .controlWriteWhileBusy
  else if fieldStart s.ctrl && !fieldStart v && latching s then .next { s with ctrl := v, eng := .idle }
  else .next { s with ctrl := v }

/-- `W IER, v` (41_host_primitives.md R148). -/
def writeIer (v : Word) (s : State) : Result := .next { s with ier := v }

/-- `W GIE, v` (41_host_primitives.md R148). -/
def writeGie (v : Word) (s : State) : Result := .next { s with gie := v }

/-- `ARM` = `ChanWrite(1)` (60_exceptions.md R237). -/
def armChannel (s : State) : Result := .next { s with irqArmed := true }

/-- Outcome (a) of a channel read (60_exceptions.md R238). -/
def takeCount (s : State) : State := { s with chanSeen := s.irqCount, ret := .count (some s.irqCount) }

/-- What the other agents still do while the host is blocked and the schedule says no more: each enabled step happens
(70_reset_and_hazards.md R290), in the order latch, complete, deliver. -/
def drain (s : State) : Result :=
  andThen (engineStep s) (fun s1 => andThen (engineStep s1) (fun s2 => .next (irqStep s2)))

/-- `CNT` = `ChanRead(deadline)` (60_exceptions.md R238): a new count is returned at once; otherwise the host is blocked
while the other agents take their turns, until a count is new or the deadline passes. -/
def cntGo : List Turn → State → Result
  | [], s =>
    if countNew s then .next (takeCount { s with sched := [] })
    else
      andThen (drain { s with sched := [] }) (fun s1 =>
        if countNew s1 then .next (takeCount s1) else .next { s1 with ret := .count none })
  | t :: ts, s =>
    if countNew s then .next (takeCount { s with sched := t :: ts })
    else
      match t with
      | .engine => andThen (engineStep s) (cntGo ts)
      | .irq => cntGo ts (irqStep s)
      | .host => cntGo ts s
      | .timeout => .next { s with sched := ts, ret := .count none }

/-- The channel read, by the state's schedule. -/
def readChannel (s : State) : Result := cntGo s.sched s

/-- `DELAY` (41_host_primitives.md R150): it cannot finish before the engine has latched the strobe. -/
def delayGo : List Turn → State → Result
  | [], s =>
    if latching s then andThen (engineStep s) (fun s1 => .next { s1 with sched := [] })
    else .next { s with sched := [] }
  | t :: ts, s =>
    if latching s then
      match t with
      | .engine => andThen (engineStep s) (delayGo ts)
      | .irq => delayGo ts (irqStep s)
      | .host => delayGo ts s
      | .timeout => delayGo ts s
    else .next { s with sched := t :: ts }

/-- The settle delay, by the state's schedule. -/
def settleDelay (s : State) : Result := delayGo s.sched s

/-! ### Errors: the wrapper's exceptions (60_exceptions.md R230, R231) -/

/-- `raise e`: the operation stops here and its caller gets the error; E2 is also logged. -/
def raise (e : HostError) (s : State) : Result :=
  .next { s with ret := .error e, log := if e = .unsupportedWidth then s.log ++ [e] else s.log }

/-- A call returns normally with no value. -/
def returnDone (s : State) : Result := .next { s with ret := .done }

end Sys2Proof.Machine
end

