-- ==== Sys2Proof/Machine/Command.lean ====
section
/-! DEFINITION. The meanings of the encoded objects of spec 30_encoding.md R80: the command words, the exponent word and the
slot image. An encoded object takes effect by the host access that delivers it (log entry 1). -/

namespace Sys2Proof.Machine

/-- Writing the words of a slot, or the words of an image, ascending from an offset, the other agents' turns before each. -/
def writeWords : List Word → Nat → State → Result
  | [], _, s => .next s
  | v :: vs, a, s => andThen (turn (writeData a v) s) (writeWords vs (a + cfg.stride))

/-- MMUL.L: the launch word of a single operation at width Low (R83), written to CTRL (40_engine_ops.md R112). What the
engine then does is `engineStep` (R112 latch, R114 complete). -/
def execMmulL (x : Word) (d l r : Sel) (s : State) : Result := writeCtrl (cmdWord x cfg.partLow d l r true false) s

/-- MMUL.H: as MMUL.L at width High. -/
def execMmulH (x : Word) (d l r : Sel) (s : State) : Result := writeCtrl (cmdWord x cfg.partHigh d l r true false) s

/-- MMUL.T: as MMUL.L at width Total. -/
def execMmulT (x : Word) (d l r : Sel) (s : State) : Result := writeCtrl (cmdWord x cfg.partTotal d l r true false) s

/-- AUTO.L: the launch word of an auto-run at width Low (R83), written to CTRL (40_engine_ops.md R112). What the engine
then does is `engineStep` (R112 latch, R120 complete). -/
def execAutoL (x : Word) (s : State) : Result := writeCtrl (cmdWord x cfg.partLow 0#2 0#2 0#2 true true) s

/-- AUTO.H: as AUTO.L at width High. -/
def execAutoH (x : Word) (s : State) : Result := writeCtrl (cmdWord x cfg.partHigh 0#2 0#2 0#2 true true) s

/-- AUTO.T: as AUTO.L at width Total. -/
def execAutoT (x : Word) (s : State) : Result := writeCtrl (cmdWord x cfg.partTotal 0#2 0#2 0#2 true true) s

/-- The idle word: START = 0, so no launch; it withdraws a strobe the engine has not latched (40_engine_ops.md R112). -/
def execIdleWord (x : Word) (a : Bool) (p : BitVec 2) (d l r : Sel) (s : State) : Result :=
  writeCtrl (cmdWord x p d l r false a) s

/-- A command word with PART = 0: reserved as a launch (30_encoding.md R86 (a)); where START was 1 already there is no
launch and nothing is decoded (R83). -/
def execReservedPart (x : Word) (a : Bool) (d l r : Sel) (s : State) : Result :=
  writeCtrl (cmdWord x cfg.partReserved d l r true a) s

/-- A command word with AUTO = 1 and a selector that is not zero: reserved as a launch (30_encoding.md R86 (b)). -/
def execReservedAuto (x : Word) (p : BitVec 2) (d l r : Sel) (s : State) : Result :=
  writeCtrl (cmdWord x p d l r true true) s

/-- EXPW: one entry of the exponent FIFO (30_encoding.md R88), appended by a write of the push port
(41_host_primitives.md R146). -/
def execExpw (e1 e0 : BitVec 16) (s : State) : Result := pushFifo (e1 ++ e0) s

/-- SLOT image: 48 words stored in a slot (30_encoding.md R91), ascending from the slot's base. -/
def execSlotImage (S : Slot) (img : List Word) (s : State) : Result :=
  if img.length = slotWords then writeWords img (slotBase S) s else .refused .imageShape

end Sys2Proof.Machine
end

