-- ==== Sys2Proof/Machine/Wrapper.lean ====
section
/-! DEFINITION. The protocol wrapper (spec 42_protocol_wrapper.md): each operation is the fixed sequence of host accesses its
rule gives, with the other agents' turns before each access. -/

namespace Sys2Proof.Machine

/-- The word the last bus read returned. -/
def retWord (s : State) : Word :=
  match s.ret with
  | .word v => v
  | _ => 0#32

/-- What the last channel read returned. -/
def retCount (s : State) : Option Word :=
  match s.ret with
  | .count c => c
  | _ => none

/-! ### Codec (R174, R175) -/

/-- `WRS S, w, v` (R174): the 48 words of the image, ascending from the slot's base. -/
def wrs (S : Slot) (w : Width) (v : Nat) (s : State) : Result :=
  andThen (writeWords (slotImageOf v w) (slotBase S) s) returnDone

/-- The offset `RDS` reads from (R175): the slot's base, or for High the base plus HIGH_OFF. -/
def readBase (S : Slot) : Width → Nat
  | .low => slotBase S
  | .high => slotBase S + cfg.highOff
  | .total => slotBase S

/-- Reading `k` words from an offset on, after the words read so far. -/
def readWords : Nat → Nat → List Word → State → Result
  | 0, _, acc, s => .next { s with ret := .value acc }
  | k + 1, a, acc, s =>
    andThen (turn (readData a) s) (fun s1 => readWords k (a + cfg.stride) (acc ++ [retWord s1]) s1)

/-- `RDS S, w` (R175). -/
def rds (S : Slot) (w : Width) (s : State) : Result := readWords (cntOf w) (readBase S w) [] s

/-! ### Sequencer (R180, R181) -/

/-- The four accesses of a launch (R180): read CTRL, write `word1`, the settle delay, write `word2`. -/
def strobe (word1 : Word → Word) (s : State) : Result :=
  turn (fun s0 => andThen (readCtrl s0) (runAll
    [turn (writeCtrl (word1 s0.ctrl)), settleDelay, turn (writeCtrl (word2 (word1 s0.ctrl))), returnDone])) s

/-- `startSingle(w, d, l, r)` (R180). -/
def startSingleOp (w : Width) (d l r : Sel) (s : State) : Result := strobe (fun old => singleWord1 old w d l r) s

/-- `startAuto(w)` (R181). -/
def startAutoOp (w : Width) (s : State) : Result := strobe (fun old => autoWord1 old w) s

/-! ### Exponent streamer (R185, R186) -/

/-- Pushing words to the FIFO port, the other agents' turns before each. -/
def pushWords : List Word → State → Result
  | [], s => .next s
  | v :: vs, s => andThen (turn (pushFifo v) s) (pushWords vs)

/-- `push(e0, e1_or_absent, t)` (R185): the length is checked before any write; an absent `e1` is 0 (30_encoding.md R90). -/
def pushExponent (e0 : Nat) (e1 : Option Nat) (t : Nat) (s : State) : Result :=
  if t % 32 ≠ 0 then raise .invalidExponentLength s
  else andThen (pushWords (expStream e0 (e1.getD 0) (t / 32)) s) returnDone

/-! ### Completion waiter (R190) -/

/-- The deadline passed: a warning is logged and the session is desynchronised (R190; 60_exceptions.md R231 E4). -/
def timedOut (s : State) : State :=
  { s with log := s.log ++ [.completionTimeout], sess := { s.sess with desync := true } }

/-- The end of a wait (R190; the analogue of a return from interrupt, 60_exceptions.md R243): re-arm, store the last count
observed, if any, return normally. -/
def endWait (observed : Option Word) (s : State) : Result :=
  andThen (turn armChannel s) (fun s1 =>
    .next { s1 with sess := { s1.sess with lastCount := observed.getD s1.sess.lastCount }, ret := .done })

/-- The loop of R190. One wait reads the channel at most three times: a count not yet given, one delivery (a delivery
disarms the channel and only the wait's end re-arms it, 60_exceptions.md R234), and the deadline. -/
def waitLoop : Nat → Option Word → State → Result
  | 0, observed, s => endWait observed (timedOut s)
  | k + 1, observed, s =>
    andThen (readChannel s) (fun s1 =>
      match retCount s1 with
      | none => endWait observed (timedOut s1)
      | some c => if s1.sess.lastCount < c then endWait (some c) s1 else waitLoop k (some c) s1)

/-- `wait()` (R190). -/
def waitOp (s : State) : Result := waitLoop 3 none s

/-! ### Modulus manager (R196) -/

/-- What updateModulus writes to the session (R196). -/
def setModulus (m n : Nat) (w : Width) (s : State) : State :=
  { s with sess := { s.sess with width := some w, n := some n, words := some (n / 32), r2 := r2Words m n w } }

/-- `updateModulus(m, n)` (R196). -/
def updateModulus (m n : Nat) (s : State) : Result :=
  match widthOfBits n with
  | none => raise .unsupportedWidth s
  | some w => wrs .mod w m (setModulus m n w s)

/-! ### Session (R170, R171) -/

/-- The session fields open writes last (R170). -/
def openedSession (ss : Session) : Session :=
  { ss with isOpen := true, lastCount := 0#32, width := none, n := none, words := none, desync := false }

/-- `open()` (R170): its precondition, then the mappings, whose failure the environment decides, then the two masks and the
arming, then the session. -/
def openOp (s : State) : Result :=
  if s.sess.isOpen then .refused .sessionAlreadyOpen
  else if s.mapFails.headD false then raise .initializationError { s with mapFails := s.mapFails.tail }
  else
    andThen (runAll [turn (writeIer cfg.ierMask), turn (writeGie cfg.gieMask), turn armChannel]
        { s with mapFails := s.mapFails.tail, chanSeen := s.irqCount })
      (fun s1 => .next { s1 with sess := openedSession s1.sess, ret := .done })

/-- `close()` (R171; from any state, R198): no bus access, no error. -/
def closeOp (s : State) : Result := .next { s with sess := { s.sess with isOpen := false }, ret := .done }

/-! ### The rows -/

/-- OPEN (R170). -/
def execOpenSession (s : State) : Result := openOp s

/-- CLOSE (R171). -/
def execCloseSession (s : State) : Result := closeOp s

/-- WRS S, w, v (R174). -/
def execWrs (S : Slot) (w : Width) (v : Nat) (s : State) : Result := wrs S w v s

/-- RDS S, w (R175). -/
def execRds (S : Slot) (w : Width) (s : State) : Result := rds S w s

/-- MMUL.w d, l, r as a call: startSingle (R180). -/
def execStartSingle (w : Width) (d l r : Sel) (s : State) : Result := startSingleOp w d l r s

/-- AUTO.w as a call: startAuto (R181). -/
def execStartAuto (w : Width) (s : State) : Result := startAutoOp w s

/-- PUSHE e0, e1|-, t (R185). -/
def execPushe (e0 : Nat) (e1 : Option Nat) (t : Nat) (s : State) : Result := pushExponent e0 e1 t s

/-- WAIT (R190). -/
def execWait (s : State) : Result := waitOp s

/-- UPDMOD m, n (R196). -/
def execUpdmod (m n : Nat) (s : State) : Result := updateModulus m n s

end Sys2Proof.Machine
end

