-- ==== Sys2Proof/Machine/Algorithm.lean ====
section
/-! DEFINITION. The three algorithms (spec 43_algorithms.md): fixed sequences of wrapper operations, each in an ambient and
an explicit-modulus form (R218). -/

namespace Sys2Proof.Machine

/-- A round (R219): one single operation, then one wait. -/
def singleRound (w : Width) (d l r : Sel) : State → Result := runAll [startSingleOp w d l r, waitOp]

/-- A round (R219): one auto-run, then one wait. -/
def autoRound (w : Width) : State → Result := runAll [startAutoOp w, waitOp]

/-- Multiply (R212), with the width and R² it runs with. -/
def mulSeq (w : Width) (r2 x y : Nat) : State → Result :=
  runAll [wrs (.op 1#2) w x, wrs (.op 2#2) w y, wrs (.op 3#2) w r2,
    singleRound w 0#2 1#2 2#2, singleRound w 0#2 0#2 3#2, rds (.op 0#2) w]

/-- Exponentiate (R214), after its length check. -/
def expSeq (w : Width) (r2 g e t : Nat) : State → Result :=
  runAll [wrs (.op 1#2) w g, wrs (.op 3#2) w r2, wrs (.op 2#2) w 1,
    singleRound w 1#2 1#2 3#2, singleRound w 0#2 2#2 3#2,
    pushExponent e none t, autoRound w,
    singleRound w 0#2 0#2 2#2, rds (.op 0#2) w]

/-- Simultaneous dual-base exponentiate (R216), after its length check. -/
def dexpSeq (w : Width) (r2 g0 e0 g1 e1 t : Nat) : State → Result :=
  runAll [wrs (.op 0#2) w 1, wrs (.op 1#2) w g0, wrs (.op 2#2) w g1, wrs (.op 3#2) w r2,
    singleRound w 1#2 1#2 3#2, singleRound w 2#2 2#2 3#2, singleRound w 0#2 0#2 3#2, singleRound w 3#2 1#2 2#2,
    pushExponent e0 (some e1) t, autoRound w,
    wrs (.op 1#2) w 1, singleRound w 0#2 0#2 1#2, rds (.op 0#2) w]

/-- The ambient form (R210): width and R² from the session. -/
def ambient (seq : Width → Nat → State → Result) (s : State) : Result :=
  match s.sess.width with
  | none => .refused .noAmbientModulus
  | some w => seq w (valueOf (s.sess.r2.take (cntOf w))) s

/-- The explicit form (R218) once its checks are passed: the modulus slot is written, the session is not. -/
def withModulus (m n : Nat) (w : Width) (seq : Width → Nat → State → Result) (s : State) : Result :=
  andThen (wrs .mod w m s) (seq w (r2Of m n))

/-- MUL x, y [, m, n] (R212, R218). -/
def execMul (x y : Nat) (mn : Option (Nat × Nat)) (s : State) : Result :=
  match mn with
  | none => ambient (fun w r2 => mulSeq w r2 x y) s
  | some (m, n) =>
    match widthOfBits n with
    | none => raise .unsupportedWidth s
    | some w => withModulus m n w (fun w r2 => mulSeq w r2 x y) s

/-- EXP g, e, t [, m, n] (R214, R218): the width is checked before the exponent length (60_exceptions.md R241), both before
any hardware access. -/
def execExp (g e t : Nat) (mn : Option (Nat × Nat)) (s : State) : Result :=
  match mn with
  | none => if t % 32 ≠ 0 then raise .invalidExponentLength s else ambient (fun w r2 => expSeq w r2 g e t) s
  | some (m, n) =>
    match widthOfBits n with
    | none => raise .unsupportedWidth s
    | some w =>
      if t % 32 ≠ 0 then raise .invalidExponentLength s
      else withModulus m n w (fun w r2 => expSeq w r2 g e t) s

/-- DEXP g0, e0, g1, e1, t [, m, n] (R216, R218), with the checks of EXP. -/
def execDexp (g0 e0 g1 e1 t : Nat) (mn : Option (Nat × Nat)) (s : State) : Result :=
  match mn with
  | none => if t % 32 ≠ 0 then raise .invalidExponentLength s else ambient (fun w r2 => dexpSeq w r2 g0 e0 g1 e1 t) s
  | some (m, n) =>
    match widthOfBits n with
    | none => raise .unsupportedWidth s
    | some w =>
      if t % 32 ≠ 0 then raise .invalidExponentLength s
      else withModulus m n w (fun w r2 => dexpSeq w r2 g0 e0 g1 e1 t) s

end Sys2Proof.Machine
end

