-- ==== Sys2Proof/Machine/Bus.lean ====
section
/-! DEFINITION. The meanings of the host's bus accesses: slot words, the exponent FIFO port and the control-space registers
(spec 20_memory.md R56, R57, R66; 41_host_primitives.md R141 to R149). -/

namespace Sys2Proof.Machine

/-- `R MOD[i]` (20_memory.md R56, R66). -/
def execRMod (i : BitVec 6) (s : State) : Result := readSlot .mod i s

/-- `W MOD[i], v` (20_memory.md R57, R66). -/
def execWMod (i : BitVec 6) (v : Word) (s : State) : Result := writeSlot .mod i v s

/-- `R OP0[i]` (20_memory.md R56, R66). -/
def execROp0 (i : BitVec 6) (s : State) : Result := readSlot (.op 0#2) i s

/-- `W OP0[i], v` (20_memory.md R57, R66). -/
def execWOp0 (i : BitVec 6) (v : Word) (s : State) : Result := writeSlot (.op 0#2) i v s

/-- `R OP1[i]` (20_memory.md R56, R66). -/
def execROp1 (i : BitVec 6) (s : State) : Result := readSlot (.op 1#2) i s

/-- `W OP1[i], v` (20_memory.md R57, R66). -/
def execWOp1 (i : BitVec 6) (v : Word) (s : State) : Result := writeSlot (.op 1#2) i v s

/-- `R OP2[i]` (20_memory.md R56, R66). -/
def execROp2 (i : BitVec 6) (s : State) : Result := readSlot (.op 2#2) i s

/-- `W OP2[i], v` (20_memory.md R57, R66). -/
def execWOp2 (i : BitVec 6) (v : Word) (s : State) : Result := writeSlot (.op 2#2) i v s

/-- `R OP3[i]` (20_memory.md R56, R66). -/
def execROp3 (i : BitVec 6) (s : State) : Result := readSlot (.op 3#2) i s

/-- `W OP3[i], v` (20_memory.md R57, R66). -/
def execWOp3 (i : BitVec 6) (v : Word) (s : State) : Result := writeSlot (.op 3#2) i v s

/-- `W FIFO, v` (41_host_primitives.md R146). -/
def execWFifo (v : Word) (s : State) : Result := pushFifo v s

/-- `R FIFO`: "the model gives the read no meaning" (41_host_primitives.md R147). -/
def execRFifo (_s : State) : Result := .refused .fifoRead

/-- `R CTRL` (41_host_primitives.md R141). -/
def execRCtrl (s : State) : Result := readCtrl s

/-- `W CTRL, v` (41_host_primitives.md R142). -/
def execWCtrl (v : Word) (s : State) : Result := writeCtrl v s

/-- `R GIE` (41_host_primitives.md R149). -/
def execRGie (s : State) : Result := .next { s with ret := .word s.gie }

/-- `W GIE, v` (41_host_primitives.md R148). -/
def execWGie (v : Word) (s : State) : Result := writeGie v s

/-- `R IER` (41_host_primitives.md R149). -/
def execRIer (s : State) : Result := .next { s with ret := .word s.ier }

/-- `W IER, v` (41_host_primitives.md R148). -/
def execWIer (v : Word) (s : State) : Result := writeIer v s

end Sys2Proof.Machine
end

