-- ==== Sys2Proof/Machine/Channel.lean ====
section
/-! DEFINITION. The meanings of the notification channel's two accesses and of the settle delay (spec 60_exceptions.md R237,
R238; 41_host_primitives.md R150). -/

namespace Sys2Proof.Machine

/-- `ARM` (60_exceptions.md R237). -/
def execArm (s : State) : Result := armChannel s

/-- `CNT` (60_exceptions.md R238). -/
def execCnt (s : State) : Result := readChannel s

/-- `DELAY` (41_host_primitives.md R150). -/
def execDelay (s : State) : Result := settleDelay s

end Sys2Proof.Machine
end

