-- ==== Sys2Proof/Machine/Dispatch.lean ====
section
/-! DEFINITION. The meaning of each instruction, one arm for each constructor. -/

namespace Sys2Proof.Machine

def exec (i : Instr) (s : State) : Host.Outcome State Fault Refusal :=
  match i with
  | .mmulL x d l r => Sys2Proof.Machine.execMmulL x d l r s
  | .mmulH x d l r => Sys2Proof.Machine.execMmulH x d l r s
  | .mmulT x d l r => Sys2Proof.Machine.execMmulT x d l r s
  | .autoL x => Sys2Proof.Machine.execAutoL x s
  | .autoH x => Sys2Proof.Machine.execAutoH x s
  | .autoT x => Sys2Proof.Machine.execAutoT x s
  | .idleWord x a p d l r => Sys2Proof.Machine.execIdleWord x a p d l r s
  | .reservedPart x a d l r => Sys2Proof.Machine.execReservedPart x a d l r s
  | .reservedAuto x p d l r => Sys2Proof.Machine.execReservedAuto x p d l r s
  | .expw e1 e0 => Sys2Proof.Machine.execExpw e1 e0 s
  | .slotImage S img => Sys2Proof.Machine.execSlotImage S img s
  | .rMod k => Sys2Proof.Machine.execRMod k s
  | .wMod k v => Sys2Proof.Machine.execWMod k v s
  | .rOp0 k => Sys2Proof.Machine.execROp0 k s
  | .wOp0 k v => Sys2Proof.Machine.execWOp0 k v s
  | .rOp1 k => Sys2Proof.Machine.execROp1 k s
  | .wOp1 k v => Sys2Proof.Machine.execWOp1 k v s
  | .rOp2 k => Sys2Proof.Machine.execROp2 k s
  | .wOp2 k v => Sys2Proof.Machine.execWOp2 k v s
  | .rOp3 k => Sys2Proof.Machine.execROp3 k s
  | .wOp3 k v => Sys2Proof.Machine.execWOp3 k v s
  | .wFifo v => Sys2Proof.Machine.execWFifo v s
  | .rFifo => Sys2Proof.Machine.execRFifo s
  | .rCtrl => Sys2Proof.Machine.execRCtrl s
  | .wCtrl v => Sys2Proof.Machine.execWCtrl v s
  | .rGie => Sys2Proof.Machine.execRGie s
  | .wGie v => Sys2Proof.Machine.execWGie v s
  | .rIer => Sys2Proof.Machine.execRIer s
  | .wIer v => Sys2Proof.Machine.execWIer v s
  | .arm => Sys2Proof.Machine.execArm s
  | .cnt => Sys2Proof.Machine.execCnt s
  | .delay => Sys2Proof.Machine.execDelay s
  | .openSession => Sys2Proof.Machine.execOpenSession s
  | .closeSession => Sys2Proof.Machine.execCloseSession s
  | .wrs S w v => Sys2Proof.Machine.execWrs S w v s
  | .rds S w => Sys2Proof.Machine.execRds S w s
  | .startSingle w d l r => Sys2Proof.Machine.execStartSingle w d l r s
  | .startAuto w => Sys2Proof.Machine.execStartAuto w s
  | .pushe e0 e1 t => Sys2Proof.Machine.execPushe e0 e1 t s
  | .wait => Sys2Proof.Machine.execWait s
  | .updmod m n => Sys2Proof.Machine.execUpdmod m n s
  | .mul x y mn => Sys2Proof.Machine.execMul x y mn s
  | .exp g e t mn => Sys2Proof.Machine.execExp g e t mn s
  | .dexp g0 e0 g1 e1 t mn => Sys2Proof.Machine.execDexp g0 e0 g1 e1 t mn s

end Sys2Proof.Machine
end

