-- ==== Sys2Proof/Machine/Step.lean ====
section
/-! DEFINITION. One step of the system: the agent whose turn it is acts; the host fetches its next request, decodes it and
runs it (spec 00_scope.md R6; 10_state.md R30: there is no program memory and no fetch, so the host's requests stand in
State, log entry 2). -/

namespace Sys2Proof.Machine

/-- The refusal of a request that decodes to no instruction. -/
def refusalOf : DecodeError → Refusal
  | .accessShape => .accessShape
  | .unmappedOffset => .unmappedOffset
  | .channelShape => .channelShape
  | .imageShape => .imageShape
  | .notACall => .notACall

/-- The host has nothing more to do: each step of the other agents that is enabled happens (70_reset_and_hazards.md R290),
and after the end of the run (R292) nothing changes. -/
def freeRun (s : State) : Result := if s.eng = .idle then .next (irqStep s) else engineStep s

/-- The host's turn: fetch, decode, run. -/
def hostStep (s : State) : Result :=
  match s.prog with
  | [] => freeRun s
  | q :: rest =>
    match decode q with
    | .ok i => exec i { s with prog := rest }
    | .error e => .refused (refusalOf e)

/-- One step: the schedule says whose turn it is, and where it says no more it is the host's. -/
def step (s : State) : Host.Outcome State Fault Refusal :=
  match s.sched with
  | [] => hostStep s
  | .host :: ts => hostStep { s with sched := ts }
  | .timeout :: ts => .next { s with sched := ts }
  | .engine :: ts => engineStep { s with sched := ts }
  | .irq :: ts => .next (irqStep { s with sched := ts })

/-- `s` with the request of an opcode-table word as the host's only one, and the host's turn next (log entry 2). -/
def State.withFetchWord (s : State) (nbits w : Nat) : State :=
  { s with prog := (tableRequest nbits w).toList, sched := [] }

end Sys2Proof.Machine
end

