-- ==== Sys2Proof/Safety.lean ====
section
/-! DEFINITION. The terms statements are made in: what an operation answered, the invariant of the machine, the protocol's
READY state, and the premises a run of the protocol takes (spec 42_protocol_wrapper.md R198; 60_exceptions.md R253). -/

namespace Sys2Proof.Machine

/-- The next state an operation answered, if it did. -/
def nextOf (r : Result) : Option State :=
  match r with
  | .next s => some s
  | .fault _ => none
  | .refused _ => none

/-- The refusal an operation answered, if it did. -/
def refusalBy (r : Result) : Option Refusal :=
  match r with
  | .next _ => none
  | .fault _ => none
  | .refused e => some e

/-- A cell's word, the multiple of 4 at or below its offset, is a word of a slot, and has all its four bytes: a location
is one 32-bit number, present or absent as a whole (20_memory.md R53, R55, R58). -/
def cellOk (m : Memory) (c : Host.Cell) : Prop :=
  (locate (c.1 - c.1 % 4)).isSome = true ∧ (getWord m (c.1 - c.1 % 4)).isSome = true

/-- The storage holds whole words of slots only. -/
def MemOk (m : Memory) : Prop := ∀ c ∈ m, cellOk m c

/-- The session's width, bit length and word count belong together (10_state.md R33). -/
def sessOk (ss : Session) : Prop :=
  ss.r2.length = slotWords ∧
  match ss.width with
  | none => ss.n = none ∧ ss.words = none
  | some w => ss.n = some (bitsOf w) ∧ ss.words = some (cntOf w)

/-- An operation that is latched or running is the one CTRL still spells, and before the latch START is still 1
(40_engine_ops.md R112, R113). -/
def engineOk (s : State) : Prop :=
  match s.eng with
  | .idle => True
  | .latching c => fieldStart s.ctrl = true ∧ decodeCmd s.ctrl = some c
  | .busyMmul w d l r => decodeCmd s.ctrl = some (.mmul w d l r)
  | .busyAuto w => decodeCmd s.ctrl = some (.auto w)

/-- The invariant of the machine: the storage is in its canonical form and holds whole words of slots only, the FIFO is
within its capacity, the session's fields belong together, and CTRL spells the operation in flight. -/
structure Inv (s : State) : Prop where
  memWf : s.mem.wf = true
  memOk : MemOk s.mem
  fifoOk : s.fifo.length ≤ Config.fifoDepth
  sessOk : sessOk s.sess
  engineOk : engineOk s

/-- The premise `NoTimeout` (60_exceptions.md R253): the schedule lets no deadline pass, so that a channel read gives no
count only where no `latch`, `complete` or `deliver` is left to come. -/
def NoTimeout (s : State) : Prop := Turn.timeout ∉ s.sched

/-- No step of the engine falls inside the operation: it is idle, or the schedule gives it no turn. -/
def EngineQuiet (s : State) : Prop := s.eng = .idle ∨ Turn.engine ∉ s.sched

/-- `t`'s interrupt path is `s`'s, or `s`'s after its one delivery (60_exceptions.md R234). -/
def IrqMoved (s t : State) : Prop :=
  (t.irqCount = s.irqCount ∧ t.irqPend = s.irqPend ∧ t.irqArmed = s.irqArmed) ∨
  (deliverEnabled s = true ∧ t.irqCount = s.irqCount + 1#32 ∧ t.irqPend = false ∧ t.irqArmed = false)

/-- `t` is `s` but for what the IRQ's turns inside an operation do: at most one delivery, and turns of the schedule used. -/
def UpToIrq (s t : State) : Prop :=
  IrqMoved s t ∧ t.sched <:+ s.sched ∧
  t = { s with irqCount := t.irqCount, irqPend := t.irqPend, irqArmed := t.irqArmed, sched := t.sched }

/-- The end of a run (70_reset_and_hazards.md R292): the host has nothing more to do, the engine is idle, nothing is
deliverable. -/
def Ended (s : State) : Prop :=
  s.prog = [] ∧ s.sched = [] ∧ s.eng = .idle ∧ deliverEnabled s = false

/-- The protocol's READY state (42_protocol_wrapper.md R198): its invariant, with the session open, delivery enabled and
START 0 (43_algorithms.md R210; 70_reset_and_hazards.md R273). -/
structure Ready (s : State) : Prop where
  isOpen : s.sess.isOpen = true
  synced : s.sess.desync = false
  idle : s.eng = .idle
  noPend : s.irqPend = false
  armed : s.irqArmed = true
  enabled : irqEnabled s = true
  seen : s.irqCount = s.chanSeen
  last : s.sess.lastCount ≤ s.irqCount
  start0 : fieldStart s.ctrl = false

/-- Two command words hold the same five command fields other than START (40_engine_ops.md R113). -/
def SameFields (v w : Word) : Prop :=
  fieldPart v = fieldPart w ∧ fieldDst v = fieldDst w ∧ fieldLeft v = fieldLeft w ∧ fieldRight v = fieldRight w ∧
  fieldAuto v = fieldAuto w

/-- Word `i` of a slot is outside the active region of width `w` (10_state.md R23). -/
def Inactive (w : Width) (i : Nat) : Prop := i < slotWords ∧ (i < loOf w ∨ loOf w + cntOf w ≤ i)

/-- The slot holds the number `v` at width `w` as the codec stores it: every inactive word is 0 (30_encoding.md R91). -/
def SlotHolds (m : Memory) (S : Slot) (w : Width) (v : Nat) : Prop :=
  regionVal m S w = some v ∧ ∀ i, Inactive w i → slotWord m S i = some 0#32

/-- The slot holds the number `v` at width `w` as an operation leaves it: no inactive word has a value
(40_engine_ops.md R114, R115). -/
def SlotResult (m : Memory) (S : Slot) (w : Width) (v : Nat) : Prop :=
  regionVal m S w = some v ∧ ∀ i, Inactive w i → slotWord m S i = none

/-- A byte offset outside the 48 words of slot `S` (20_memory.md R59). -/
def OutsideSlot (S : Slot) (a : Nat) : Prop := a < slotBase S ∨ slotBase S + slotWords * cfg.stride ≤ a

/-- Every byte outside slot `S` reads in `m'` as in `m`. -/
def OnlySlot (S : Slot) (m m' : Memory) : Prop := ∀ a, OutsideSlot S a → getByte m' a = getByte m a

/-- Every byte outside the four operand slots reads in `m'` as in `m`. -/
def OnlyOperands (m m' : Memory) : Prop := ∀ a, (∀ k : Sel, OutsideSlot (.op k) a) → getByte m' a = getByte m a

/-- Every byte outside the five slots reads in `m'` as in `m`. -/
def OnlySlots (m m' : Memory) : Prop := ∀ a, (∀ S : Slot, OutsideSlot S a) → getByte m' a = getByte m a

/-- The multiplicand slot that the pair bit consumed as number `j` selects, the FIFO holding `q`: sixteen pair bits a word, the
head word first, bit 15 of each half first (30_encoding.md R88; 40_engine_ops.md R120, R122). -/
def pairSlot (q : List Word) (j : Nat) : Option Slot :=
  tabSlot ((q.getD (j / 16) 0#32).getLsbD (31 - j % 16)) ((q.getD (j / 16) 0#32).getLsbD (15 - j % 16))

/-- A multiplicand the auto-run can use: it has a value, below the modulus (40_engine_ops.md R120, R123). -/
def MultiplicandOk (mem : Memory) (w : Width) (m : Nat) (S : Slot) : Prop := ∃ T, regionVal mem S w = some T ∧ T < m

/-- The operands of a single operation are in the domain of the Montgomery product (40_engine_ops.md R110, R117). -/
def MmulDomain (s : State) (w : Width) (l r : Sel) (m a b : Nat) : Prop :=
  regionVal s.mem .mod w = some m ∧ regionVal s.mem (.op l) w = some a ∧ regionVal s.mem (.op r) w = some b ∧
  m % 2 = 1 ∧ a < m ∧ b < m

end Sys2Proof.Machine
end

