-- ==== Sys2Proof/Certificates/Slice0/Obligations.lean ====
section
/-! DEFINITION. The statements for the provers. Each docstring names the rule of spec/ a statement formalises, or says what
of it is the model's choice and which log entry holds it. -/

open Sys2Proof Sys2Proof.Machine

/-! ### Decoding and stepping -/

/-- A step fetches the host's next request, decodes it and runs it: `prog` loses the request, and the schedule the host's
turn if it named one. The request list is the model's (log entry 2), the schedule too (log entry 5). -/
def Obligations.StepRunsDecoded : Prop :=
  ∀ (s : State) (q : Request) (rest : List Request) (i : Instr),
    s.prog = q :: rest → decode q = .ok i → i.wf = true →
    (s.sched = [] → step s = exec i { s with prog := rest }) ∧
    (∀ ts, s.sched = .host :: ts → step s = exec i { s with prog := rest, sched := ts })

/-- The turns of the other two agents (00_scope.md R6), and what happens once the host has no request left
(70_reset_and_hazards.md R290, R292). The schedule is the model's (log entry 5). -/
def Obligations.StepOfOtherAgents : Prop :=
  (∀ (s : State) ts, s.sched = .engine :: ts → step s = engineStep { s with sched := ts }) ∧
  (∀ (s : State) ts, s.sched = .irq :: ts → step s = .next (irqStep { s with sched := ts })) ∧
  (∀ (s : State) ts, s.sched = .timeout :: ts → step s = .next { s with sched := ts }) ∧
  (∀ s : State, s.prog = [] → s.sched = [] → s.eng ≠ .idle → step s = engineStep s) ∧
  (∀ s : State, s.prog = [] → s.sched = [] → s.eng = .idle → step s = .next (irqStep s)) ∧
  (∀ s : State, Ended s → step s = .next s)

/-- 20_memory.md R52: a bus access that is not 4 bytes at a multiple of 4 is `refuse(access shape)`, in both spaces, reads and
writes. -/
def Obligations.BadShapesRefused : Prop :=
  ∀ (s : State) (sp : Space) (off v : Word) (n : Nat) (rest : List Request), s.sched = [] →
    (n ≠ 4 ∨ off.toNat % 4 ≠ 0) →
      (s.prog = .memRead sp off n :: rest → step s = .refused .accessShape) ∧
      (s.prog = .memWrite sp off n v :: rest → step s = .refused .accessShape)

/-- 20_memory.md R58, with the spec's default offsets, which are its own choice (log entry 13): an aligned word access where
the two maps have nothing is `refuse(unmapped offset)`. -/
def Obligations.UnmappedOffsetsRefused : Prop :=
  ∀ (s : State) (off v : Word) (rest : List Request), s.sched = [] → off.toNat % 4 = 0 →
    (((off.toNat < 0x5000 ∧ 0xC0 ≤ off.toNat % 0x1000) ∨ 0x5000 < off.toNat) →
      (s.prog = .memRead .data off 4 :: rest → step s = .refused .unmappedOffset) ∧
      (s.prog = .memWrite .data off 4 v :: rest → step s = .refused .unmappedOffset)) ∧
    (off.toNat ≠ 0 → off.toNat ≠ 0x11C → off.toNat ≠ 0x128 →
      (s.prog = .memRead .ctrl off 4 :: rest → step s = .refused .unmappedOffset) ∧
      (s.prog = .memWrite .ctrl off 4 v :: rest → step s = .refused .unmappedOffset))

/-- Decoding what the encoder writes gives the instruction back, for every well-formed instruction. -/
def Obligations.DecodeEncode : Prop := ∀ i : Instr, i.wf = true → decode (encode i) = .ok i

/-- The other direction: what decodes is well-formed, and it encodes to the request it came from, so no bit of a request is
dropped. -/
def Obligations.EncodeDecode : Prop := ∀ (q : Request) (i : Instr), decode q = .ok i → i.wf = true ∧ encode i = q

/-- Worked encodings of 30_encoding.md R98 and 95_test_vectors.md V1 to V10, written as numbers. -/
def Obligations.SampleWords : Prop :=
  decode (.cmd 0x191#32) = .ok (.mmulL 0#32 0#2 1#2 2#2) ∧
  decode (.cmd 0x19E#32) = .ok (.mmulH 0#32 3#2 1#2 2#2) ∧
  decode (.cmd 0x1FF#32) = .ok (.mmulT 0#32 3#2 3#2 3#2) ∧
  decode (.cmd 0x301#32) = .ok (.autoL 0#32) ∧
  decode (.cmd 0x303#32) = .ok (.autoT 0#32) ∧
  decode (.cmd 0x091#32) = .ok (.idleWord 0#32 false 1#2 0#2 1#2 2#2) ∧
  decode (.cmd 0xABCD0141#32) = .ok (.mmulL 0xABCD0000#32 0#2 0#2 1#2) ∧
  decode (.expw 0xFFFF0001#32) = .ok (.expw 0xFFFF#16 0x0001#16) ∧
  decode (.memRead .data 0x3040#32 4) = .ok (.rOp2 16#6) ∧
  decode (.memWrite .data 0x5000#32 4 0x8000#32) = .ok (.wFifo 0x8000#32)

/-- 30_encoding.md R93, bit by bit, with the default positions: `word1` has each field where the layout puts it and the old
word's bits 31 to 10; `word2` differs from it in START alone. -/
def Obligations.AssembledWords : Prop :=
  ∀ (old : Word) (w : Width) (d l r : Sel),
    (∀ j, 10 ≤ j → j < 32 → (singleWord1 old w d l r).getLsbD j = old.getLsbD j) ∧
    (singleWord1 old w d l r).extractLsb' 0 2 = codeOfWidth w ∧ (singleWord1 old w d l r).extractLsb' 2 2 = d ∧
    (singleWord1 old w d l r).extractLsb' 4 2 = l ∧ (singleWord1 old w d l r).extractLsb' 6 2 = r ∧
    (singleWord1 old w d l r).getLsbD 8 = true ∧ (singleWord1 old w d l r).getLsbD 9 = false ∧
    (∀ j, 10 ≤ j → j < 32 → (autoWord1 old w).getLsbD j = old.getLsbD j) ∧
    (autoWord1 old w).extractLsb' 0 2 = codeOfWidth w ∧ (autoWord1 old w).extractLsb' 2 6 = 0#6 ∧
    (autoWord1 old w).getLsbD 8 = true ∧ (autoWord1 old w).getLsbD 9 = true ∧
    (∀ v j, (word2 v).getLsbD j = if j = 8 then false else v.getLsbD j)

/-! ### Reset and invariants -/

/-- 10_state.md R45, the values the spec gives. (`irq_count`, `chan_seen`, `sess.r2` are unspecified there and zero here:
log entry 12; nothing is stated of them.) -/
def Obligations.ResetValues : Prop :=
  (∀ S i, slotWord State.reset.mem S i = none) ∧ State.reset.fifo = [] ∧ State.reset.ctrl = 0#32 ∧
  State.reset.ier = 0#32 ∧ State.reset.gie = 0#32 ∧ irqEnabled State.reset = false ∧ State.reset.eng = .idle ∧
  State.reset.irqPend = false ∧ State.reset.irqArmed = false ∧ State.reset.sess.isOpen = false ∧
  State.reset.sess.width = none ∧ State.reset.sess.n = none ∧ State.reset.sess.words = none ∧
  State.reset.sess.desync = false

/-- Every step keeps the invariant of the machine: canonical storage of whole slot words, the FIFO within its capacity, the
session's fields consistent, CTRL still spelling the operation in flight. -/
def Obligations.StepKeepsInv : Prop := ∀ s t : State, Inv s → step s = .next t → Inv t

/-- The invariant holds after reset. -/
def Obligations.ResetInv : Prop := Inv State.reset

/-- 10_state.md R33: the session's width, bit length, word count and R² are "mutated only by `updateModulus`" (and cleared by
open), so the explicit-modulus algorithms leave them (43_algorithms.md R218). -/
def Obligations.SessionFieldsFrame : Prop :=
  ∀ (i : Instr) (s t : State), i ≠ .openSession → (∀ m n, i ≠ .updmod m n) → exec i s = .next t →
    t.sess.width = s.sess.width ∧ t.sess.n = s.sess.n ∧ t.sess.words = s.sess.words ∧ t.sess.r2 = s.sess.r2

/-- Only W IER, W GIE and open write the two interrupt-enable registers (10_state.md R28, 20_memory.md R61). -/
def Obligations.InterruptEnablesFrame : Prop :=
  ∀ (i : Instr) (s t : State), i ≠ .openSession → exec i s = .next t →
    ((∀ v, i ≠ .wIer v) → t.ier = s.ier) ∧ ((∀ v, i ≠ .wGie v) → t.gie = s.gie)

/-- 70_reset_and_hazards.md R284: `sess.desync` is sticky; of all instructions only open clears it (42_protocol_wrapper.md
R170), and no instruction's waits clear it. -/
def Obligations.DesyncIsSticky : Prop :=
  ∀ (i : Instr) (s t : State), i ≠ .openSession → s.sess.desync = true → exec i s = .next t → t.sess.desync = true

/-- 10_state.md R22, R27, R29: no step of the engine writes the modulus slot, CTRL, IER, GIE, the interrupt count, the
arming, the channel's memory, or the session; and the IRQ's step writes nothing but the interrupt path. -/
def Obligations.AgentsLeaveAlone : Prop :=
  (∀ s t : State, engineStep s = .next t →
    t = { s with mem := t.mem, fifo := t.fifo, eng := t.eng, irqPend := t.irqPend } ∧
    OnlyOperands s.mem t.mem) ∧
  (∀ s : State, ∃ c p a, irqStep s = { s with irqCount := c, irqPend := p, irqArmed := a })

/-! ### Command words -/

/-- 40_engine_ops.md R112: the launch word of a single operation, written while the engine is idle and START is 0, stores the
word and begins the latching of that operation; nothing else changes. -/
def Obligations.MmulLaunches : Prop :=
  ∀ (s : State) (x : Word) (d l r : Sel), s.eng = .idle → fieldStart s.ctrl = false →
    exec (.mmulL x d l r) s =
      .next { s with ctrl := cmdWord x cfg.partLow d l r true false, eng := .latching (.mmul .low d l r) } ∧
    exec (.mmulH x d l r) s =
      .next { s with ctrl := cmdWord x cfg.partHigh d l r true false, eng := .latching (.mmul .high d l r) } ∧
    exec (.mmulT x d l r) s =
      .next { s with ctrl := cmdWord x cfg.partTotal d l r true false, eng := .latching (.mmul .total d l r) }

/-- 40_engine_ops.md R112: the launch word of an auto-run, likewise. -/
def Obligations.AutoLaunches : Prop :=
  ∀ (s : State) (x : Word), s.eng = .idle → fieldStart s.ctrl = false →
    exec (.autoL x) s =
      .next { s with ctrl := cmdWord x cfg.partLow 0#2 0#2 0#2 true true, eng := .latching (.auto .low) } ∧
    exec (.autoH x) s =
      .next { s with ctrl := cmdWord x cfg.partHigh 0#2 0#2 0#2 true true, eng := .latching (.auto .high) } ∧
    exec (.autoT x) s =
      .next { s with ctrl := cmdWord x cfg.partTotal 0#2 0#2 0#2 true true, eng := .latching (.auto .total) }

/-- The idle word (40_engine_ops.md R112, R113): stored while the engine is idle; it withdraws a strobe not yet latched; over
a running operation it changes CTRL alone. That the reserved bits may change in the same write is the model's reading (log
entry 15). -/
def Obligations.IdleWordWrites : Prop :=
  ∀ (s : State) (x : Word) (a : Bool) (p : BitVec 2) (d l r : Sel),
    (s.eng = .idle → exec (.idleWord x a p d l r) s = .next { s with ctrl := cmdWord x p d l r false a }) ∧
    (∀ c, s.eng = .latching c → fieldStart s.ctrl = true → SameFields (cmdWord x p d l r false a) s.ctrl →
      exec (.idleWord x a p d l r) s = .next { s with ctrl := cmdWord x p d l r false a, eng := .idle }) ∧
    (s.eng ≠ .idle → latching s = false → SameFields (cmdWord x p d l r false a) s.ctrl →
      exec (.idleWord x a p d l r) s = .next { s with ctrl := cmdWord x p d l r false a })

/-- 30_encoding.md R86: a reserved command word is refused as a launch; written where START is 1 already it launches nothing
and CTRL holds it (30_encoding.md R83, 40_engine_ops.md R112). -/
def Obligations.ReservedWords : Prop :=
  ∀ (s : State) (x : Word) (a : Bool) (p : BitVec 2) (d l r : Sel), s.eng = .idle →
    (fieldStart s.ctrl = false → exec (.reservedPart x a d l r) s = .refused .reservedCommand) ∧
    (fieldStart s.ctrl = false → (Instr.reservedAuto x p d l r).wf = true →
      exec (.reservedAuto x p d l r) s = .refused .reservedCommand) ∧
    (fieldStart s.ctrl = true →
      exec (.reservedPart x a d l r) s = .next { s with ctrl := cmdWord x cfg.partReserved d l r true a }) ∧
    (fieldStart s.ctrl = true →
      exec (.reservedAuto x p d l r) s = .next { s with ctrl := cmdWord x p d l r true true })

/-- 41_host_primitives.md R142, with 40_engine_ops.md R112 and R113, which are its definition: every case of a write of CTRL.
That the reserved bits may change in the write that clears START is the model's reading (log entry 15). -/
def Obligations.WriteCtrlCases : Prop :=
  ∀ (s : State) (v : Word),
    (∀ c, s.eng = .idle → fieldStart s.ctrl = false → fieldStart v = true → decodeCmd v = some c →
      exec (.wCtrl v) s = .next { s with ctrl := v, eng := .latching c }) ∧
    (s.eng = .idle → fieldStart s.ctrl = false → fieldStart v = true → decodeCmd v = none →
      exec (.wCtrl v) s = .refused .reservedCommand) ∧
    (s.eng = .idle → (fieldStart s.ctrl = true ∨ fieldStart v = false) →
      exec (.wCtrl v) s = .next { s with ctrl := v }) ∧
    (s.eng ≠ .idle → fieldStart s.ctrl = false → fieldStart v = true →
      exec (.wCtrl v) s = .refused .launchWhileBusy) ∧
    (s.eng ≠ .idle → (fieldStart s.ctrl = true ∨ fieldStart v = false) → ¬ SameFields v s.ctrl →
      exec (.wCtrl v) s = .refused .controlWriteWhileBusy) ∧
    (∀ c, s.eng = .latching c → fieldStart s.ctrl = true → fieldStart v = false → SameFields v s.ctrl →
      exec (.wCtrl v) s = .next { s with ctrl := v, eng := .idle }) ∧
    (s.eng ≠ .idle → fieldStart v = fieldStart s.ctrl → SameFields v s.ctrl →
      exec (.wCtrl v) s = .next { s with ctrl := v }) ∧
    (s.eng ≠ .idle → latching s = false → fieldStart s.ctrl = true → fieldStart v = false → SameFields v s.ctrl →
      exec (.wCtrl v) s = .next { s with ctrl := v })

/-- Which launch words spell which command (30_encoding.md R83, R85), over the fields at their default positions: PART at
bits 1:0, the selectors at bits 7:2, AUTO at bit 9. -/
def Obligations.LaunchDecoding : Prop :=
  ∀ v : Word,
    (v.getLsbD 9 = false → v.extractLsb' 0 2 = 1#2 →
      decodeCmd v = some (.mmul .low (v.extractLsb' 2 2) (v.extractLsb' 4 2) (v.extractLsb' 6 2))) ∧
    (v.getLsbD 9 = false → v.extractLsb' 0 2 = 2#2 →
      decodeCmd v = some (.mmul .high (v.extractLsb' 2 2) (v.extractLsb' 4 2) (v.extractLsb' 6 2))) ∧
    (v.getLsbD 9 = false → v.extractLsb' 0 2 = 3#2 →
      decodeCmd v = some (.mmul .total (v.extractLsb' 2 2) (v.extractLsb' 4 2) (v.extractLsb' 6 2))) ∧
    (v.getLsbD 9 = true → v.extractLsb' 2 6 = 0#6 → v.extractLsb' 0 2 = 1#2 → decodeCmd v = some (.auto .low)) ∧
    (v.getLsbD 9 = true → v.extractLsb' 2 6 = 0#6 → v.extractLsb' 0 2 = 2#2 → decodeCmd v = some (.auto .high)) ∧
    (v.getLsbD 9 = true → v.extractLsb' 2 6 = 0#6 → v.extractLsb' 0 2 = 3#2 → decodeCmd v = some (.auto .total)) ∧
    (v.extractLsb' 0 2 = 0#2 → decodeCmd v = none) ∧
    (v.getLsbD 9 = true → v.extractLsb' 2 6 ≠ 0#6 → decodeCmd v = none)

/-! ### Arithmetic -/

/-- 40_engine_ops.md R110: `Rinv` is the unique inverse of `R = 2^n` below an odd modulus, `MontMul` the product, and `R²` the
number `2^(2n) mod m`. -/
def Obligations.MontgomeryProduct : Prop :=
  ∀ m n : Nat, m % 2 = 1 →
    rinv m n < m ∧ 2 ^ n * rinv m n % m = 1 % m ∧ (∀ x, x < m → 2 ^ n * x % m = 1 % m → x = rinv m n) ∧
    (∀ a b, montMul a b m n = a * b * rinv m n % m ∧ montMul a b m n < m) ∧ r2Of m n = 2 ^ (2 * n) % m

/-- 40_engine_ops.md R118: the five identities the protocol relies on. -/
def Obligations.MontgomeryIdentities : Prop :=
  ∀ m n x y : Nat, m % 2 = 1 → x < m → y < m →
    montMul x (r2Of m n) m n = x * 2 ^ n % m ∧
    (1 < m → montMul 1 (r2Of m n) m n = 2 ^ n % m) ∧
    montMul (x * 2 ^ n % m) (y * 2 ^ n % m) m n = x * y * 2 ^ n % m ∧
    montMul (x * 2 ^ n % m) 1 m n = x % m ∧
    montMul (montMul x y m n) (r2Of m n) m n = x * y % m

/-! ### The engine -/

/-- 40_engine_ops.md R112: the step `latch`. -/
def Obligations.EngineLatches : Prop :=
  ∀ s : State,
    (∀ w d l r, s.eng = .latching (.mmul w d l r) → engineStep s = .next { s with eng := .busyMmul w d l r }) ∧
    (∀ w, s.eng = .latching (.auto w) → engineStep s = .next { s with eng := .busyAuto w }) ∧
    (s.eng = .idle → engineStep s = .next s)

/-- 40_engine_ops.md R114, R115, R117, 10_state.md R25: the step `complete` of a single operation. In the domain: the product in
the destination's active region, no value in its other words, every byte outside the destination slot as before, the
engine idle and its request pending, nothing else changed; aliased selectors are not excluded (R116). Outside it: refused,
for a word of a region without a value, an even modulus, an operand not below the modulus. -/
def Obligations.MmulCompletes : Prop :=
  ∀ (s : State) (w : Width) (d l r : Sel), s.eng = .busyMmul w d l r →
    (∀ m a b, MmulDomain s w l r m a b →
      ∃ t, engineStep s = .next t ∧ t = { s with mem := t.mem, eng := .idle, irqPend := true } ∧
        SlotResult t.mem (.op d) w (montMul a b m (bitsOf w)) ∧ OnlySlot (.op d) s.mem t.mem) ∧
    ((regionVal s.mem .mod w = none ∨ regionVal s.mem (.op l) w = none ∨ regionVal s.mem (.op r) w = none) →
      engineStep s = .refused .unwrittenSlotWord) ∧
    (∀ m a b, regionVal s.mem .mod w = some m → regionVal s.mem (.op l) w = some a → regionVal s.mem (.op r) w = some b →
      (m % 2 = 0 ∨ m ≤ a ∨ m ≤ b) → engineStep s = .refused .operandOutOfDomain)

/-- 40_engine_ops.md R124: what an auto-run computes from the protocol's preconditions, with its frame (R120): the FIFO
emptied, the accumulator's other words without a value, every byte outside the accumulator slot as before. Where stream 1
is zero the slots of the other two multiplicands need hold nothing (R123 (c)). -/
def Obligations.AutoComputesPowers : Prop :=
  ∀ (s : State) (w : Width) (m g0 g1 e0 e1 n : Nat),
    s.eng = .busyAuto w → regionVal s.mem .mod w = some m → m % 2 = 1 → g0 < m → g1 < m →
    regionVal s.mem (.op cfg.acc) w = some (2 ^ bitsOf w % m) →
    regionVal s.mem (.op cfg.tab1) w = some (g0 * 2 ^ bitsOf w % m) →
    (e1 ≠ 0 → regionVal s.mem (.op cfg.tab2) w = some (g1 * 2 ^ bitsOf w % m) ∧
      regionVal s.mem (.op cfg.tab3) w = some (g0 * g1 * 2 ^ bitsOf w % m)) →
    0 < n → n % 32 = 0 → e0 < 2 ^ n → e1 < 2 ^ n → s.fifo = expStream e0 e1 (n / 32) →
    ∃ t, engineStep s = .next t ∧ t = { s with mem := t.mem, fifo := [], eng := .idle, irqPend := true } ∧
      SlotResult t.mem (.op cfg.acc) w (g0 ^ e0 * g1 ^ e1 * 2 ^ bitsOf w % m) ∧ OnlySlot (.op cfg.acc) s.mem t.mem

/-- 40_engine_ops.md R120, R123, 10_state.md R25: where an auto-run is refused, and that it completes everywhere else. Refused:
a modulus without a value; an empty FIFO; an accumulator without a value; an even modulus or an accumulator not below it;
and, at the first pair bit that selects a multiplicand that cannot be used, that multiplicand without a value or not below
the modulus, whichever of the three slots it is and wherever in the FIFO its pair bit stands. A multiplicand that no pair bit
selects is not looked at (R123 (d)). -/
def Obligations.AutoRefusals : Prop :=
  ∀ (s : State) (w : Width), s.eng = .busyAuto w →
    (regionVal s.mem .mod w = none → engineStep s = .refused .unwrittenSlotWord) ∧
    (∀ m, regionVal s.mem .mod w = some m →
      (s.fifo = [] → engineStep s = .refused .autoRunWithEmptyFifo) ∧
      (s.fifo ≠ [] → regionVal s.mem (.op cfg.acc) w = none → engineStep s = .refused .unwrittenSlotWord) ∧
      (∀ A, s.fifo ≠ [] → regionVal s.mem (.op cfg.acc) w = some A →
        (m % 2 = 0 ∨ m ≤ A → engineStep s = .refused .operandOutOfDomain) ∧
        (m % 2 = 1 → A < m →
          (∀ j S, j < 16 * s.fifo.length → pairSlot s.fifo j = some S →
            (∀ i S', i < j → pairSlot s.fifo i = some S' → MultiplicandOk s.mem w m S') →
            (regionVal s.mem S w = none → engineStep s = .refused .unwrittenSlotWord) ∧
            (∀ T, regionVal s.mem S w = some T → m ≤ T → engineStep s = .refused .operandOutOfDomain)) ∧
          ((∀ j S, j < 16 * s.fifo.length → pairSlot s.fifo j = some S → MultiplicandOk s.mem w m S) →
            ∃ t, engineStep s = .next t))))

/-! ### Bus accesses -/

/-- 20_memory.md R56: a read of a slot word while the engine is idle returns it and has no side effect; a word without a value
is `refuse(unwritten slot word)`. -/
def Obligations.SlotReads : Prop :=
  ∀ (s : State) (i : BitVec 6), s.eng = .idle → i.toNat < 48 →
    (∀ v, slotWord s.mem .mod i.toNat = some v → exec (.rMod i) s = .next { s with ret := .word v }) ∧
    (∀ v, slotWord s.mem (.op 0#2) i.toNat = some v → exec (.rOp0 i) s = .next { s with ret := .word v }) ∧
    (∀ v, slotWord s.mem (.op 1#2) i.toNat = some v → exec (.rOp1 i) s = .next { s with ret := .word v }) ∧
    (∀ v, slotWord s.mem (.op 2#2) i.toNat = some v → exec (.rOp2 i) s = .next { s with ret := .word v }) ∧
    (∀ v, slotWord s.mem (.op 3#2) i.toNat = some v → exec (.rOp3 i) s = .next { s with ret := .word v }) ∧
    (slotWord s.mem .mod i.toNat = none → exec (.rMod i) s = .refused .unwrittenSlotWord) ∧
    (slotWord s.mem (.op 0#2) i.toNat = none → exec (.rOp0 i) s = .refused .unwrittenSlotWord) ∧
    (slotWord s.mem (.op 1#2) i.toNat = none → exec (.rOp1 i) s = .refused .unwrittenSlotWord) ∧
    (slotWord s.mem (.op 2#2) i.toNat = none → exec (.rOp2 i) s = .refused .unwrittenSlotWord) ∧
    (slotWord s.mem (.op 3#2) i.toNat = none → exec (.rOp3 i) s = .refused .unwrittenSlotWord)

/-- 20_memory.md R57: a write of a slot word while the engine is idle sets that word and nothing else, and is idempotent. -/
def Obligations.SlotWrites : Prop :=
  ∀ (s : State) (S : Slot) (i : BitVec 6) (v : Word) (j : Instr), s.eng = .idle → i.toNat < 48 →
    ((S = .mod ∧ j = .wMod i v) ∨ (S = .op 0#2 ∧ j = .wOp0 i v) ∨ (S = .op 1#2 ∧ j = .wOp1 i v) ∨
      (S = .op 2#2 ∧ j = .wOp2 i v) ∨ (S = .op 3#2 ∧ j = .wOp3 i v)) →
    ∃ t, exec j s = .next t ∧ t = { s with mem := t.mem } ∧ slotWord t.mem S i.toNat = some v ∧
      (∀ a, (a < wordAddr S i.toNat ∨ wordAddr S i.toNat + 4 ≤ a) → getByte t.mem a = getByte s.mem a) ∧
      exec j t = .next t

/-- 20_memory.md R66: while the engine is not idle a slot read answers an arbitrary word, a draw (log entry 7), and a slot write
is `refuse(write while busy)`; a read of CTRL is unaffected. -/
def Obligations.BusyAccesses : Prop :=
  ∀ (s : State) (i : BitVec 6) (v : Word) (j : Instr), s.eng ≠ .idle → i.toNat < 48 →
    (j ∈ [Instr.rMod i, .rOp0 i, .rOp1 i, .rOp2 i, .rOp3 i] →
      exec j s = .next { s with ret := .word (Config.drawWord s.draws), draws := s.draws + 1 }) ∧
    (j ∈ [Instr.wMod i v, .wOp0 i v, .wOp1 i v, .wOp2 i v, .wOp3 i v, .wFifo v] →
      exec j s = .refused .writeWhileBusy) ∧
    exec .rCtrl s = .next { s with ret := .word s.ctrl }

/-- 41_host_primitives.md R146: a write of the push port appends at the tail, two writes append two words; it is refused while
the engine is not idle or the FIFO is full. -/
def Obligations.FifoPush : Prop :=
  ∀ (s : State) (v : Word),
    (s.eng = .idle → s.fifo.length < Config.fifoDepth →
      exec (.wFifo v) s = .next { s with fifo := s.fifo ++ [v] } ∧
      (s.fifo.length + 1 < Config.fifoDepth →
        exec (.wFifo v) { s with fifo := s.fifo ++ [v] } = .next { s with fifo := s.fifo ++ [v, v] })) ∧
    (s.eng = .idle → Config.fifoDepth ≤ s.fifo.length → exec (.wFifo v) s = .refused .fifoOverflow) ∧
    (s.eng ≠ .idle → exec (.wFifo v) s = .refused .writeWhileBusy)

/-- 41_host_primitives.md R147: the FIFO is never read. -/
def Obligations.FifoReadRefused : Prop := ∀ s : State, exec .rFifo s = .refused .fifoRead

/-- 41_host_primitives.md R141, R149: reads of CTRL, IER and GIE return the register as last written, in every engine phase,
and have no side effect. -/
def Obligations.RegisterReads : Prop :=
  (∀ s : State, exec .rCtrl s = .next { s with ret := .word s.ctrl } ∧
    exec .rIer s = .next { s with ret := .word s.ier } ∧ exec .rGie s = .next { s with ret := .word s.gie }) ∧
  (∀ (s t : State) (v : Word), exec (.wCtrl v) s = .next t → exec .rCtrl t = .next { t with ret := .word v }) ∧
  (∀ (s t : State) (v : Word), exec (.wIer v) s = .next t → exec .rIer t = .next { t with ret := .word v }) ∧
  (∀ (s t : State) (v : Word), exec (.wGie v) s = .next t → exec .rGie t = .next { t with ret := .word v })

/-- 41_host_primitives.md R148, 10_state.md R28, with the default masks: a write sets the register and nothing else, delivery
is enabled exactly when bit 0 of IER and bit 31 of GIE are set, and a request pending meanwhile becomes deliverable. -/
def Obligations.EnableWrites : Prop :=
  (∀ (s : State) (v : Word), exec (.wIer v) s = .next { s with ier := v }) ∧
  (∀ (s : State) (v : Word), exec (.wGie v) s = .next { s with gie := v }) ∧
  (∀ s : State, irqEnabled s = true ↔ (s.ier.getLsbD 0 = true ∧ s.gie.getLsbD 31 = true)) ∧
  (∀ (s t : State) (v : Word), s.irqPend = true → s.irqArmed = true → s.ier.getLsbD 0 = true → v.getLsbD 31 = true →
    exec (.wGie v) s = .next t → deliverEnabled t = true)

/-- 30_encoding.md R91, as 48 slot writes: the image's words are the slot's afterwards, in order from its base, and every
byte outside the slot is as before; an image of another length is refused. 30_encoding.md R88: an exponent word becomes one
FIFO entry, stream 1 in its high half. That each takes effect by the access that delivers it is the model's (log entry 1). -/
def Obligations.EncodedObjectsStore : Prop :=
  (∀ (s : State) (S : Slot) (img : List Word), s.eng = .idle → img.length = 48 →
    ∃ t, exec (.slotImage S img) s = .next t ∧ UpToIrq { s with mem := t.mem } t ∧
      (∀ i, i < 48 → slotWord t.mem S i = img[i]?) ∧ OnlySlot S s.mem t.mem) ∧
  (∀ (s : State) (S : Slot) (img : List Word), img.length ≠ 48 → exec (.slotImage S img) s = .refused .imageShape) ∧
  (∀ (s : State) (e1 e0 : BitVec 16),
    (s.eng = .idle → s.fifo.length < Config.fifoDepth →
      exec (.expw e1 e0) s = .next { s with fifo := s.fifo ++ [e1 ++ e0] }) ∧
    (s.eng = .idle → Config.fifoDepth ≤ s.fifo.length → exec (.expw e1 e0) s = .refused .fifoOverflow) ∧
    (s.eng ≠ .idle → exec (.expw e1 e0) s = .refused .writeWhileBusy))

/-! ### The interrupt path -/

/-- 60_exceptions.md R234: the step `deliver` is enabled exactly under its four conditions, with the default masks; it counts
up by one modulo 2^32 and clears the request and the arming; it does nothing else, and where it is not enabled the IRQ's
turn does nothing. -/
def Obligations.Delivery : Prop :=
  ∀ s : State,
    (deliverEnabled s = true ↔
      (s.irqPend = true ∧ s.ier.getLsbD 0 = true ∧ s.gie.getLsbD 31 = true ∧ s.irqArmed = true)) ∧
    (deliverEnabled s = true → ∃ c : Word, c.toNat = (s.irqCount.toNat + 1) % 2 ^ 32 ∧
      irqStep s = { s with irqCount := c, irqPend := false, irqArmed := false }) ∧
    (deliverEnabled s = false → irqStep s = s)

/-- 60_exceptions.md R237: arming; and the shapes of a channel write other than a 4-byte 1, and of a read other than 4 bytes
(R238), are refused. -/
def Obligations.Arming : Prop :=
  (∀ s : State, exec .arm s = .next { s with irqArmed := true }) ∧
  (∀ s : State, s.irqArmed = true → exec .arm s = .next s) ∧
  (∀ (s : State) (n : Nat) (v : Word) (rest : List Request), s.sched = [] → (n ≠ 4 ∨ v ≠ 1#32) →
    s.prog = .chanWrite n v :: rest → step s = .refused .channelShape) ∧
  (∀ (s : State) (n : Nat) (rest : List Request), s.sched = [] → n ≠ 4 →
    s.prog = .chanRead n :: rest → step s = .refused .channelShape)

/-- 60_exceptions.md R238: a new count is returned at once, whatever the schedule; without one the read gives none where the
deadline passes, and gives the new count where the delivery comes first. Who comes first is the schedule's (log entry 5);
with an empty schedule no deadline passes while a delivery is enabled (R253). -/
def Obligations.ChannelRead : Prop :=
  ∀ s : State,
    (s.irqCount ≠ s.chanSeen →
      exec .cnt s = .next { s with chanSeen := s.irqCount, ret := .count (some s.irqCount) }) ∧
    (∀ ts, s.irqCount = s.chanSeen → s.sched = .timeout :: ts →
      exec .cnt s = .next { s with sched := ts, ret := .count none }) ∧
    (∀ ts, s.irqCount = s.chanSeen → s.sched = .irq :: ts → deliverEnabled s = true →
      exec .cnt s = .next { s with sched := ts, irqPend := false, irqArmed := false, irqCount := s.irqCount + 1#32,
                                   chanSeen := s.irqCount + 1#32, ret := .count (some (s.irqCount + 1#32)) }) ∧
    (s.irqCount = s.chanSeen → s.sched = [] → s.eng = .idle → deliverEnabled s = true →
      exec .cnt s = .next { s with irqPend := false, irqArmed := false, irqCount := s.irqCount + 1#32,
                                   chanSeen := s.irqCount + 1#32, ret := .count (some (s.irqCount + 1#32)) }) ∧
    (s.irqCount = s.chanSeen → s.sched = [] → s.eng = .idle → deliverEnabled s = false →
      exec .cnt s = .next { s with ret := .count none })

/-- 41_host_primitives.md R150: the delay always finishes, for every schedule; it changes nothing where no strobe waits, and
where one does it has been latched when the delay is over, and nothing else but deliveries has happened. It has no duration
here (log entry 16). -/
def Obligations.SettleDelay : Prop :=
  ∀ s : State,
    (latching s = false → exec .delay s = .next s) ∧
    (∀ c, s.eng = .latching c → ∃ t, exec .delay s = .next t ∧ UpToIrq { s with eng := busyOf c } t)

/-! ### Session -/

/-- 42_protocol_wrapper.md R170: open. A mapping that fails raises E1 and changes no device state; otherwise the two masks, the
arming, the channel's memory of the count and the session are as the rule says, and slots, FIFO, CTRL and the engine keep
what they held. Besides, a request pending before may be delivered between two of open's accesses; that a step of the engine
falls inside open is left out (`EngineQuiet`). Whether a mapping fails is the list `mapFails` (log entry 11). R170 gives the
precondition that no session is open; that open is refused where it fails is the model's reading (DEDUCED, log entry 21). -/
def Obligations.OpenSession : Prop :=
  (∀ s : State, s.sess.isOpen = true → exec .openSession s = .refused .sessionAlreadyOpen) ∧
  (∀ s : State, s.sess.isOpen = false → s.mapFails.headD false = true →
    exec .openSession s = .next { s with mapFails := s.mapFails.tail, ret := .error .initializationError }) ∧
  (∀ s : State, s.sess.isOpen = false → s.mapFails.headD false = false → EngineQuiet s →
    ∃ t, exec .openSession s = .next t ∧
      t = { s with ier := 0x00000001#32, gie := 0x80000000#32, irqArmed := true, chanSeen := s.irqCount,
                   sess := { s.sess with isOpen := true, lastCount := 0#32, width := none, n := none, words := none,
                                         desync := false },
                   irqCount := t.irqCount, irqPend := t.irqPend, ret := .done, mapFails := s.mapFails.tail,
                   sched := t.sched } ∧
      ((t.irqCount = s.irqCount ∧ t.irqPend = s.irqPend) ∨
       (s.irqPend = true ∧ s.irqArmed = true ∧ t.irqCount = s.irqCount + 1#32 ∧ t.irqPend = false)))

/-- 42_protocol_wrapper.md R171, R198: close ends the session, performs no bus access and never fails. R171 has the
precondition that a session is open, R198 lets close run from any state; that a close without an open session runs and
changes nothing is the model's reading (DEDUCED, log entry 21). -/
def Obligations.CloseSession : Prop :=
  ∀ s : State, exec .closeSession s = .next { s with sess := { s.sess with isOpen := false }, ret := .done }

/-! ### Codec -/

/-- 42_protocol_wrapper.md R172: `encode` puts a word array that fills its width at the width's positions and zero-fills the
rest; words beyond the width are not used. R173: `decode` takes the region's words, and is the inverse of `encode`. -/
def Obligations.Codec : Prop :=
  (∀ (vs : List Word) (i : Nat), i < 48 →
    (16 ≤ vs.length → (slotEncode vs .low)[i]? = if i < 16 then vs[i]? else some 0#32) ∧
    (32 ≤ vs.length → (slotEncode vs .high)[i]? = if 16 ≤ i then vs[i - 16]? else some 0#32) ∧
    (48 ≤ vs.length → (slotEncode vs .total)[i]? = vs[i]?)) ∧
  (∀ buf : List Word, buf.length = 48 →
    slotDecode buf .low = buf.take 16 ∧ slotDecode buf .high = buf.drop 16 ∧ slotDecode buf .total = buf) ∧
  (∀ (w : Width) (vs : List Word), vs.length = cntOf w → slotDecode (slotEncode vs w) w = vs)

/-- 42_protocol_wrapper.md R174: a slot write while the engine is idle: afterwards `val(S, w) = v mod 2^n(w)` and every inactive
word is 0; every byte outside the slot is as before, and nothing else changes but what a delivery between two accesses
does. -/
def Obligations.WriteSlotValue : Prop :=
  ∀ (s : State) (S : Slot) (w : Width) (v : Nat), s.eng = .idle →
    ∃ t, exec (.wrs S w v) s = .next t ∧ UpToIrq { s with mem := t.mem, ret := .done } t ∧
      SlotHolds t.mem S w (v % 2 ^ bitsOf w) ∧ OnlySlot S s.mem t.mem

/-- 42_protocol_wrapper.md R175: a slot read while the engine is idle returns the word array of `val(S, w)`; while the engine
runs, and takes no step meanwhile, every word read is a draw (20_memory.md R66, log entry 7). -/
def Obligations.ReadSlotValue : Prop :=
  (∀ (s : State) (S : Slot) (w : Width) (v : Nat), s.eng = .idle → regionVal s.mem S w = some v →
    ∃ t, exec (.rds S w) s = .next t ∧ UpToIrq { s with ret := .value (wordsOf (cntOf w) v) } t) ∧
  (∀ (s : State) (S : Slot) (w : Width), s.eng ≠ .idle → Turn.engine ∉ s.sched →
    ∃ t, exec (.rds S w) s = .next t ∧
      UpToIrq { s with ret := .value ((List.range (cntOf w)).map (fun i => Config.drawWord (s.draws + i))),
                       draws := s.draws + cntOf w } t)

/-! ### Sequencer and waiter -/

/-- 42_protocol_wrapper.md R180, R181: a launch call with the engine idle, START 0, and no further turn of the engine scheduled:
CTRL holds `word2` and the engine has latched the operation; nothing else changes but what a delivery does. -/
def Obligations.StartCalls : Prop :=
  ∀ s : State, s.eng = .idle → fieldStart s.ctrl = false → Turn.engine ∉ s.sched →
    (∀ w d l r, ∃ t, exec (.startSingle w d l r) s = .next t ∧
      UpToIrq { s with ctrl := word2 (singleWord1 s.ctrl w d l r), eng := .busyMmul w d l r, ret := .done } t) ∧
    (∀ w, ∃ t, exec (.startAuto w) s = .next t ∧
      UpToIrq { s with ctrl := word2 (autoWord1 s.ctrl w), eng := .busyAuto w, ret := .done } t)

/-- 42_protocol_wrapper.md R182: for every schedule, with nothing pending before, a launch call that ends normally is one
action: the engine runs the operation, or has completed it already. -/
def Obligations.StrobeIsOneAction : Prop :=
  ∀ s : State, s.eng = .idle → fieldStart s.ctrl = false → s.irqPend = false →
    (∀ w d l r t, exec (.startSingle w d l r) s = .next t →
      ∃ u, u = { s with ctrl := word2 (singleWord1 s.ctrl w d l r), eng := .busyMmul w d l r, ret := .done } ∧
        (UpToIrq u t ∨ ∃ u', engineStep u = .next u' ∧ UpToIrq u' t)) ∧
    (∀ w t, exec (.startAuto w) s = .next t →
      ∃ u, u = { s with ctrl := word2 (autoWord1 s.ctrl w), eng := .busyAuto w, ret := .done } ∧
        (UpToIrq u t ∨ ∃ u', engineStep u = .next u' ∧ UpToIrq u' t))

/-- 42_protocol_wrapper.md R190: a wait that finds a count above the last one at once: it takes it, re-arms and returns
normally. A request deliverable before may be delivered before the re-arming. -/
def Obligations.WaitTakesCount : Prop :=
  ∀ s : State, EngineQuiet s → s.irqCount ≠ s.chanSeen → s.sess.lastCount < s.irqCount →
    ∃ t, exec .wait s = .next t ∧
      t = { s with chanSeen := s.irqCount, sess := { s.sess with lastCount := s.irqCount }, irqArmed := true, ret := .done,
                   irqCount := t.irqCount, irqPend := t.irqPend, sched := t.sched } ∧
      ((t.irqCount = s.irqCount ∧ t.irqPend = s.irqPend) ∨
       (deliverEnabled s = true ∧ t.irqCount = s.irqCount + 1#32 ∧ t.irqPend = false))

/-- 42_protocol_wrapper.md R190, R193 (c), (d), and the source's timeout property: a wait to which no interrupt can ever come,
or whose deadline passes first (60_exceptions.md R238 outcome (b), R253), logs a warning, marks the session, re-arms and
returns normally; the recorded count is unchanged and an operation in flight is not stopped. That the schedule names the
deadline is the model's (log entry 5). -/
def Obligations.WaitTimesOut : Prop :=
  ∀ s : State, s.irqCount = s.chanSeen →
    ((s.eng = .idle ∧ deliverEnabled s = false) ∨
      (∃ ts, s.sched = .timeout :: ts ∧ (s.eng = .idle ∨ Turn.engine ∉ ts))) →
    ∃ t, exec .wait s = .next t ∧
      t = { s with log := s.log ++ [.completionTimeout], sess := { s.sess with desync := true }, irqArmed := true,
                   ret := .done, irqCount := t.irqCount, irqPend := t.irqPend, sched := t.sched } ∧
      ((t.irqCount = s.irqCount ∧ t.irqPend = s.irqPend) ∨
       (deliverEnabled s = true ∧ t.irqCount = s.irqCount + 1#32 ∧ t.irqPend = false))

/-- 60_exceptions.md R239 (a), 70_reset_and_hazards.md R289: where the count wraps to 0, the wait's strict comparison fails and
the wait times out although the operation completed; the last value observed, 0, is stored. -/
def Obligations.WaitAtWrap : Prop :=
  ∀ s : State, s.eng = .idle → s.irqCount = 0xFFFFFFFF#32 → s.chanSeen = 0xFFFFFFFF#32 →
    s.sess.lastCount = 0xFFFFFFFF#32 → deliverEnabled s = true → NoTimeout s →
    ∃ t, exec .wait s = .next t ∧
      t = { s with irqCount := 0#32, chanSeen := 0#32, irqPend := false, irqArmed := true,
                   log := s.log ++ [.completionTimeout], sess := { s.sess with desync := true, lastCount := 0#32 },
                   ret := .done, sched := t.sched }

/-- 42_protocol_wrapper.md R191, 20_memory.md R64 (b), under NoTimeout (60_exceptions.md R253), for every schedule: from READY the
launch call of a single operation and its wait complete; the result is in place, the session READY again, one interrupt counted, CTRL holds
`word2`, every byte outside the destination slot is as before, and nothing else has changed. -/
def Obligations.RoundCompletes : Prop :=
  ∀ (s : State) (w : Width) (d l r : Sel) (m a b : Nat),
    Ready s → NoTimeout s → s.irqCount.toNat + 1 < 2 ^ 32 → MmulDomain s w l r m a b →
    ∃ t u, exec (.startSingle w d l r) s = .next t ∧ exec .wait t = .next u ∧ Ready u ∧
      u = { s with mem := u.mem, ctrl := word2 (singleWord1 s.ctrl w d l r), irqCount := s.irqCount + 1#32,
                   chanSeen := s.irqCount + 1#32, sess := { s.sess with lastCount := s.irqCount + 1#32 }, ret := .done,
                   sched := u.sched } ∧
      SlotResult u.mem (.op d) w (montMul a b m (bitsOf w)) ∧ OnlySlot (.op d) s.mem u.mem

/-! ### Exponent streamer -/

/-- 42_protocol_wrapper.md R185, 30_encoding.md R89, R90: a length that is no multiple of 32 is E3 with zero writes; otherwise
the stream is appended (nothing for length 0), two words for each exponent word, the most significant first, high halves
before low halves, an absent second exponent as 0. -/
def Obligations.PushExponent : Prop :=
  (∀ (s : State) (e0 : Nat) (e1 : Option Nat) (n : Nat), n % 32 ≠ 0 →
    exec (.pushe e0 e1 n) s = .next { s with ret := .error .invalidExponentLength }) ∧
  (∀ (s : State) (e0 : Nat) (e1 : Option Nat) (n : Nat), n % 32 = 0 → s.eng = .idle →
    s.fifo.length + 2 * (n / 32) ≤ Config.fifoDepth →
    ∃ t, exec (.pushe e0 e1 n) s = .next t ∧
      UpToIrq { s with fifo := s.fifo ++ expStream e0 (e1.getD 0) (n / 32), ret := .done } t) ∧
  (∀ (e0 e1 k : Nat),
    expStream e0 e1 (k + 1) =
      [(wordAt e1 k).extractLsb' 16 16 ++ (wordAt e0 k).extractLsb' 16 16,
       (wordAt e1 k).extractLsb' 0 16 ++ (wordAt e0 k).extractLsb' 0 16] ++ expStream e0 e1 k)

/-- 30_encoding.md R88, R89, 40_engine_ops.md R122: the pair bits of the stream, in the order the engine consumes them, are the
two exponents' bits in strictly decreasing weight. -/
def Obligations.StreamBitOrder : Prop :=
  ∀ (e0 e1 k j : Nat), j < 32 * k →
    (expStream e0 e1 k).length = 2 * k ∧
    ((expStream e0 e1 k).getD (j / 16) 0#32).getLsbD (15 - j % 16) = e0.testBit (32 * k - 1 - j) ∧
    ((expStream e0 e1 k).getD (j / 16) 0#32).getLsbD (31 - j % 16) = e1.testBit (32 * k - 1 - j)

/-! ### Modulus manager and algorithms -/

/-- 42_protocol_wrapper.md R196: a bit length that is no width is E2, logged, and touches nothing else; otherwise the session
describes the modulus, R² is cached in the first words and the rest are zero, and the modulus slot holds the modulus. -/
def Obligations.UpdateModulus : Prop :=
  (∀ (s : State) (m n : Nat), n ≠ 512 → n ≠ 1024 → n ≠ 1536 →
    exec (.updmod m n) s =
      .next { s with ret := .error .unsupportedWidth, log := s.log ++ [.unsupportedWidth] }) ∧
  (∀ (s : State) (w : Width) (m : Nat), s.eng = .idle →
    ∃ t, exec (.updmod m (bitsOf w)) s = .next t ∧
      UpToIrq { s with mem := t.mem, ret := .done,
                       sess := { s.sess with width := some w, n := some (bitsOf w), words := some (cntOf w),
                                             r2 := t.sess.r2 } } t ∧
      SlotHolds t.mem .mod w (m % 2 ^ bitsOf w) ∧ OnlySlot .mod s.mem t.mem ∧ t.sess.r2.length = 48 ∧
      (0 < m → m < 2 ^ bitsOf w → valueOf (t.sess.r2.take (cntOf w)) = 2 ^ (2 * bitsOf w) % m) ∧
      (∀ i, cntOf w ≤ i → i < 48 → t.sess.r2[i]? = some 0#32))

/-- 43_algorithms.md R213, ambient (R212): under R210 and NoTimeout, for every schedule, MUL returns `x * y mod m`; the
operand slots are as the rule says, the session READY again after two interrupts, and nothing else has changed. -/
def Obligations.MulAmbient : Prop :=
  ∀ (s : State) (w : Width) (m x y : Nat),
    Ready s → NoTimeout s → s.irqCount.toNat + 2 < 2 ^ 32 →
    s.sess.width = some w → s.sess.r2 = r2Words m (bitsOf w) w → regionVal s.mem .mod w = some m → m % 2 = 1 →
    x < m → y < m →
    ∃ t, exec (.mul x y none) s = .next t ∧ Ready t ∧ t.ret = .value (wordsOf (cntOf w) (x * y % m)) ∧
      t = { s with mem := t.mem, ctrl := word2 (singleWord1 s.ctrl w 0#2 0#2 3#2), irqCount := s.irqCount + 2#32,
                   chanSeen := s.irqCount + 2#32, sess := { s.sess with lastCount := s.irqCount + 2#32 }, ret := t.ret,
                   sched := t.sched } ∧
      SlotResult t.mem (.op 0#2) w (x * y % m) ∧ SlotHolds t.mem (.op 1#2) w x ∧ SlotHolds t.mem (.op 2#2) w y ∧
      SlotHolds t.mem (.op 3#2) w (r2Of m (bitsOf w)) ∧ OnlyOperands s.mem t.mem

/-- 43_algorithms.md R213 with the explicit modulus of R218: the same result from the same inputs; the modulus slot holds the
call's modulus afterwards, and the session's cached fields are untouched. -/
def Obligations.MulExplicit : Prop :=
  ∀ (s : State) (w : Width) (m x y : Nat),
    Ready s → NoTimeout s → s.irqCount.toNat + 2 < 2 ^ 32 → m % 2 = 1 → m < 2 ^ bitsOf w → x < m → y < m →
    ∃ t, exec (.mul x y (some (m, bitsOf w))) s = .next t ∧ Ready t ∧ t.ret = .value (wordsOf (cntOf w) (x * y % m)) ∧
      t = { s with mem := t.mem, ctrl := word2 (singleWord1 s.ctrl w 0#2 0#2 3#2), irqCount := s.irqCount + 2#32,
                   chanSeen := s.irqCount + 2#32, sess := { s.sess with lastCount := s.irqCount + 2#32 }, ret := t.ret,
                   sched := t.sched } ∧
      SlotHolds t.mem .mod w m ∧ SlotResult t.mem (.op 0#2) w (x * y % m) ∧ SlotHolds t.mem (.op 1#2) w x ∧
      SlotHolds t.mem (.op 2#2) w y ∧ SlotHolds t.mem (.op 3#2) w (r2Of m (bitsOf w)) ∧ OnlySlots s.mem t.mem

/-- 43_algorithms.md R215, ambient (R214): EXP returns `g^e mod m`, under R210 and NoTimeout, for every schedule, a positive
multiple of 32 as length, the FIFO empty at entry with room for the exponent, and a modulus above 1. -/
def Obligations.ExpAmbient : Prop :=
  ∀ (s : State) (w : Width) (m g e n : Nat),
    Ready s → NoTimeout s → s.irqCount.toNat + 4 < 2 ^ 32 →
    s.sess.width = some w → s.sess.r2 = r2Words m (bitsOf w) w → regionVal s.mem .mod w = some m → m % 2 = 1 → 1 < m →
    g < m → 0 < n → n % 32 = 0 → e < 2 ^ n → s.fifo = [] → 2 * (n / 32) ≤ Config.fifoDepth →
    ∃ t, exec (.exp g e n none) s = .next t ∧ Ready t ∧ t.ret = .value (wordsOf (cntOf w) (g ^ e % m)) ∧
      t = { s with mem := t.mem, ctrl := word2 (singleWord1 s.ctrl w 0#2 0#2 2#2), irqCount := s.irqCount + 4#32,
                   chanSeen := s.irqCount + 4#32, sess := { s.sess with lastCount := s.irqCount + 4#32 }, ret := t.ret,
                   sched := t.sched } ∧
      SlotResult t.mem (.op 0#2) w (g ^ e % m) ∧ SlotResult t.mem (.op 1#2) w (g * 2 ^ bitsOf w % m) ∧
      SlotHolds t.mem (.op 2#2) w 1 ∧ SlotHolds t.mem (.op 3#2) w (r2Of m (bitsOf w)) ∧ OnlyOperands s.mem t.mem

/-- 43_algorithms.md R215 with the explicit modulus of R218. -/
def Obligations.ExpExplicit : Prop :=
  ∀ (s : State) (w : Width) (m g e n : Nat),
    Ready s → NoTimeout s → s.irqCount.toNat + 4 < 2 ^ 32 → m % 2 = 1 → 1 < m → m < 2 ^ bitsOf w →
    g < m → 0 < n → n % 32 = 0 → e < 2 ^ n → s.fifo = [] → 2 * (n / 32) ≤ Config.fifoDepth →
    ∃ t, exec (.exp g e n (some (m, bitsOf w))) s = .next t ∧ Ready t ∧
      t.ret = .value (wordsOf (cntOf w) (g ^ e % m)) ∧
      t = { s with mem := t.mem, ctrl := word2 (singleWord1 s.ctrl w 0#2 0#2 2#2), irqCount := s.irqCount + 4#32,
                   chanSeen := s.irqCount + 4#32, sess := { s.sess with lastCount := s.irqCount + 4#32 }, ret := t.ret,
                   sched := t.sched } ∧
      SlotHolds t.mem .mod w m ∧ SlotResult t.mem (.op 0#2) w (g ^ e % m) ∧
      SlotResult t.mem (.op 1#2) w (g * 2 ^ bitsOf w % m) ∧ SlotHolds t.mem (.op 2#2) w 1 ∧
      SlotHolds t.mem (.op 3#2) w (r2Of m (bitsOf w)) ∧ OnlySlots s.mem t.mem

/-- 43_algorithms.md R217, ambient (R216): DEXP returns `g0^e0 * g1^e1 mod m`, under the premises of EXP. -/
def Obligations.DexpAmbient : Prop :=
  ∀ (s : State) (w : Width) (m g0 e0 g1 e1 n : Nat),
    Ready s → NoTimeout s → s.irqCount.toNat + 6 < 2 ^ 32 →
    s.sess.width = some w → s.sess.r2 = r2Words m (bitsOf w) w → regionVal s.mem .mod w = some m → m % 2 = 1 → 1 < m →
    g0 < m → g1 < m → 0 < n → n % 32 = 0 → e0 < 2 ^ n → e1 < 2 ^ n → s.fifo = [] →
    2 * (n / 32) ≤ Config.fifoDepth →
    ∃ t, exec (.dexp g0 e0 g1 e1 n none) s = .next t ∧ Ready t ∧
      t.ret = .value (wordsOf (cntOf w) (g0 ^ e0 * g1 ^ e1 % m)) ∧
      t = { s with mem := t.mem, ctrl := word2 (singleWord1 s.ctrl w 0#2 0#2 1#2), irqCount := s.irqCount + 6#32,
                   chanSeen := s.irqCount + 6#32, sess := { s.sess with lastCount := s.irqCount + 6#32 }, ret := t.ret,
                   sched := t.sched } ∧
      SlotResult t.mem (.op 0#2) w (g0 ^ e0 * g1 ^ e1 % m) ∧ SlotHolds t.mem (.op 1#2) w 1 ∧
      SlotResult t.mem (.op 2#2) w (g1 * 2 ^ bitsOf w % m) ∧ SlotResult t.mem (.op 3#2) w (g0 * g1 * 2 ^ bitsOf w % m) ∧
      OnlyOperands s.mem t.mem

/-- 43_algorithms.md R217 with the explicit modulus of R218. -/
def Obligations.DexpExplicit : Prop :=
  ∀ (s : State) (w : Width) (m g0 e0 g1 e1 n : Nat),
    Ready s → NoTimeout s → s.irqCount.toNat + 6 < 2 ^ 32 → m % 2 = 1 → 1 < m → m < 2 ^ bitsOf w →
    g0 < m → g1 < m → 0 < n → n % 32 = 0 → e0 < 2 ^ n → e1 < 2 ^ n → s.fifo = [] →
    2 * (n / 32) ≤ Config.fifoDepth →
    ∃ t, exec (.dexp g0 e0 g1 e1 n (some (m, bitsOf w))) s = .next t ∧ Ready t ∧
      t.ret = .value (wordsOf (cntOf w) (g0 ^ e0 * g1 ^ e1 % m)) ∧
      t = { s with mem := t.mem, ctrl := word2 (singleWord1 s.ctrl w 0#2 0#2 1#2), irqCount := s.irqCount + 6#32,
                   chanSeen := s.irqCount + 6#32, sess := { s.sess with lastCount := s.irqCount + 6#32 }, ret := t.ret,
                   sched := t.sched } ∧
      SlotHolds t.mem .mod w m ∧ SlotResult t.mem (.op 0#2) w (g0 ^ e0 * g1 ^ e1 % m) ∧
      SlotHolds t.mem (.op 1#2) w 1 ∧ SlotResult t.mem (.op 2#2) w (g1 * 2 ^ bitsOf w % m) ∧
      SlotResult t.mem (.op 3#2) w (g0 * g1 * 2 ^ bitsOf w % m) ∧ OnlySlots s.mem t.mem

/-- 60_exceptions.md R231, R241; 43_algorithms.md R214, R216, R218: the errors of the algorithms touch nothing but what the
caller is given and, for E2, the log; the width is tested before the exponent length; and an ambient algorithm before any
updateModulus is refused (R210, log entry 14). -/
def Obligations.AlgorithmErrors : Prop :=
  ∀ (s : State) (x y g e g1 e1 m n t : Nat),
    (n ≠ 512 → n ≠ 1024 → n ≠ 1536 →
      exec (.mul x y (some (m, n))) s =
        .next { s with ret := .error .unsupportedWidth, log := s.log ++ [.unsupportedWidth] } ∧
      exec (.exp g e t (some (m, n))) s =
        .next { s with ret := .error .unsupportedWidth, log := s.log ++ [.unsupportedWidth] } ∧
      exec (.dexp g e g1 e1 t (some (m, n))) s =
        .next { s with ret := .error .unsupportedWidth, log := s.log ++ [.unsupportedWidth] }) ∧
    (t % 32 ≠ 0 →
      exec (.exp g e t none) s = .next { s with ret := .error .invalidExponentLength } ∧
      exec (.dexp g e g1 e1 t none) s = .next { s with ret := .error .invalidExponentLength }) ∧
    (t % 32 ≠ 0 → (n = 512 ∨ n = 1024 ∨ n = 1536) →
      exec (.exp g e t (some (m, n))) s = .next { s with ret := .error .invalidExponentLength } ∧
      exec (.dexp g e g1 e1 t (some (m, n))) s = .next { s with ret := .error .invalidExponentLength }) ∧
    (s.sess.width = none → exec (.mul x y none) s = .refused .noAmbientModulus ∧
      (t % 32 = 0 → exec (.exp g e t none) s = .refused .noAmbientModulus ∧
        exec (.dexp g e g1 e1 t none) s = .refused .noAmbientModulus))
end

