-- ==== Sys2Proof/Laws/Memory.lean ====
section
/-! SUPPORT. The storage's laws: reading after writing, what a write leaves alone, and that every operation keeps the
canonical form. -/

namespace Sys2Proof.Machine

@[simp] theorem cfg_stride : cfg.stride = 4 := rfl

@[simp] theorem cfg_highOff : cfg.highOff = 64 := rfl

@[simp] theorem slotWords_eq : slotWords = 48 := rfl

theorem getByte_setByte_same (m : Memory) (a : Nat) (b : Byte) : getByte (setByte m a b) a = some b := by
  induction m with
  | nil => simp [setByte, getByte]
  | cons c rest ih =>
    obtain ⟨k, x⟩ := c
    unfold setByte
    split
    · simp [getByte]
    · split
      · simp [getByte]
      · rename_i h1 h2
        have : k ≠ a := fun h => h2 h.symm
        simp [getByte, this, ih]

theorem getByte_setByte_ne (m : Memory) {a a' : Nat} (b : Byte) (h : a' ≠ a) :
    getByte (setByte m a b) a' = getByte m a' := by
  induction m with
  | nil => simp [setByte, getByte, Ne.symm h]
  | cons c rest ih =>
    obtain ⟨k, x⟩ := c
    unfold setByte
    split
    · simp [getByte, Ne.symm h]
    · split
      · rename_i h1 h2
        subst h2
        simp [getByte, Ne.symm h]
      · by_cases hk : k = a'
        · simp [getByte, hk]
        · simp [getByte, hk, ih]

theorem getByte_clearByte_same (m : Memory) (a : Nat) : getByte (clearByte m a) a = none := by
  induction m with
  | nil => simp [clearByte, getByte]
  | cons c rest ih =>
    obtain ⟨k, x⟩ := c
    unfold clearByte
    split
    · exact ih
    · rename_i h
      simp [getByte, h, ih]

theorem getByte_clearByte_ne (m : Memory) {a a' : Nat} (h : a' ≠ a) :
    getByte (clearByte m a) a' = getByte m a' := by
  induction m with
  | nil => simp [clearByte]
  | cons c rest ih =>
    obtain ⟨k, x⟩ := c
    unfold clearByte
    split
    · rename_i hk
      subst hk
      simp [getByte, Ne.symm h, ih]
    · by_cases hk : k = a'
      · simp [getByte, hk]
      · simp [getByte, hk, ih]

/-- The canonical form as a fact about every cell below the head. -/
theorem wf_cons_iff (c : Host.Cell) (m : Memory) :
    Memory.wf (c :: m) = true ↔ (∀ d ∈ m, c.1 < d.1) ∧ Memory.wf m = true := by
  induction m generalizing c with
  | nil => simp [Memory.wf]
  | cons d rest ih =>
    simp only [Memory.wf, Bool.and_eq_true, decide_eq_true_eq, List.mem_cons, forall_eq_or_imp]
    constructor
    · rintro ⟨h1, h2⟩
      exact ⟨⟨h1, fun e he => Nat.lt_trans h1 (((ih d).1 h2).1 e he)⟩, h2⟩
    · rintro ⟨⟨h1, _⟩, h2⟩
      exact ⟨h1, h2⟩

theorem mem_setByte {m : Memory} {a : Nat} {b : Byte} {c : Host.Cell} (h : c ∈ setByte m a b) :
    c = (a, b) ∨ c ∈ m := by
  induction m with
  | nil => simpa [setByte] using h
  | cons d rest ih =>
    obtain ⟨k, x⟩ := d
    unfold setByte at h
    split at h
    · simpa using h
    · split at h
      · rcases List.mem_cons.1 h with h | h
        · exact .inl h
        · exact .inr (List.mem_cons_of_mem _ h)
      · rcases List.mem_cons.1 h with h | h
        · exact .inr (h ▸ List.mem_cons_self)
        · exact (ih h).imp id (List.mem_cons_of_mem _)

theorem mem_clearByte {m : Memory} {a : Nat} {c : Host.Cell} (h : c ∈ clearByte m a) : c ∈ m ∧ c.1 ≠ a := by
  induction m with
  | nil => simp [clearByte] at h
  | cons d rest ih =>
    obtain ⟨k, x⟩ := d
    unfold clearByte at h
    split at h
    · exact ⟨List.mem_cons_of_mem _ (ih h).1, (ih h).2⟩
    · rename_i hk
      rcases List.mem_cons.1 h with h | h
      · subst h
        exact ⟨List.mem_cons_self, hk⟩
      · exact ⟨List.mem_cons_of_mem _ (ih h).1, (ih h).2⟩

theorem wf_setByte {m : Memory} (a : Nat) (b : Byte) (h : m.wf = true) : (setByte m a b).wf = true := by
  induction m with
  | nil => simp [setByte, Memory.wf]
  | cons d rest ih =>
    obtain ⟨k, x⟩ := d
    rw [wf_cons_iff] at h
    unfold setByte
    split
    · rename_i hak
      rw [wf_cons_iff, wf_cons_iff]
      refine ⟨?_, h⟩
      intro c hc
      rcases List.mem_cons.1 hc with hc | hc
      · subst hc
        exact hak
      · exact Nat.lt_trans hak (h.1 c hc)
    · split
      · rename_i hak
        subst hak
        rw [wf_cons_iff]
        exact h
      · rename_i h1 h2
        rw [wf_cons_iff]
        refine ⟨fun c hc => ?_, ih h.2⟩
        rcases mem_setByte hc with hc | hc
        · subst hc
          simp only
          omega
        · exact h.1 c hc

theorem wf_clearByte {m : Memory} (a : Nat) (h : m.wf = true) : (clearByte m a).wf = true := by
  induction m with
  | nil => simp [clearByte, Memory.wf]
  | cons d rest ih =>
    obtain ⟨k, x⟩ := d
    rw [wf_cons_iff] at h
    unfold clearByte
    split
    · exact ih h.2
    · rw [wf_cons_iff]
      exact ⟨fun c hc => h.1 c (mem_clearByte hc).1, ih h.2⟩

theorem wf_setWord {m : Memory} (a : Nat) (v : Word) (h : m.wf = true) : (setWord m a v).wf = true :=
  wf_setByte _ _ (wf_setByte _ _ (wf_setByte _ _ (wf_setByte _ _ h)))

theorem wf_clearWord {m : Memory} (a : Nat) (h : m.wf = true) : (clearWord m a).wf = true :=
  wf_clearByte _ (wf_clearByte _ (wf_clearByte _ (wf_clearByte _ h)))

theorem wf_writeRun {m : Memory} (a : Nat) (vs : List Word) (h : m.wf = true) : (writeRun m a vs).wf = true := by
  induction vs generalizing m a with
  | nil => exact h
  | cons v vs ih => exact ih _ (wf_setWord a v h)

theorem wf_clearRun {m : Memory} (a k : Nat) (h : m.wf = true) : (clearRun m a k).wf = true := by
  induction k generalizing m a with
  | zero => exact h
  | succ k ih => exact ih _ (wf_clearWord a h)

/-- Every operation on storage keeps the canonical form: what a completed operation leaves. -/
theorem wf_storeResult {m : Memory} (S : Slot) (w : Width) (v : Nat) (h : m.wf = true) :
    (storeResult m S w v).wf = true :=
  wf_clearRun _ _ (wf_clearRun _ _ (wf_writeRun _ _ h))

/-- The bytes of a word come back as the word (20_memory.md R53). -/
theorem bytes_of_word (v : Word) :
    (v.extractLsb' 24 8 ++ v.extractLsb' 16 8 ++ v.extractLsb' 8 8 ++ v.extractLsb' 0 8 : BitVec 32) = v := by
  apply BitVec.eq_of_getLsbD_eq
  intro i hi
  simp only [BitVec.getLsbD_append, BitVec.getLsbD_extractLsb']
  split
  · simp_all
  · split
    · rw [show 8 + (i - 8) = i by omega]
      simp only [Bool.and_eq_right_iff_imp]
      intro
      simp
      omega
    · split
      · rw [show 16 + (i - 8 - 8) = i by omega]
        simp only [Bool.and_eq_right_iff_imp]
        intro
        simp
        omega
      · rw [show 24 + (i - 8 - 8 - 8) = i by omega]
        simp only [Bool.and_eq_right_iff_imp]
        intro
        simp
        omega

/-- A byte outside the word stored reads as before. -/
theorem getByte_setWord_ne (m : Memory) {a a' : Nat} (v : Word) (h : a' < a ∨ a + 3 < a') :
    getByte (setWord m a v) a' = getByte m a' := by
  unfold setWord
  rw [getByte_setByte_ne _ _ (by omega), getByte_setByte_ne _ _ (by omega), getByte_setByte_ne _ _ (by omega),
    getByte_setByte_ne _ _ (by omega)]

theorem getByte_clearWord_ne (m : Memory) {a a' : Nat} (h : a' < a ∨ a + 3 < a') :
    getByte (clearWord m a) a' = getByte m a' := by
  unfold clearWord
  rw [getByte_clearByte_ne _ (by omega), getByte_clearByte_ne _ (by omega), getByte_clearByte_ne _ (by omega),
    getByte_clearByte_ne _ (by omega)]

theorem getWord_setWord_same (m : Memory) (a : Nat) (v : Word) : getWord (setWord m a v) a = some v := by
  have h3 : getByte (setWord m a v) (a + 3) = some (v.extractLsb' 24 8) := getByte_setByte_same _ _ _
  have h2 : getByte (setWord m a v) (a + 2) = some (v.extractLsb' 16 8) := by
    unfold setWord
    rw [getByte_setByte_ne _ _ (by omega), getByte_setByte_same]
  have h1 : getByte (setWord m a v) (a + 1) = some (v.extractLsb' 8 8) := by
    unfold setWord
    rw [getByte_setByte_ne _ _ (by omega), getByte_setByte_ne _ _ (by omega), getByte_setByte_same]
  have h0 : getByte (setWord m a v) a = some (v.extractLsb' 0 8) := by
    unfold setWord
    rw [getByte_setByte_ne _ _ (by omega), getByte_setByte_ne _ _ (by omega), getByte_setByte_ne _ _ (by omega),
      getByte_setByte_same]
  simp only [getWord, h0, h1, h2, h3]
  exact congrArg some (bytes_of_word v)

theorem getWord_setWord_ne (m : Memory) {a a' : Nat} (v : Word) (h : a' + 3 < a ∨ a + 3 < a') :
    getWord (setWord m a v) a' = getWord m a' := by
  unfold getWord
  rw [getByte_setWord_ne _ _ (by omega), getByte_setWord_ne _ _ (by omega), getByte_setWord_ne _ _ (by omega),
    getByte_setWord_ne _ _ (by omega)]

theorem getWord_clearWord_ne (m : Memory) {a a' : Nat} (h : a' + 3 < a ∨ a + 3 < a') :
    getWord (clearWord m a) a' = getWord m a' := by
  unfold getWord
  rw [getByte_clearWord_ne _ (by omega), getByte_clearWord_ne _ (by omega), getByte_clearWord_ne _ (by omega),
    getByte_clearWord_ne _ (by omega)]

theorem getWord_clearWord_same (m : Memory) (a : Nat) : getWord (clearWord m a) a = none := by
  have h : getByte (clearWord m a) a = none := by
    unfold clearWord
    rw [getByte_clearByte_ne _ (by omega), getByte_clearByte_ne _ (by omega), getByte_clearByte_ne _ (by omega),
      getByte_clearByte_same]
  simp [getWord, h]

/-- A byte outside the run stored reads as before. -/
theorem getByte_writeRun_ne (m : Memory) {a a' : Nat} (vs : List Word) (h : a' < a ∨ a + 4 * vs.length ≤ a') :
    getByte (writeRun m a vs) a' = getByte m a' := by
  induction vs generalizing m a with
  | nil => rfl
  | cons v vs ih =>
    simp only [List.length_cons] at h
    rw [writeRun, ih _ (by simp only [cfg_stride]; omega), getByte_setWord_ne _ _ (by omega)]

theorem getByte_clearRun_ne (m : Memory) {a a' : Nat} (k : Nat) (h : a' < a ∨ a + 4 * k ≤ a') :
    getByte (clearRun m a k) a' = getByte m a' := by
  induction k generalizing m a with
  | zero => rfl
  | succ k ih => rw [clearRun, ih _ (by simp only [cfg_stride]; omega), getByte_clearWord_ne _ (by omega)]

theorem getWord_writeRun_ne (m : Memory) {a a' : Nat} (vs : List Word) (h : a' + 3 < a ∨ a + 4 * vs.length ≤ a') :
    getWord (writeRun m a vs) a' = getWord m a' := by
  unfold getWord
  rw [getByte_writeRun_ne _ _ (by omega), getByte_writeRun_ne _ _ (by omega), getByte_writeRun_ne _ _ (by omega),
    getByte_writeRun_ne _ _ (by omega)]

theorem getWord_clearRun_ne (m : Memory) {a a' : Nat} (k : Nat) (h : a' + 3 < a ∨ a + 4 * k ≤ a') :
    getWord (clearRun m a k) a' = getWord m a' := by
  unfold getWord
  rw [getByte_clearRun_ne _ _ (by omega), getByte_clearRun_ne _ _ (by omega), getByte_clearRun_ne _ _ (by omega),
    getByte_clearRun_ne _ _ (by omega)]

/-- A word cleared holds no value. -/
theorem getWord_clearRun_inside (m : Memory) (a k : Nat) {j : Nat} (h : j < k) :
    getWord (clearRun m a k) (a + 4 * j) = none := by
  induction k generalizing m a j with
  | zero => omega
  | succ k ih =>
    rw [clearRun]
    cases j with
    | zero =>
      rw [getWord_clearRun_ne _ _ (by simp only [cfg_stride]; omega)]
      exact getWord_clearWord_same m a
    | succ j =>
      have := ih (clearWord m a) (a + cfg.stride) (j := j) (by omega)
      rw [show a + 4 * (j + 1) = a + cfg.stride + 4 * j by simp only [cfg_stride]; omega]
      exact this

/-- A run stored reads back, word by word. -/
theorem getWord_writeRun_inside (m : Memory) (a : Nat) (vs : List Word) {j : Nat} (h : j < vs.length) :
    getWord (writeRun m a vs) (a + 4 * j) = some vs[j] := by
  induction vs generalizing m a j with
  | nil => simp at h
  | cons v vs ih =>
    rw [writeRun]
    cases j with
    | zero =>
      rw [getWord_writeRun_ne _ _ (by simp only [cfg_stride]; omega)]
      simpa using getWord_setWord_same m a v
    | succ j =>
      have := ih (setWord m a v) (a + cfg.stride) (j := j) (by simpa using h)
      rw [show a + 4 * (j + 1) = a + cfg.stride + 4 * j by simp only [cfg_stride]; omega]
      simpa using this

/-- A run is determined by its words. -/
theorem readRun_congr {m m' : Memory} {a k : Nat} (h : ∀ j < k, getWord m (a + 4 * j) = getWord m' (a + 4 * j)) :
    readRun m a k = readRun m' a k := by
  induction k generalizing a with
  | zero => rfl
  | succ k ih =>
    have h0 := h 0 (by omega)
    have ht : readRun m (a + cfg.stride) k = readRun m' (a + cfg.stride) k := by
      apply ih
      intro j hj
      have := h (j + 1) (by omega)
      rwa [show a + 4 * (j + 1) = a + cfg.stride + 4 * j by simp only [cfg_stride]; omega] at this
    simp only [Nat.mul_zero, Nat.add_zero] at h0
    simp only [readRun, h0, ht]

/-- A run whose words are those of a list reads as the list. -/
theorem readRun_eq_some {m : Memory} {a : Nat} {vs : List Word}
    (h : ∀ (j : Nat) (hj : j < vs.length), getWord m (a + 4 * j) = some vs[j]) :
    readRun m a vs.length = some vs := by
  induction vs generalizing a with
  | nil => rfl
  | cons v vs ih =>
    have h0 := h 0 (by simp)
    have ht : readRun m (a + cfg.stride) vs.length = some vs := by
      apply ih
      intro j hj
      have := h (j + 1) (by simpa using hj)
      rw [show a + 4 * (j + 1) = a + cfg.stride + 4 * j by simp only [cfg_stride]; omega] at this
      simpa using this
    simp only [Nat.mul_zero, Nat.add_zero, List.getElem_cons_zero] at h0
    simp only [List.length_cons, readRun, h0, ht]

end Sys2Proof.Machine
end

