-- ==== Sys2Proof/Laws/Region.lean ====
section
/-! SUPPORT. The laws of regions: numbers and their words, where the slots lie, and what a stored image or a result leaves of
each slot's regions. -/

namespace Sys2Proof.Machine

@[simp] theorem length_wordsOf (k v : Nat) : (wordsOf k v).length = k := by
  induction k generalizing v with
  | zero => rfl
  | succ k ih => simp [wordsOf, ih]

/-- A number's words stand for the number, cut to their length (10_state.md R24). -/
theorem valueOf_wordsOf (k v : Nat) : valueOf (wordsOf k v) = v % 2 ^ (32 * k) := by
  induction k generalizing v with
  | zero => simp [wordsOf, valueOf, Nat.mod_one]
  | succ k ih =>
    rw [wordsOf, valueOf, ih, BitVec.toNat_ofNat, show 32 * (k + 1) = 32 + 32 * k by omega, pow_add,
      Nat.mod_mul]

/-- The words of a word array's number are the array. -/
theorem wordsOf_valueOf (vs : List Word) : wordsOf vs.length (valueOf vs) = vs := by
  induction vs with
  | nil => rfl
  | cons v vs ih =>
    have h1 : (v.toNat + 2 ^ 32 * valueOf vs) / 2 ^ 32 = valueOf vs := by
      have := v.isLt
      omega
    have h2 : BitVec.ofNat 32 (v.toNat + 2 ^ 32 * valueOf vs) = v := by
      apply BitVec.eq_of_toNat_eq
      rw [BitVec.toNat_ofNat, Nat.add_mul_mod_self_left, Nat.mod_eq_of_lt v.isLt]
    simp only [List.length_cons, wordsOf, valueOf, h1, h2, ih]

theorem valueOf_lt (vs : List Word) : valueOf vs < 2 ^ (32 * vs.length) := by
  rw [← wordsOf_valueOf vs, valueOf_wordsOf, length_wordsOf]
  exact Nat.mod_lt _ (by positivity)

theorem valueOf_append_zeros (vs : List Word) (k : Nat) : valueOf (vs ++ List.replicate k 0#32) = valueOf vs := by
  induction vs with
  | nil =>
    induction k with
    | zero => rfl
    | succ k ih => simpa [List.replicate_succ, valueOf] using ih
  | cons v vs ih => simp [valueOf, ih]

@[simp] theorem bitsOf_eq (w : Width) : bitsOf w = 32 * cntOf w := by cases w <;> rfl

theorem widthOfBits_bitsOf (w : Width) : widthOfBits (bitsOf w) = some w := by cases w <;> rfl

theorem widthOfBits_some {n : Nat} {w : Width} (h : widthOfBits n = some w) : n = bitsOf w := by
  unfold widthOfBits at h
  split at h
  · cases h; assumption
  · split at h
    · cases h; assumption
    · split at h
      · cases h; assumption
      · cases h

/-- The slots lie apart: their bases are multiples of 0x1000 and differ. -/
theorem slotBase_apart {S T : Slot} (h : S ≠ T) : slotBase S + 0x1000 ≤ slotBase T ∨ slotBase T + 0x1000 ≤ slotBase S := by
  cases S with
  | mod =>
    cases T with
    | mod => exact absurd rfl h
    | op k => simp only [slotBase, cfg]; omega
  | op j =>
    cases T with
    | mod => simp only [slotBase, cfg]; omega
    | op k =>
      have : j.toNat ≠ k.toNat := fun e => h (congrArg Slot.op (BitVec.eq_of_toNat_eq e))
      simp only [slotBase, cfg]
      omega

theorem loOf_add_cntOf (w : Width) : loOf w + cntOf w ≤ 48 := by cases w <;> decide

theorem cntOf_pos (w : Width) : 0 < cntOf w := by cases w <;> decide

/-- A region is determined by its words. -/
theorem regionVal_congr {m m' : Memory} {S : Slot} {w : Width}
    (h : ∀ i, loOf w ≤ i → i < loOf w + cntOf w → slotWord m S i = slotWord m' S i) :
    regionVal m S w = regionVal m' S w := by
  unfold regionVal
  rw [readRun_congr]
  intro j hj
  have := h (loOf w + j) (by omega) (by omega)
  simpa only [slotWord, wordAddr, cfg_stride, show slotBase S + (loOf w + j) * 4 = slotBase S + loOf w * 4 + 4 * j by omega]
    using this

/-- A region whose words are those of a list has the list's number. -/
theorem regionVal_eq_some {m : Memory} {S : Slot} {w : Width} {vs : List Word} (hl : vs.length = cntOf w)
    (h : ∀ (j : Nat) (hj : j < vs.length), slotWord m S (loOf w + j) = some vs[j]) :
    regionVal m S w = some (valueOf vs) := by
  unfold regionVal
  rw [← hl, readRun_eq_some]
  · rfl
  · intro j hj
    have := h j hj
    simpa only [slotWord, wordAddr, cfg_stride,
      show slotBase S + (loOf w + j) * 4 = slotBase S + loOf w * 4 + 4 * j by omega] using this

/-- What a completed operation leaves of its destination's active region (R114). -/
theorem regionVal_storeResult_same (m : Memory) (S : Slot) (w : Width) {v : Nat} (hv : v < 2 ^ bitsOf w) :
    regionVal (storeResult m S w v) S w = some v := by
  have hw := loOf_add_cntOf w
  have key : regionVal (storeResult m S w v) S w = some (valueOf (wordsOf (cntOf w) v)) := by
    apply regionVal_eq_some (length_wordsOf _ _)
    intro j hj
    rw [length_wordsOf] at hj
    unfold slotWord storeResult clearInactive
    simp only [wordAddr, cfg_stride]
    rw [getWord_clearRun_ne _ _ (by omega), getWord_clearRun_ne _ _ (by omega)]
    have := getWord_writeRun_inside m (wordAddr S (loOf w)) (wordsOf (cntOf w) v) (j := j) (by simpa using hj)
    simpa only [setRegion, wordAddr, cfg_stride,
      show slotBase S + (loOf w + j) * 4 = slotBase S + loOf w * 4 + 4 * j by omega] using this
  rw [key, valueOf_wordsOf, ← bitsOf_eq, Nat.mod_eq_of_lt hv]

/-- A completed operation leaves every other slot's words (R115). -/
theorem slotWord_storeResult_other (m : Memory) {S T : Slot} (w : Width) (v : Nat) (h : T ≠ S) {i : Nat} (hi : i < 48) :
    slotWord (storeResult m S w v) T i = slotWord m T i := by
  have hw := loOf_add_cntOf w
  have hb := slotBase_apart h
  unfold slotWord storeResult clearInactive setRegion
  simp only [wordAddr, cfg_stride]
  rw [getWord_clearRun_ne _ _ (by simp only [slotWords_eq]; omega), getWord_clearRun_ne _ _ (by omega),
    getWord_writeRun_ne _ _ (by simp only [length_wordsOf]; omega)]

theorem regionVal_storeResult_other (m : Memory) {S T : Slot} (w w' : Width) (v : Nat) (h : T ≠ S) :
    regionVal (storeResult m S w v) T w' = regionVal m T w' := by
  have := loOf_add_cntOf w'
  exact regionVal_congr (fun i _ hi => slotWord_storeResult_other m w v h (by omega))

/-- The words of the destination outside the active region hold no value (R115). -/
theorem slotWord_storeResult_inactive (m : Memory) (S : Slot) (w : Width) (v : Nat) {i : Nat} (hi : i < 48)
    (h : i < loOf w ∨ loOf w + cntOf w ≤ i) : slotWord (storeResult m S w v) S i = none := by
  have hw := loOf_add_cntOf w
  unfold slotWord storeResult clearInactive
  simp only [wordAddr, cfg_stride, slotWords_eq]
  rcases h with h | h
  · rw [getWord_clearRun_ne _ _ (by omega)]
    have := getWord_clearRun_inside (setRegion m S w v) (slotBase S + 0 * 4) (loOf w) h
    simpa only [show slotBase S + 0 * 4 + 4 * i = slotBase S + i * 4 by omega] using this
  · have := getWord_clearRun_inside (clearRun (setRegion m S w v) (slotBase S + 0 * 4) (loOf w))
      (slotBase S + (loOf w + cntOf w) * 4) (48 - loOf w - cntOf w) (j := i - (loOf w + cntOf w)) (by omega)
    simpa only [show slotBase S + (loOf w + cntOf w) * 4 + 4 * (i - (loOf w + cntOf w)) = slotBase S + i * 4 by omega]
      using this

/-! ### Images -/

@[simp] theorem length_slotEncode (vs : List Word) (w : Width) : (slotEncode vs w).length = 48 := by
  cases w <;> simp [slotEncode, loOf, cntOf]

@[simp] theorem length_slotImageOf (v : Nat) (w : Width) : (slotImageOf v w).length = 48 := length_slotEncode _ _

/-- The active words of an encoded array are the array's (42_protocol_wrapper.md R172). -/
theorem slotEncode_active (vs : List Word) (w : Width) {j : Nat} (hj : j < cntOf w) :
    (slotEncode vs w)[loOf w + j]'(by have := loOf_add_cntOf w; simp; omega) = vs.getD j 0#32 := by
  simp only [slotEncode]
  rw [List.getElem_append_left (by simp; omega), List.getElem_append_right (by simp)]
  simp

/-- A stored image: its words are the slot's. -/
theorem slotWord_image_same (m : Memory) (S : Slot) {img : List Word} {i : Nat} (hi : i < img.length) :
    slotWord (writeRun m (slotBase S) img) S i = some img[i] := by
  have := getWord_writeRun_inside m (slotBase S) img hi
  simpa only [slotWord, wordAddr, cfg_stride, Nat.mul_comm i 4] using this

theorem slotWord_image_other (m : Memory) {S T : Slot} {img : List Word} (hl : img.length = 48) (h : T ≠ S) {i : Nat}
    (hi : i < 48) : slotWord (writeRun m (slotBase S) img) T i = slotWord m T i := by
  have hb := slotBase_apart h
  unfold slotWord
  simp only [wordAddr, cfg_stride]
  rw [getWord_writeRun_ne _ _ (by omega)]

theorem regionVal_image_other (m : Memory) {S T : Slot} {img : List Word} (hl : img.length = 48) (w' : Width) (h : T ≠ S) :
    regionVal (writeRun m (slotBase S) img) T w' = regionVal m T w' := by
  have := loOf_add_cntOf w'
  exact regionVal_congr (fun i _ hi => slotWord_image_other m hl h (by omega))

/-- A stored image's region has the number stored, cut to the width (42_protocol_wrapper.md R174). -/
theorem regionVal_image_same (m : Memory) (S : Slot) (w : Width) (v : Nat) :
    regionVal (writeRun m (slotBase S) (slotImageOf v w)) S w = some (v % 2 ^ bitsOf w) := by
  have hw := loOf_add_cntOf w
  have key : regionVal (writeRun m (slotBase S) (slotImageOf v w)) S w = some (valueOf (wordsOf (cntOf w) v)) := by
    apply regionVal_eq_some (length_wordsOf _ _)
    intro j hj
    have hj' : j < cntOf w := by simpa using hj
    rw [slotWord_image_same m S (by simp; omega)]
    simp only [slotImageOf]
    rw [slotEncode_active _ _ hj', List.getD_eq_getElem _ _ hj]
  rw [key, valueOf_wordsOf, bitsOf_eq]

end Sys2Proof.Machine
end

