-- ==== Sys2Proof/Laws/State.lean ====
section
/-! SUPPORT. One lemma for each field of each named update of the state, true by unfolding; no later proof unfolds an update. -/

namespace Sys2Proof.Machine

@[simp] theorem finishOp_mem (S : Slot) (w : Width) (v : Nat) (s : State) : (finishOp S w v s).mem = storeResult s.mem S w v := rfl
@[simp] theorem finishOp_fifo (S : Slot) (w : Width) (v : Nat) (s : State) : (finishOp S w v s).fifo = s.fifo := rfl
@[simp] theorem finishOp_ctrl (S : Slot) (w : Width) (v : Nat) (s : State) : (finishOp S w v s).ctrl = s.ctrl := rfl
@[simp] theorem finishOp_ier (S : Slot) (w : Width) (v : Nat) (s : State) : (finishOp S w v s).ier = s.ier := rfl
@[simp] theorem finishOp_gie (S : Slot) (w : Width) (v : Nat) (s : State) : (finishOp S w v s).gie = s.gie := rfl
@[simp] theorem finishOp_eng (S : Slot) (w : Width) (v : Nat) (s : State) : (finishOp S w v s).eng = .idle := rfl
@[simp] theorem finishOp_irqPend (S : Slot) (w : Width) (v : Nat) (s : State) : (finishOp S w v s).irqPend = true := rfl
@[simp] theorem finishOp_irqCount (S : Slot) (w : Width) (v : Nat) (s : State) : (finishOp S w v s).irqCount = s.irqCount := rfl
@[simp] theorem finishOp_irqArmed (S : Slot) (w : Width) (v : Nat) (s : State) : (finishOp S w v s).irqArmed = s.irqArmed := rfl
@[simp] theorem finishOp_chanSeen (S : Slot) (w : Width) (v : Nat) (s : State) : (finishOp S w v s).chanSeen = s.chanSeen := rfl
@[simp] theorem finishOp_sess (S : Slot) (w : Width) (v : Nat) (s : State) : (finishOp S w v s).sess = s.sess := rfl
@[simp] theorem finishOp_ret (S : Slot) (w : Width) (v : Nat) (s : State) : (finishOp S w v s).ret = s.ret := rfl
@[simp] theorem finishOp_log (S : Slot) (w : Width) (v : Nat) (s : State) : (finishOp S w v s).log = s.log := rfl
@[simp] theorem finishOp_prog (S : Slot) (w : Width) (v : Nat) (s : State) : (finishOp S w v s).prog = s.prog := rfl
@[simp] theorem finishOp_sched (S : Slot) (w : Width) (v : Nat) (s : State) : (finishOp S w v s).sched = s.sched := rfl
@[simp] theorem finishOp_mapFails (S : Slot) (w : Width) (v : Nat) (s : State) : (finishOp S w v s).mapFails = s.mapFails := rfl
@[simp] theorem finishOp_draws (S : Slot) (w : Width) (v : Nat) (s : State) : (finishOp S w v s).draws = s.draws := rfl

@[simp] theorem takeCount_mem (s : State) : (takeCount s).mem = s.mem := rfl
@[simp] theorem takeCount_fifo (s : State) : (takeCount s).fifo = s.fifo := rfl
@[simp] theorem takeCount_ctrl (s : State) : (takeCount s).ctrl = s.ctrl := rfl
@[simp] theorem takeCount_ier (s : State) : (takeCount s).ier = s.ier := rfl
@[simp] theorem takeCount_gie (s : State) : (takeCount s).gie = s.gie := rfl
@[simp] theorem takeCount_eng (s : State) : (takeCount s).eng = s.eng := rfl
@[simp] theorem takeCount_irqPend (s : State) : (takeCount s).irqPend = s.irqPend := rfl
@[simp] theorem takeCount_irqCount (s : State) : (takeCount s).irqCount = s.irqCount := rfl
@[simp] theorem takeCount_irqArmed (s : State) : (takeCount s).irqArmed = s.irqArmed := rfl
@[simp] theorem takeCount_chanSeen (s : State) : (takeCount s).chanSeen = s.irqCount := rfl
@[simp] theorem takeCount_sess (s : State) : (takeCount s).sess = s.sess := rfl
@[simp] theorem takeCount_ret (s : State) : (takeCount s).ret = .count (some s.irqCount) := rfl
@[simp] theorem takeCount_log (s : State) : (takeCount s).log = s.log := rfl
@[simp] theorem takeCount_prog (s : State) : (takeCount s).prog = s.prog := rfl
@[simp] theorem takeCount_sched (s : State) : (takeCount s).sched = s.sched := rfl
@[simp] theorem takeCount_mapFails (s : State) : (takeCount s).mapFails = s.mapFails := rfl
@[simp] theorem takeCount_draws (s : State) : (takeCount s).draws = s.draws := rfl

@[simp] theorem timedOut_mem (s : State) : (timedOut s).mem = s.mem := rfl
@[simp] theorem timedOut_fifo (s : State) : (timedOut s).fifo = s.fifo := rfl
@[simp] theorem timedOut_ctrl (s : State) : (timedOut s).ctrl = s.ctrl := rfl
@[simp] theorem timedOut_ier (s : State) : (timedOut s).ier = s.ier := rfl
@[simp] theorem timedOut_gie (s : State) : (timedOut s).gie = s.gie := rfl
@[simp] theorem timedOut_eng (s : State) : (timedOut s).eng = s.eng := rfl
@[simp] theorem timedOut_irqPend (s : State) : (timedOut s).irqPend = s.irqPend := rfl
@[simp] theorem timedOut_irqCount (s : State) : (timedOut s).irqCount = s.irqCount := rfl
@[simp] theorem timedOut_irqArmed (s : State) : (timedOut s).irqArmed = s.irqArmed := rfl
@[simp] theorem timedOut_chanSeen (s : State) : (timedOut s).chanSeen = s.chanSeen := rfl
@[simp] theorem timedOut_sess (s : State) : (timedOut s).sess = { s.sess with desync := true } := rfl
@[simp] theorem timedOut_ret (s : State) : (timedOut s).ret = s.ret := rfl
@[simp] theorem timedOut_log (s : State) : (timedOut s).log = s.log ++ [.completionTimeout] := rfl
@[simp] theorem timedOut_prog (s : State) : (timedOut s).prog = s.prog := rfl
@[simp] theorem timedOut_sched (s : State) : (timedOut s).sched = s.sched := rfl
@[simp] theorem timedOut_mapFails (s : State) : (timedOut s).mapFails = s.mapFails := rfl
@[simp] theorem timedOut_draws (s : State) : (timedOut s).draws = s.draws := rfl

@[simp] theorem setModulus_mem (m n : Nat) (w : Width) (s : State) : (setModulus m n w s).mem = s.mem := rfl
@[simp] theorem setModulus_fifo (m n : Nat) (w : Width) (s : State) : (setModulus m n w s).fifo = s.fifo := rfl
@[simp] theorem setModulus_ctrl (m n : Nat) (w : Width) (s : State) : (setModulus m n w s).ctrl = s.ctrl := rfl
@[simp] theorem setModulus_ier (m n : Nat) (w : Width) (s : State) : (setModulus m n w s).ier = s.ier := rfl
@[simp] theorem setModulus_gie (m n : Nat) (w : Width) (s : State) : (setModulus m n w s).gie = s.gie := rfl
@[simp] theorem setModulus_eng (m n : Nat) (w : Width) (s : State) : (setModulus m n w s).eng = s.eng := rfl
@[simp] theorem setModulus_irqPend (m n : Nat) (w : Width) (s : State) : (setModulus m n w s).irqPend = s.irqPend := rfl
@[simp] theorem setModulus_irqCount (m n : Nat) (w : Width) (s : State) : (setModulus m n w s).irqCount = s.irqCount := rfl
@[simp] theorem setModulus_irqArmed (m n : Nat) (w : Width) (s : State) : (setModulus m n w s).irqArmed = s.irqArmed := rfl
@[simp] theorem setModulus_chanSeen (m n : Nat) (w : Width) (s : State) : (setModulus m n w s).chanSeen = s.chanSeen := rfl
@[simp] theorem setModulus_sess (m n : Nat) (w : Width) (s : State) : (setModulus m n w s).sess = { s.sess with width := some w, n := some n, words := some (n / 32), r2 := r2Words m n w } := rfl
@[simp] theorem setModulus_ret (m n : Nat) (w : Width) (s : State) : (setModulus m n w s).ret = s.ret := rfl
@[simp] theorem setModulus_log (m n : Nat) (w : Width) (s : State) : (setModulus m n w s).log = s.log := rfl
@[simp] theorem setModulus_prog (m n : Nat) (w : Width) (s : State) : (setModulus m n w s).prog = s.prog := rfl
@[simp] theorem setModulus_sched (m n : Nat) (w : Width) (s : State) : (setModulus m n w s).sched = s.sched := rfl
@[simp] theorem setModulus_mapFails (m n : Nat) (w : Width) (s : State) : (setModulus m n w s).mapFails = s.mapFails := rfl
@[simp] theorem setModulus_draws (m n : Nat) (w : Width) (s : State) : (setModulus m n w s).draws = s.draws := rfl

@[simp] theorem irqStep_mem (s : State) : (irqStep s).mem = s.mem := by
  unfold irqStep; split <;> rfl
@[simp] theorem irqStep_fifo (s : State) : (irqStep s).fifo = s.fifo := by
  unfold irqStep; split <;> rfl
@[simp] theorem irqStep_ctrl (s : State) : (irqStep s).ctrl = s.ctrl := by
  unfold irqStep; split <;> rfl
@[simp] theorem irqStep_ier (s : State) : (irqStep s).ier = s.ier := by
  unfold irqStep; split <;> rfl
@[simp] theorem irqStep_gie (s : State) : (irqStep s).gie = s.gie := by
  unfold irqStep; split <;> rfl
@[simp] theorem irqStep_eng (s : State) : (irqStep s).eng = s.eng := by
  unfold irqStep; split <;> rfl
@[simp] theorem irqStep_chanSeen (s : State) : (irqStep s).chanSeen = s.chanSeen := by
  unfold irqStep; split <;> rfl
@[simp] theorem irqStep_sess (s : State) : (irqStep s).sess = s.sess := by
  unfold irqStep; split <;> rfl
@[simp] theorem irqStep_ret (s : State) : (irqStep s).ret = s.ret := by
  unfold irqStep; split <;> rfl
@[simp] theorem irqStep_log (s : State) : (irqStep s).log = s.log := by
  unfold irqStep; split <;> rfl
@[simp] theorem irqStep_prog (s : State) : (irqStep s).prog = s.prog := by
  unfold irqStep; split <;> rfl
@[simp] theorem irqStep_sched (s : State) : (irqStep s).sched = s.sched := by
  unfold irqStep; split <;> rfl
@[simp] theorem irqStep_mapFails (s : State) : (irqStep s).mapFails = s.mapFails := by
  unfold irqStep; split <;> rfl
@[simp] theorem irqStep_draws (s : State) : (irqStep s).draws = s.draws := by
  unfold irqStep; split <;> rfl

/-- Where `deliver` is not enabled, the IRQ's turn changes nothing (60_exceptions.md R234). -/
theorem irqStep_of_not (s : State) (h : deliverEnabled s = false) : irqStep s = s := by
  simp [irqStep, h]

/-- Where `deliver` is enabled, the IRQ's turn is the delivery (60_exceptions.md R234). -/
theorem irqStep_of_enabled (s : State) (h : deliverEnabled s = true) :
    irqStep s = { s with irqCount := s.irqCount + 1#32, irqPend := false, irqArmed := false } := by
  simp [irqStep, h]

/-- After the IRQ's turn no delivery is enabled: one delivery for each arming (60_exceptions.md R234). -/
theorem irqStep_disabled (s : State) : deliverEnabled (irqStep s) = false := by
  by_cases h : deliverEnabled s = true
  · simp [irqStep_of_enabled s h, deliverEnabled]
  · rw [irqStep_of_not s (by simpa using h)]
    simpa using h

/-- A request that is not pending, or an unarmed channel, disables the delivery (60_exceptions.md R234). -/
theorem not_deliver_of_noPend {s : State} (h : s.irqPend = false) : deliverEnabled s = false := by
  simp [deliverEnabled, h]

theorem not_deliver_of_unarmed {s : State} (h : s.irqArmed = false) : deliverEnabled s = false := by
  simp [deliverEnabled, h]

end Sys2Proof.Machine
end

