-- ==== Sys2Proof/Laws/Steps.lean ====
section
/-! SUPPORT. What each shared operation can do, said once: if it answers a next state, then which. And, from these, one
principle: a property that every elementary move keeps is kept by every instruction and by every step. -/

namespace Sys2Proof.Machine

/-- A composed operation answers a next state exactly where both parts do. -/
theorem andThen_next {α β : Type} {o : Host.Outcome α Fault Refusal} {f : α → Host.Outcome β Fault Refusal} {b : β} :
    andThen o f = .next b ↔ ∃ a, o = .next a ∧ f a = .next b := by
  cases o <;> simp [andThen]

@[simp] theorem andThen_of_next {α β : Type} (a : α) (f : α → Host.Outcome β Fault Refusal) :
    andThen (.next a) f = f a := rfl

/-- A single operation completes exactly in the domain of the Montgomery product (R114, R117). -/
theorem completeMmul_next {w : Width} {d l r : Sel} {s t : State} (h : completeMmul w d l r s = .next t) :
    ∃ m a b, MmulDomain s w l r m a b ∧ t = finishOp (.op d) w (montMul a b m (bitsOf w)) s := by
  unfold completeMmul at h
  split at h
  · rename_i m a b hm ha hb
    split at h
    · rename_i hd
      injection h with h
      exact ⟨m, a, b, ⟨hm, ha, hb, hd⟩, h.symm⟩
    · cases h
  · cases h

theorem completeMmul_of_domain {w : Width} {d l r : Sel} {s : State} {m a b : Nat} (h : MmulDomain s w l r m a b) :
    completeMmul w d l r s = .next (finishOp (.op d) w (montMul a b m (bitsOf w)) s) := by
  obtain ⟨hm, ha, hb, hd⟩ := h
  simp only [completeMmul, hm, ha, hb]
  exact if_pos hd

/-- One pair bit that selects no multiplicand, or one that can be used, is a next accumulator (R120). -/
theorem autoPair_ok {mem : Memory} {w : Width} {m : Nat} {b1 b0 : Bool} (A : Nat)
    (h : ∀ S, tabSlot b1 b0 = some S → MultiplicandOk mem w m S) : ∃ A', autoPair mem w m b1 b0 A = .next A' := by
  unfold autoPair
  cases hs : tabSlot b1 b0 with
  | none => exact ⟨_, rfl⟩
  | some S =>
    obtain ⟨T, hT, hlt⟩ := h S hs
    exact ⟨montMul (montMul A A m (bitsOf w)) T m (bitsOf w), by simp only [hT, if_pos hlt]⟩

/-- One pair bit whose multiplicand has no value (R120; 10_state.md R25). -/
theorem autoPair_unwritten {mem : Memory} {w : Width} {m : Nat} {b1 b0 : Bool} {S : Slot} (A : Nat)
    (hs : tabSlot b1 b0 = some S) (h : regionVal mem S w = none) :
    autoPair mem w m b1 b0 A = .refused .unwrittenSlotWord := by
  simp only [autoPair, hs, h]

/-- One pair bit whose multiplicand is not below the modulus (R120, R123 (h)). -/
theorem autoPair_outOfDomain {mem : Memory} {w : Width} {m T : Nat} {b1 b0 : Bool} {S : Slot} (A : Nat)
    (hs : tabSlot b1 b0 = some S) (h : regionVal mem S w = some T) (hlt : m ≤ T) :
    autoPair mem w m b1 b0 A = .refused .operandOutOfDomain := by
  simp only [autoPair, hs, h, if_neg (Nat.not_lt.2 hlt)]

/-- An auto-run completes exactly where its loop does (R120, R123). -/
theorem completeAuto_next {w : Width} {s t : State} (h : completeAuto w s = .next t) :
    ∃ m A v, regionVal s.mem .mod w = some m ∧ s.fifo ≠ [] ∧ regionVal s.mem (.op cfg.acc) w = some A ∧
      m % 2 = 1 ∧ A < m ∧ autoRun s.mem w m s.fifo A = .next v ∧
      t = { finishOp (.op cfg.acc) w v s with fifo := [] } := by
  unfold completeAuto at h
  split at h
  · cases h
  · rename_i m hm
    split at h
    · cases h
    · rename_i hf
      split at h
      · cases h
      · rename_i A hA
        split at h
        · rename_i hd
          obtain ⟨v, hv, ht⟩ := andThen_next.1 h
          injection ht with ht
          exact ⟨m, A, v, hm, hf, hA, hd.1, hd.2, hv, ht.symm⟩
        · cases h

/-- The four things a step of the engine can do (R112, R114, R120). -/
theorem engineStep_next {s t : State} (h : engineStep s = .next t) :
    (s.eng = .idle ∧ t = s) ∨
    (∃ c, s.eng = .latching c ∧ t = { s with eng := busyOf c }) ∨
    (∃ w d l r, s.eng = .busyMmul w d l r ∧ completeMmul w d l r s = .next t) ∨
    (∃ w, s.eng = .busyAuto w ∧ completeAuto w s = .next t) := by
  unfold engineStep at h
  split at h
  · rename_i he
    injection h with h
    exact .inl ⟨he, h.symm⟩
  · rename_i c he
    injection h with h
    exact .inr (.inl ⟨c, he, h.symm⟩)
  · rename_i w d l r he
    exact .inr (.inr (.inl ⟨w, d, l, r, he, h⟩))
  · rename_i w he
    exact .inr (.inr (.inr ⟨w, he, h⟩))

theorem engineStep_idle {s : State} (h : s.eng = .idle) : engineStep s = .next s := by
  simp [engineStep, h]

theorem engineStep_latching {s : State} {c : Cmd} (h : s.eng = .latching c) :
    engineStep s = .next { s with eng := busyOf c } := by
  simp [engineStep, h]

/-- A write of a word: the engine is idle (20_memory.md R57, R66). -/
theorem writeData_next {a : Nat} {v : Word} {s t : State} (h : writeData a v s = .next t) :
    s.eng = .idle ∧ t = { s with mem := setWord s.mem a v } := by
  unfold writeData busy at h
  split at h
  · cases h
  · rename_i hb
    injection h with h
    exact ⟨by simpa using hb, h.symm⟩

theorem writeData_idle {s : State} (a : Nat) (v : Word) (h : s.eng = .idle) :
    writeData a v s = .next { s with mem := setWord s.mem a v } := by
  simp [writeData, busy, h]

/-- A read of a word: the word, or a draw while the engine is not idle (20_memory.md R56, R66). -/
theorem readData_next {a : Nat} {s t : State} (h : readData a s = .next t) :
    (s.eng ≠ .idle ∧ t = { s with ret := .word (Config.drawWord s.draws), draws := s.draws + 1 }) ∨
    (s.eng = .idle ∧ ∃ v, getWord s.mem a = some v ∧ t = { s with ret := .word v }) := by
  unfold readData busy at h
  split at h
  · rename_i hb
    injection h with h
    exact .inl ⟨by simpa using hb, h.symm⟩
  · rename_i hb
    split at h
    · rename_i v hv
      injection h with h
      exact .inr ⟨by simpa using hb, v, hv, h.symm⟩
    · cases h

theorem readData_idle {s : State} {a : Nat} {v : Word} (h : s.eng = .idle) (hv : getWord s.mem a = some v) :
    readData a s = .next { s with ret := .word v } := by
  simp [readData, busy, h, hv]

/-- A push: the engine is idle and there is room (41_host_primitives.md R146). -/
theorem pushFifo_next {v : Word} {s t : State} (h : pushFifo v s = .next t) :
    s.eng = .idle ∧ s.fifo.length < Config.fifoDepth ∧ t = { s with fifo := s.fifo ++ [v] } := by
  unfold pushFifo busy at h
  split at h
  · cases h
  · rename_i hb
    split at h
    · rename_i hl
      injection h with h
      exact ⟨by simpa using hb, hl, h.symm⟩
    · cases h

/-- What a write of CTRL can do (40_engine_ops.md R112, R113): launch, store, or withdraw an unlatched strobe. -/
theorem writeCtrl_next {v : Word} {s t : State} (h : writeCtrl v s = .next t) :
    (∃ c, s.eng = .idle ∧ fieldStart s.ctrl = false ∧ fieldStart v = true ∧ decodeCmd v = some c ∧
      t = { s with ctrl := v, eng := .latching c }) ∨
    (s.eng = .idle ∧ (fieldStart s.ctrl = true ∨ fieldStart v = false) ∧ t = { s with ctrl := v }) ∨
    (s.eng ≠ .idle ∧ (fieldStart s.ctrl = true ∨ fieldStart v = false) ∧
      (v ^^^ s.ctrl) &&& (cmdMask &&& ~~~startMask) = 0#32 ∧
      ((fieldStart s.ctrl = true ∧ fieldStart v = false ∧ latching s = true ∧ t = { s with ctrl := v, eng := .idle }) ∨
       ((fieldStart s.ctrl = false ∨ fieldStart v = true ∨ latching s = false) ∧ t = { s with ctrl := v }))) := by
  unfold writeCtrl at h
  split at h
  · rename_i he
    split at h
    · rename_i hs
      split at h
      · rename_i c hc
        injection h with h
        simp only [Bool.and_eq_true, Bool.not_eq_true'] at hs
        exact .inl ⟨c, he, hs.1, hs.2, hc, h.symm⟩
      · cases h
    · rename_i hs
      injection h with h
      refine .inr (.inl ⟨he, ?_, h.symm⟩)
      revert hs
      cases fieldStart s.ctrl <;> cases fieldStart v <;> simp
  · rename_i he
    split at h
    · cases h
    · rename_i hs
      split at h
      · cases h
      · rename_i hm
        have hs' : fieldStart s.ctrl = true ∨ fieldStart v = false := by
          revert hs
          cases fieldStart s.ctrl <;> cases fieldStart v <;> simp
        have hm' : (v ^^^ s.ctrl) &&& (cmdMask &&& ~~~startMask) = 0#32 := by simpa using hm
        refine .inr (.inr ⟨he, hs', hm', ?_⟩)
        split at h
        · rename_i hw
          injection h with h
          simp only [Bool.and_eq_true, Bool.not_eq_true'] at hw
          exact .inl ⟨hw.1.1, hw.1.2, hw.2, h.symm⟩
        · rename_i hw
          injection h with h
          refine .inr ⟨?_, h.symm⟩
          revert hw
          cases fieldStart s.ctrl <;> cases fieldStart v <;> cases latching s <;> simp

/-! ### One principle for every instruction -/

/-- A property that each elementary move keeps: the agents' own steps, the bookkeeping of the model's own fields, and
each access and session update a wrapper operation makes. -/
structure Keeps (P : State → Prop) : Prop where
  engine : ∀ s t, P s → engineStep s = .next t → P t
  deliver : ∀ s, P s → P (irqStep s)
  sched : ∀ s ts, P s → P { s with sched := ts }
  ret : ∀ s r, P s → P { s with ret := r }
  log : ∀ s l, P s → P { s with log := l }
  draws : ∀ s n, P s → P { s with draws := n }
  mapFails : ∀ s l, P s → P { s with mapFails := l }
  store : ∀ s S i v, i < 48 → s.eng = .idle → P s → P { s with mem := setWord s.mem (wordAddr S i) v }
  push : ∀ s v, s.eng = .idle → s.fifo.length < Config.fifoDepth → P s → P { s with fifo := s.fifo ++ [v] }
  ctrl : ∀ s t v, P s → writeCtrl v s = .next t → P t
  arm : ∀ s, P s → P { s with irqArmed := true }
  seen : ∀ s, P s → P { s with chanSeen := s.irqCount }
  timeout : ∀ s, P s → P { s with sess := { s.sess with desync := true } }
  last : ∀ s c, P s → P { s with sess := { s.sess with lastCount := c } }
  close : ∀ s, P s → P { s with sess := { s.sess with isOpen := false } }

/-- What W IER alone writes survives; so for the other three. -/
def KeepsIer (P : State → Prop) : Prop := ∀ s v, P s → P { s with ier := v }

def KeepsGie (P : State → Prop) : Prop := ∀ s v, P s → P { s with gie := v }

/-- What open writes to the session survives (42_protocol_wrapper.md R170). -/
def KeepsOpened (P : State → Prop) : Prop := ∀ s, P s → P { s with sess := openedSession s.sess }

/-- What updateModulus writes to the session survives (42_protocol_wrapper.md R196). -/
def KeepsModulus (P : State → Prop) : Prop := ∀ s m n w, widthOfBits n = some w → P s → P (setModulus m n w s)

/-- An operation keeps a property. -/
def OpKeeps (P : State → Prop) (f : State → Result) : Prop := ∀ s t, P s → f s = .next t → P t

theorem runAll_nil_keeps {P : State → Prop} : OpKeeps P (runAll []) := by
  intro s t hs h
  injection h with h
  exact h ▸ hs

theorem runAll_cons_keeps {P : State → Prop} {f : State → Result} {fs : List (State → Result)} (hf : OpKeeps P f)
    (hfs : OpKeeps P (runAll fs)) : OpKeeps P (runAll (f :: fs)) := by
  intro s t hs h
  obtain ⟨a, ha, hb⟩ := andThen_next.1 h
  exact hfs a t (hf s a hs ha) hb

theorem ambient_keeps {P : State → Prop} {seq : Width → Nat → State → Result} (h : ∀ w r2, OpKeeps P (seq w r2)) :
    OpKeeps P (ambient seq) := by
  intro s t hs he
  unfold ambient at he
  split at he
  · cases he
  · exact h _ _ s t hs he

section
variable {P : State → Prop} (K : Keeps P)
include K

theorem agentsGo_keeps (ts : List Turn) : OpKeeps P (agentsGo ts) := by
  induction ts with
  | nil =>
    intro s t hs h
    injection h with h
    exact h ▸ K.sched s _ hs
  | cons x ts ih =>
    intro s t hs h
    cases x with
    | host =>
      injection h with h
      exact h ▸ K.sched s _ hs
    | timeout => exact ih s t hs h
    | irq => exact ih _ t (K.deliver s hs) h
    | engine =>
      obtain ⟨a, ha, hb⟩ := andThen_next.1 h
      exact ih a t (K.engine s a hs ha) hb

theorem turn_keeps {f : State → Result} (hf : OpKeeps P f) : OpKeeps P (turn f) := by
  intro s t hs h
  obtain ⟨a, ha, hb⟩ := andThen_next.1 h
  exact hf a t (agentsGo_keeps K _ s a hs ha) hb

theorem readData_keeps (a : Nat) : OpKeeps P (readData a) := by
  intro s t hs h
  obtain ⟨-, rfl⟩ | ⟨-, v, -, rfl⟩ := readData_next h
  · exact K.draws _ (s.draws + 1) (K.ret s (.word (Config.drawWord s.draws)) hs)
  · exact K.ret s _ hs

theorem takeCount_keeps (s : State) (hs : P s) : P (takeCount s) :=
  K.ret _ (.count (some s.irqCount)) (K.seen s hs)

theorem drain_keeps : OpKeeps P drain := by
  intro s t hs h
  obtain ⟨a, ha, hb⟩ := andThen_next.1 h
  obtain ⟨b, hb, hc⟩ := andThen_next.1 hb
  injection hc with hc
  exact hc ▸ K.deliver b (K.engine a b (K.engine s a hs ha) hb)

theorem cntGo_keeps (ts : List Turn) : OpKeeps P (cntGo ts) := by
  induction ts with
  | nil =>
    intro s t hs h
    unfold cntGo at h
    split at h
    · injection h with h
      exact h ▸ takeCount_keeps K _ (K.sched s _ hs)
    · obtain ⟨a, ha, hb⟩ := andThen_next.1 h
      have hPa := drain_keeps K _ a (K.sched s [] hs) ha
      split at hb
      · injection hb with hb
        exact hb ▸ takeCount_keeps K a hPa
      · injection hb with hb
        exact hb ▸ K.ret a _ hPa
  | cons x ts ih =>
    intro s t hs h
    unfold cntGo at h
    split at h
    · injection h with h
      exact h ▸ takeCount_keeps K _ (K.sched s _ hs)
    · cases x with
      | host => exact ih s t hs h
      | irq => exact ih _ t (K.deliver s hs) h
      | timeout =>
        injection h with h
        exact h ▸ K.ret _ (.count none) (K.sched s ts hs)
      | engine =>
        obtain ⟨a, ha, hb⟩ := andThen_next.1 h
        exact ih a t (K.engine s a hs ha) hb

theorem delayGo_keeps (ts : List Turn) : OpKeeps P (delayGo ts) := by
  induction ts with
  | nil =>
    intro s t hs h
    unfold delayGo at h
    split at h
    · obtain ⟨a, ha, hb⟩ := andThen_next.1 h
      injection hb with hb
      exact hb ▸ K.sched a _ (K.engine s a hs ha)
    · injection h with h
      exact h ▸ K.sched s _ hs
  | cons x ts ih =>
    intro s t hs h
    unfold delayGo at h
    split at h
    · cases x with
      | host => exact ih s t hs h
      | timeout => exact ih s t hs h
      | irq => exact ih _ t (K.deliver s hs) h
      | engine =>
        obtain ⟨a, ha, hb⟩ := andThen_next.1 h
        exact ih a t (K.engine s a hs ha) hb
    · injection h with h
      exact h ▸ K.sched s _ hs

theorem returnDone_keeps : OpKeeps P returnDone := by
  intro s t hs h
  injection h with h
  exact h ▸ K.ret s _ hs

theorem raise_keeps (e : HostError) : OpKeeps P (raise e) := by
  intro s t hs h
  injection h with h
  exact h ▸ K.log _ (if e = .unsupportedWidth then s.log ++ [e] else s.log) (K.ret s (.error e) hs)

theorem writeWords_keeps (S : Slot) (vs : List Word) (j : Nat) (h : j + vs.length ≤ 48) :
    OpKeeps P (writeWords vs (wordAddr S j)) := by
  induction vs generalizing j with
  | nil =>
    intro s t hs he
    injection he with he
    exact he ▸ hs
  | cons v vs ih =>
    simp only [List.length_cons] at h
    intro s t hs he
    obtain ⟨a, ha, hb⟩ := andThen_next.1 he
    have hw : OpKeeps P (writeData (wordAddr S j) v) := by
      intro s' t' hs' hw
      obtain ⟨hi, rfl⟩ := writeData_next hw
      exact K.store s' S j v (by omega) hi hs'
    have hadd : wordAddr S j + cfg.stride = wordAddr S (j + 1) := by
      simp only [wordAddr, cfg_stride]
      omega
    rw [hadd] at hb
    exact ih (j + 1) (by omega) a t (turn_keeps K hw s a hs ha) hb

theorem wrs_keeps (S : Slot) (w : Width) (v : Nat) : OpKeeps P (wrs S w v) := by
  intro s t hs h
  obtain ⟨a, ha, hb⟩ := andThen_next.1 h
  rw [show slotBase S = wordAddr S 0 by simp [wordAddr]] at ha
  exact returnDone_keeps K a t (writeWords_keeps K S _ 0 (by simp) s a hs ha) hb

theorem readWords_keeps (k a : Nat) (acc : List Word) : OpKeeps P (readWords k a acc) := by
  induction k generalizing a acc with
  | zero =>
    intro s t hs h
    injection h with h
    exact h ▸ K.ret s _ hs
  | succ k ih =>
    intro s t hs h
    obtain ⟨b, hb, hc⟩ := andThen_next.1 h
    exact ih _ _ b t (turn_keeps K (readData_keeps K a) s b hs hb) hc

theorem rds_keeps (S : Slot) (w : Width) : OpKeeps P (rds S w) := readWords_keeps K _ _ _

theorem writeCtrl_keeps (v : Word) : OpKeeps P (writeCtrl v) := fun s t hs h => K.ctrl s t v hs h

theorem armChannel_keeps : OpKeeps P armChannel := by
  intro s t hs h
  injection h with h
  exact h ▸ K.arm s hs

theorem settleDelay_keeps : OpKeeps P settleDelay := fun s t hs h => delayGo_keeps K _ s t hs h

theorem strobe_keeps (g : Word → Word) : OpKeeps P (strobe g) := by
  refine turn_keeps K ?_
  intro s t hs h
  exact runAll_cons_keeps (turn_keeps K (writeCtrl_keeps K _)) (runAll_cons_keeps (settleDelay_keeps K)
    (runAll_cons_keeps (turn_keeps K (writeCtrl_keeps K _)) (runAll_cons_keeps (returnDone_keeps K) runAll_nil_keeps)))
    _ t (K.ret s (.word s.ctrl) hs) h

theorem startSingleOp_keeps (w : Width) (d l r : Sel) : OpKeeps P (startSingleOp w d l r) :=
  strobe_keeps K (fun old => singleWord1 old w d l r)

theorem startAutoOp_keeps (w : Width) : OpKeeps P (startAutoOp w) :=
  strobe_keeps K (fun old => autoWord1 old w)

theorem pushFifo_keeps (v : Word) : OpKeeps P (pushFifo v) := by
  intro s t hs h
  obtain ⟨hi, hl, rfl⟩ := pushFifo_next h
  exact K.push s v hi hl hs

theorem pushWords_keeps (vs : List Word) : OpKeeps P (pushWords vs) := by
  induction vs with
  | nil =>
    intro s t hs h
    injection h with h
    exact h ▸ hs
  | cons v vs ih =>
    intro s t hs h
    obtain ⟨b, hb, hc⟩ := andThen_next.1 h
    exact ih b t (turn_keeps K (pushFifo_keeps K v) s b hs hb) hc

theorem pushExponent_keeps (e0 : Nat) (e1 : Option Nat) (t : Nat) : OpKeeps P (pushExponent e0 e1 t) := by
  intro s u hs h
  unfold pushExponent at h
  split at h
  · exact raise_keeps K _ s u hs h
  · obtain ⟨b, hb, hc⟩ := andThen_next.1 h
    exact returnDone_keeps K b u (pushWords_keeps K _ s b hs hb) hc

theorem endWait_keeps (c : Option Word) : OpKeeps P (endWait c) := by
  intro s t hs h
  obtain ⟨b, hb, hc⟩ := andThen_next.1 h
  injection hc with hc
  exact hc ▸ K.ret _ .done (K.last b (c.getD b.sess.lastCount) (turn_keeps K (armChannel_keeps K) s b hs hb))

theorem timedOut_keeps (s : State) (hs : P s) : P (timedOut s) :=
  K.timeout _ (K.log s (s.log ++ [HostError.completionTimeout]) hs)

theorem waitLoop_keeps (k : Nat) (c : Option Word) : OpKeeps P (waitLoop k c) := by
  induction k generalizing c with
  | zero =>
    intro s t hs h
    exact endWait_keeps K c _ t (timedOut_keeps K s hs) h
  | succ k ih =>
    intro s t hs h
    obtain ⟨b, hb, hc⟩ := andThen_next.1 h
    have hPb := cntGo_keeps K _ s b hs hb
    split at hc
    · exact endWait_keeps K _ _ t (timedOut_keeps K b hPb) hc
    · split at hc
      · exact endWait_keeps K _ b t hPb hc
      · exact ih _ b t hPb hc

theorem waitOp_keeps : OpKeeps P waitOp := waitLoop_keeps K _ _

theorem singleRound_keeps (w : Width) (d l r : Sel) : OpKeeps P (singleRound w d l r) :=
  runAll_cons_keeps (startSingleOp_keeps K w d l r) (runAll_cons_keeps (waitOp_keeps K) runAll_nil_keeps)

theorem autoRound_keeps (w : Width) : OpKeeps P (autoRound w) :=
  runAll_cons_keeps (startAutoOp_keeps K w) (runAll_cons_keeps (waitOp_keeps K) runAll_nil_keeps)

theorem mulSeq_keeps (w : Width) (r2 x y : Nat) : OpKeeps P (mulSeq w r2 x y) :=
  runAll_cons_keeps (wrs_keeps K _ _ _) <| runAll_cons_keeps (wrs_keeps K _ _ _) <|
  runAll_cons_keeps (wrs_keeps K _ _ _) <| runAll_cons_keeps (singleRound_keeps K _ _ _ _) <|
  runAll_cons_keeps (singleRound_keeps K _ _ _ _) <| runAll_cons_keeps (rds_keeps K _ _) runAll_nil_keeps

theorem expSeq_keeps (w : Width) (r2 g e t : Nat) : OpKeeps P (expSeq w r2 g e t) :=
  runAll_cons_keeps (wrs_keeps K _ _ _) <| runAll_cons_keeps (wrs_keeps K _ _ _) <|
  runAll_cons_keeps (wrs_keeps K _ _ _) <| runAll_cons_keeps (singleRound_keeps K _ _ _ _) <|
  runAll_cons_keeps (singleRound_keeps K _ _ _ _) <| runAll_cons_keeps (pushExponent_keeps K _ _ _) <|
  runAll_cons_keeps (autoRound_keeps K _) <| runAll_cons_keeps (singleRound_keeps K _ _ _ _) <|
  runAll_cons_keeps (rds_keeps K _ _) runAll_nil_keeps

theorem dexpSeq_keeps (w : Width) (r2 g0 e0 g1 e1 t : Nat) : OpKeeps P (dexpSeq w r2 g0 e0 g1 e1 t) :=
  runAll_cons_keeps (wrs_keeps K _ _ _) <| runAll_cons_keeps (wrs_keeps K _ _ _) <|
  runAll_cons_keeps (wrs_keeps K _ _ _) <| runAll_cons_keeps (wrs_keeps K _ _ _) <|
  runAll_cons_keeps (singleRound_keeps K _ _ _ _) <| runAll_cons_keeps (singleRound_keeps K _ _ _ _) <|
  runAll_cons_keeps (singleRound_keeps K _ _ _ _) <| runAll_cons_keeps (singleRound_keeps K _ _ _ _) <|
  runAll_cons_keeps (pushExponent_keeps K _ _ _) <| runAll_cons_keeps (autoRound_keeps K _) <|
  runAll_cons_keeps (wrs_keeps K _ _ _) <| runAll_cons_keeps (singleRound_keeps K _ _ _ _) <|
  runAll_cons_keeps (rds_keeps K _ _) runAll_nil_keeps

theorem withModulus_keeps {seq : Width → Nat → State → Result} (h : ∀ w r2, OpKeeps P (seq w r2)) (m n : Nat) (w : Width) :
    OpKeeps P (withModulus m n w seq) := by
  intro s t hs he
  obtain ⟨b, hb, hc⟩ := andThen_next.1 he
  exact h _ _ b t (wrs_keeps K _ _ _ s b hs hb) hc

theorem readSlot_keeps (S : Slot) (i : BitVec 6) : OpKeeps P (readSlot S i) := by
  intro s t hs h
  unfold readSlot at h
  split at h
  · exact readData_keeps K _ s t hs h
  · cases h

theorem writeSlot_keeps (S : Slot) (i : BitVec 6) (v : Word) : OpKeeps P (writeSlot S i v) := by
  intro s t hs h
  unfold writeSlot at h
  split at h
  · rename_i hi
    obtain ⟨he, rfl⟩ := writeData_next h
    exact K.store s S i.toNat v (of_decide_eq_true hi) he hs
  · cases h

omit K in
theorem writeIer_keeps (h : KeepsIer P) (v : Word) : OpKeeps P (writeIer v) := by
  intro s t hs he
  injection he with he
  exact he ▸ h s v hs

omit K in
theorem writeGie_keeps (h : KeepsGie P) (v : Word) : OpKeeps P (writeGie v) := by
  intro s t hs he
  injection he with he
  exact he ▸ h s v hs

theorem openOp_keeps (hi : KeepsIer P) (hg : KeepsGie P) (hopen : KeepsOpened P) : OpKeeps P openOp := by
  have hier := writeIer_keeps hi cfg.ierMask
  have hgie := writeGie_keeps hg cfg.gieMask
  intro s t hs h
  unfold openOp at h
  split at h
  · cases h
  · split at h
    · exact raise_keeps K _ _ t (K.mapFails s s.mapFails.tail hs) h
    · obtain ⟨b, hb, hc⟩ := andThen_next.1 h
      injection hc with hc
      have hPb : P b := runAll_cons_keeps (turn_keeps K hier) (runAll_cons_keeps (turn_keeps K hgie)
        (runAll_cons_keeps (turn_keeps K (armChannel_keeps K)) runAll_nil_keeps)) _ b
        (K.seen _ (K.mapFails s s.mapFails.tail hs)) hb
      exact hc ▸ K.ret _ .done (hopen b hPb)

theorem updateModulus_keeps (hm : KeepsModulus P) (m n : Nat) : OpKeeps P (updateModulus m n) := by
  intro s t hs h
  unfold updateModulus at h
  split at h
  · exact raise_keeps K _ s t hs h
  · rename_i w hw
    exact wrs_keeps K _ _ _ _ t (hm s m n w hw hs) h

theorem execMul_keeps (x y : Nat) (mn : Option (Nat × Nat)) : OpKeeps P (execMul x y mn) := by
  intro s t hs h
  unfold execMul at h
  split at h
  · exact ambient_keeps (fun w r2 => mulSeq_keeps K w r2 x y) s t hs h
  · split at h
    · exact raise_keeps K _ s t hs h
    · exact withModulus_keeps K (fun w r2 => mulSeq_keeps K w r2 x y) _ _ _ s t hs h

theorem execExp_keeps (g e n : Nat) (mn : Option (Nat × Nat)) : OpKeeps P (execExp g e n mn) := by
  intro s t hs h
  unfold execExp at h
  split at h
  · split at h
    · exact raise_keeps K _ s t hs h
    · exact ambient_keeps (fun w r2 => expSeq_keeps K w r2 g e n) s t hs h
  · split at h
    · exact raise_keeps K _ s t hs h
    · split at h
      · exact raise_keeps K _ s t hs h
      · exact withModulus_keeps K (fun w r2 => expSeq_keeps K w r2 g e n) _ _ _ s t hs h

theorem execDexp_keeps (g0 e0 g1 e1 n : Nat) (mn : Option (Nat × Nat)) : OpKeeps P (execDexp g0 e0 g1 e1 n mn) := by
  intro s t hs h
  unfold execDexp at h
  split at h
  · split at h
    · exact raise_keeps K _ s t hs h
    · exact ambient_keeps (fun w r2 => dexpSeq_keeps K w r2 g0 e0 g1 e1 n) s t hs h
  · split at h
    · exact raise_keeps K _ s t hs h
    · split at h
      · exact raise_keeps K _ s t hs h
      · exact withModulus_keeps K (fun w r2 => dexpSeq_keeps K w r2 g0 e0 g1 e1 n) _ _ _ s t hs h

theorem execSlotImage_keeps (S : Slot) (img : List Word) : OpKeeps P (execSlotImage S img) := by
  intro s t hs h
  unfold execSlotImage at h
  split at h
  · rename_i hl
    rw [show slotBase S = wordAddr S 0 by simp [wordAddr]] at h
    exact writeWords_keeps K S img 0 (by simp_all) s t hs h
  · cases h

/-- A property each elementary move keeps is kept by every instruction; for the four rows that write what no other row
writes it must also survive that write. -/
theorem exec_keeps (i : Instr) (hier : ∀ v, i = .wIer v → KeepsIer P) (hgie : ∀ v, i = .wGie v → KeepsGie P)
    (hopen : i = .openSession → KeepsIer P ∧ KeepsGie P ∧ KeepsOpened P)
    (hmod : ∀ m n, i = .updmod m n → KeepsModulus P) : OpKeeps P (exec i) := by
  cases i with
  | mmulL x d l r => exact writeCtrl_keeps K _
  | mmulH x d l r => exact writeCtrl_keeps K _
  | mmulT x d l r => exact writeCtrl_keeps K _
  | autoL x => exact writeCtrl_keeps K _
  | autoH x => exact writeCtrl_keeps K _
  | autoT x => exact writeCtrl_keeps K _
  | idleWord x a p d l r => exact writeCtrl_keeps K _
  | reservedPart x a d l r => exact writeCtrl_keeps K _
  | reservedAuto x p d l r => exact writeCtrl_keeps K _
  | expw e1 e0 => exact pushFifo_keeps K _
  | slotImage S img => exact execSlotImage_keeps K S img
  | rMod i => exact readSlot_keeps K _ i
  | wMod i v => exact writeSlot_keeps K _ i v
  | rOp0 i => exact readSlot_keeps K _ i
  | wOp0 i v => exact writeSlot_keeps K _ i v
  | rOp1 i => exact readSlot_keeps K _ i
  | wOp1 i v => exact writeSlot_keeps K _ i v
  | rOp2 i => exact readSlot_keeps K _ i
  | wOp2 i v => exact writeSlot_keeps K _ i v
  | rOp3 i => exact readSlot_keeps K _ i
  | wOp3 i v => exact writeSlot_keeps K _ i v
  | wFifo v => exact pushFifo_keeps K v
  | rFifo =>
    intro s t hs h
    cases h
  | rCtrl =>
    intro s t hs h
    injection h with h
    exact h ▸ K.ret s _ hs
  | wCtrl v => exact writeCtrl_keeps K v
  | rGie =>
    intro s t hs h
    injection h with h
    exact h ▸ K.ret s _ hs
  | wGie v => exact writeGie_keeps (hgie v rfl) v
  | rIer =>
    intro s t hs h
    injection h with h
    exact h ▸ K.ret s _ hs
  | wIer v => exact writeIer_keeps (hier v rfl) v
  | arm => exact armChannel_keeps K
  | cnt => exact fun s t hs h => cntGo_keeps K _ s t hs h
  | delay => exact settleDelay_keeps K
  | openSession => exact openOp_keeps K (hopen rfl).1 (hopen rfl).2.1 (hopen rfl).2.2
  | closeSession =>
    intro s t hs h
    injection h with h
    exact h ▸ K.ret _ .done (K.close s hs)
  | wrs S w v => exact wrs_keeps K S w v
  | rds S w => exact rds_keeps K S w
  | startSingle w d l r => exact startSingleOp_keeps K w d l r
  | startAuto w => exact startAutoOp_keeps K w
  | pushe e0 e1 t => exact pushExponent_keeps K e0 e1 t
  | wait => exact waitOp_keeps K
  | updmod m n => exact updateModulus_keeps K (hmod m n rfl) m n
  | mul x y mn => exact execMul_keeps K x y mn
  | exp g e t mn => exact execExp_keeps K g e t mn
  | dexp g0 e0 g1 e1 t mn => exact execDexp_keeps K g0 e0 g1 e1 t mn

/-- The same for a step: moreover the property must survive the host's taking its next request. -/
theorem step_keeps (hprog : ∀ s q, P s → P { s with prog := q })
    (hier : KeepsIer P) (hgie : KeepsGie P) (hopen : KeepsOpened P) (hmod : KeepsModulus P) : OpKeeps P step := by
  have hhost : OpKeeps P hostStep := by
    intro s t hs h
    unfold hostStep at h
    split at h
    · unfold freeRun at h
      split at h
      · injection h with h
        exact h ▸ K.deliver s hs
      · exact K.engine s t hs h
    · split at h
      · rename_i i hi
        exact exec_keeps K i (fun _ _ => hier) (fun _ _ => hgie) (fun _ => ⟨hier, hgie, hopen⟩) (fun _ _ _ => hmod) _ t (hprog s _ hs) h
      · cases h
  intro s t hs h
  unfold step at h
  split at h
  · exact hhost s t hs h
  · exact hhost _ t (K.sched s _ hs) h
  · injection h with h
    exact h ▸ K.sched s _ hs
  · exact K.engine _ t (K.sched s _ hs) h
  · injection h with h
    exact h ▸ K.deliver _ (K.sched s _ hs)

end

end Sys2Proof.Machine
end

