-- ==== Sys2Proof/Laws/Agents.lean ====
section
/-! SUPPORT. What the other agents' turns do: nothing but at most one delivery while the engine is idle, and nothing at all
when nothing is pending. -/

namespace Sys2Proof.Machine

theorem upToIrq_refl (s : State) : UpToIrq s s := ⟨.inl ⟨rfl, rfl, rfl⟩, List.suffix_refl _, rfl⟩

theorem irqEnabled_congr {s t : State} (h1 : t.ier = s.ier) (h2 : t.gie = s.gie) : irqEnabled t = irqEnabled s := by
  simp only [irqEnabled, h1, h2]

theorem upToIrq_trans {s t u : State} (h : UpToIrq s t) (h' : UpToIrq t u) : UpToIrq s u := by
  obtain ⟨hm, hs, he⟩ := h
  obtain ⟨hm', hs', he'⟩ := h'
  refine ⟨?_, hs'.trans hs, ?_⟩
  · rcases hm with ⟨h1, h2, h3⟩ | ⟨h0, h1, h2, h3⟩
    · rcases hm' with ⟨g1, g2, g3⟩ | ⟨g0, g1, g2, g3⟩
      · exact .inl ⟨g1.trans h1, g2.trans h2, g3.trans h3⟩
      · refine .inr ⟨?_, by rw [g1, h1], g2, g3⟩
        have : irqEnabled t = irqEnabled s := irqEnabled_congr (by rw [he]) (by rw [he])
        rw [← g0]
        simp only [deliverEnabled, h2, h3, this]
    · rcases hm' with ⟨g1, g2, g3⟩ | ⟨g0, g1, g2, g3⟩
      · exact .inr ⟨h0, g1.trans h1, g2.trans h2, g3.trans h3⟩
      · simp [deliverEnabled, h2] at g0
  · rw [he'] at *
    rw [he]

/-- The IRQ's turn is nothing, or the one delivery. -/
theorem upToIrq_irqStep (s : State) : UpToIrq s (irqStep s) := by
  by_cases h : deliverEnabled s = true
  · rw [irqStep_of_enabled s h]
    exact ⟨.inr ⟨h, rfl, rfl, rfl⟩, List.suffix_refl _, rfl⟩
  · rw [irqStep_of_not s (by simpa using h)]
    exact upToIrq_refl s

theorem upToIrq_eng {s t : State} (h : UpToIrq s t) : t.eng = s.eng := by rw [h.2.2]

/-- Turns used are the only change. -/
theorem upToIrq_sched (s : State) {ts : List Turn} (h : ts <:+ s.sched) : UpToIrq s { s with sched := ts } :=
  ⟨.inl ⟨rfl, rfl, rfl⟩, h, rfl⟩

/-- Where no delivery is enabled, nothing but the schedule can differ. -/
theorem upToIrq_of_not {s t : State} (h : UpToIrq s t) (hn : deliverEnabled s = false) : t = { s with sched := t.sched } := by
  obtain ⟨hm, -, he⟩ := h
  rcases hm with ⟨h1, h2, h3⟩ | ⟨h0, -⟩
  · rw [h1, h2, h3] at he
    exact he
  · rw [h0] at hn
    cases hn

/-- An idle engine: the turns before an access change nothing but the interrupt path (60_exceptions.md R234). -/
theorem agentsGo_idle (ts : List Turn) {s : State} (he : s.eng = .idle) (hs : ts <:+ s.sched) :
    ∃ t, agentsGo ts s = .next t ∧ UpToIrq s t := by
  induction ts generalizing s with
  | nil => exact ⟨_, rfl, upToIrq_sched s hs⟩
  | cons x ts ih =>
    have hs' : ts <:+ s.sched := (List.suffix_cons x ts).trans hs
    cases x with
    | host => exact ⟨_, rfl, upToIrq_sched s hs'⟩
    | timeout => exact ih he hs'
    | irq =>
      obtain ⟨t, ht, hu⟩ := ih (s := irqStep s) (by simpa using he) (by simpa using hs')
      exact ⟨t, ht, upToIrq_trans (upToIrq_irqStep s) hu⟩
    | engine =>
      obtain ⟨t, ht, hu⟩ := ih he hs'
      exact ⟨t, by simp only [agentsGo, engineStep_idle he, andThen_of_next, ht], hu⟩

theorem agents_idle {s : State} (he : s.eng = .idle) : ∃ t, agents s = .next t ∧ UpToIrq s t :=
  agentsGo_idle _ he (List.suffix_refl _)

/-- An access inside an operation, the engine idle: the turns before it, then the access. -/
theorem turn_idle {s : State} (he : s.eng = .idle) (f : State → Result) : ∃ t, turn f s = f t ∧ UpToIrq s t := by
  obtain ⟨t, ht, hu⟩ := agents_idle he
  exact ⟨t, by simp only [turn, ht, andThen_of_next], hu⟩

/-- A change outside the interrupt path and the schedule commutes with the turns: for storage. -/
theorem upToIrq_mem {s t : State} (h : UpToIrq s t) (m : Memory) : UpToIrq { s with mem := m } { t with mem := m } := by
  obtain ⟨hm, hs, he⟩ := h
  refine ⟨?_, hs, ?_⟩
  · rcases hm with hm | ⟨h0, hm⟩
    · exact .inl hm
    · exact .inr ⟨h0, hm⟩
  · rw [he]

theorem upToIrq_ret {s t : State} (h : UpToIrq s t) (r : Ret) : UpToIrq { s with ret := r } { t with ret := r } := by
  obtain ⟨hm, hs, he⟩ := h
  refine ⟨?_, hs, ?_⟩
  · rcases hm with hm | ⟨h0, hm⟩
    · exact .inl hm
    · exact .inr ⟨h0, hm⟩
  · rw [he]

theorem upToIrq_fifo {s t : State} (h : UpToIrq s t) (q : List Word) :
    UpToIrq { s with fifo := q } { t with fifo := q } := by
  obtain ⟨hm, hs, he⟩ := h
  refine ⟨?_, hs, ?_⟩
  · rcases hm with hm | ⟨h0, hm⟩
    · exact .inl hm
    · exact .inr ⟨h0, hm⟩
  · rw [he]

/-- A run of word writes, the engine idle (42_protocol_wrapper.md R174). -/
theorem writeWords_idle (vs : List Word) (a : Nat) {s : State} (he : s.eng = .idle) :
    ∃ t, writeWords vs a s = .next t ∧ UpToIrq { s with mem := writeRun s.mem a vs } t := by
  induction vs generalizing a s with
  | nil => exact ⟨s, rfl, upToIrq_refl s⟩
  | cons v vs ih =>
    obtain ⟨t, ht, hu⟩ := turn_idle he (writeData a v)
    have het : t.eng = .idle := (upToIrq_eng hu).trans he
    rw [writeData_idle a v het] at ht
    have hm : t.mem = s.mem := by rw [hu.2.2]
    obtain ⟨u, hu1, hu2⟩ := ih (a + cfg.stride) (s := { t with mem := setWord t.mem a v }) het
    refine ⟨u, by simp only [writeWords, ht, andThen_of_next, hu1], ?_⟩
    have := upToIrq_mem hu (writeRun (setWord s.mem a v) (a + cfg.stride) vs)
    rw [hm] at hu2
    exact upToIrq_trans this hu2

/-- A slot write, the engine idle (42_protocol_wrapper.md R174). -/
theorem wrs_idle (S : Slot) (w : Width) (v : Nat) {s : State} (he : s.eng = .idle) :
    ∃ t, wrs S w v s = .next t ∧
      UpToIrq { s with mem := writeRun s.mem (slotBase S) (slotImageOf v w), ret := .done } t := by
  obtain ⟨t, ht, hu⟩ := writeWords_idle (slotImageOf v w) (slotBase S) he
  exact ⟨_, by simp only [wrs, ht, andThen_of_next, returnDone], upToIrq_ret hu .done⟩

/-- Pushes, the engine idle and room for all (41_host_primitives.md R146). -/
theorem pushWords_idle (vs : List Word) {s : State} (he : s.eng = .idle)
    (hl : s.fifo.length + vs.length ≤ Config.fifoDepth) :
    ∃ t, pushWords vs s = .next t ∧ UpToIrq { s with fifo := s.fifo ++ vs } t := by
  induction vs generalizing s with
  | nil => exact ⟨s, rfl, by simpa using upToIrq_refl s⟩
  | cons v vs ih =>
    simp only [List.length_cons] at hl
    obtain ⟨t, ht, hu⟩ := turn_idle he (pushFifo v)
    have het : t.eng = .idle := (upToIrq_eng hu).trans he
    have hf : t.fifo = s.fifo := by rw [hu.2.2]
    have hp : pushFifo v t = .next { t with fifo := t.fifo ++ [v] } := by
      have : t.fifo.length < Config.fifoDepth := by rw [hf]; omega
      simp [pushFifo, busy, het, this]
    rw [hp] at ht
    obtain ⟨u, hu1, hu2⟩ := ih (s := { t with fifo := t.fifo ++ [v] }) het (by simp [hf]; omega)
    refine ⟨u, by simp only [pushWords, ht, andThen_of_next, hu1], ?_⟩
    have := upToIrq_fifo hu (s.fifo ++ [v] ++ vs)
    rw [hf] at hu2
    simpa using upToIrq_trans this hu2

/-- A run of word reads, the engine idle and every word with a value (42_protocol_wrapper.md R175). -/
theorem readWords_idle (k a : Nat) (acc : List Word) {s : State} {vs : List Word} (he : s.eng = .idle)
    (hr : readRun s.mem a k = some vs) :
    ∃ t, readWords k a acc s = .next t ∧ UpToIrq { s with ret := .value (acc ++ vs) } t := by
  induction k generalizing a acc s vs with
  | zero =>
    simp only [readRun, Option.some.injEq] at hr
    subst hr
    exact ⟨_, rfl, by simpa using upToIrq_refl _⟩
  | succ k ih =>
    simp only [readRun] at hr
    split at hr
    · rename_i v vs' hv hvs
      simp only [Option.some.injEq] at hr
      subst hr
      obtain ⟨t, ht, hu⟩ := turn_idle he (readData a)
      have het : t.eng = .idle := (upToIrq_eng hu).trans he
      have hm : t.mem = s.mem := by rw [hu.2.2]
      rw [readData_idle het (by rw [hm]; exact hv)] at ht
      obtain ⟨u, hu1, hu2⟩ := ih (a + cfg.stride) (acc ++ [v]) (s := { t with ret := .word v }) het (by rw [← hvs, hm])
      refine ⟨u, by simp only [readWords, ht, andThen_of_next, retWord, hu1], ?_⟩
      have := upToIrq_ret hu (.value (acc ++ v :: vs'))
      simp only [List.append_assoc, List.singleton_append] at hu2
      exact upToIrq_trans this hu2
    · cases hr

end Sys2Proof.Machine
end

