-- ==== Sys2Proof/Laws/Encoding.lean ====
section
/-! SUPPORT. The fields of an assembled command word are the fields it was assembled from, and its second form differs from
it in START alone (spec 30_encoding.md R81, R93). -/

namespace Sys2Proof

theorem fieldPart_cmdWord (x : Word) (p : BitVec 2) (d l r : Sel) (s a : Bool) :
    fieldPart (cmdWord x p d l r s a) = p := by
  apply BitVec.eq_of_getLsbD_eq
  intro i hi
  interval_cases i <;> simp [fieldPart, cmdWord, reservedBits, cmdMask, cmdFields, bitAt, cfg]

theorem fieldDst_cmdWord (x : Word) (p : BitVec 2) (d l r : Sel) (s a : Bool) :
    fieldDst (cmdWord x p d l r s a) = d := by
  apply BitVec.eq_of_getLsbD_eq
  intro i hi
  interval_cases i <;> simp [fieldDst, cmdWord, reservedBits, cmdMask, cmdFields, bitAt, cfg]

theorem fieldLeft_cmdWord (x : Word) (p : BitVec 2) (d l r : Sel) (s a : Bool) :
    fieldLeft (cmdWord x p d l r s a) = l := by
  apply BitVec.eq_of_getLsbD_eq
  intro i hi
  interval_cases i <;> simp [fieldLeft, cmdWord, reservedBits, cmdMask, cmdFields, bitAt, cfg]

theorem fieldRight_cmdWord (x : Word) (p : BitVec 2) (d l r : Sel) (s a : Bool) :
    fieldRight (cmdWord x p d l r s a) = r := by
  apply BitVec.eq_of_getLsbD_eq
  intro i hi
  interval_cases i <;> simp [fieldRight, cmdWord, reservedBits, cmdMask, cmdFields, bitAt, cfg]

theorem fieldStart_cmdWord (x : Word) (p : BitVec 2) (d l r : Sel) (s a : Bool) :
    fieldStart (cmdWord x p d l r s a) = s := by
  cases s <;> simp [fieldStart, cmdWord, reservedBits, cmdMask, cmdFields, bitAt, cfg]

theorem fieldAuto_cmdWord (x : Word) (p : BitVec 2) (d l r : Sel) (s a : Bool) :
    fieldAuto (cmdWord x p d l r s a) = a := by
  cases a <;> simp [fieldAuto, cmdWord, reservedBits, cmdMask, cmdFields, bitAt, cfg]

theorem widthOfCode_codeOfWidth (w : Width) : widthOfCode (codeOfWidth w) = some w := by cases w <;> rfl

theorem widthOfCode_some {p : BitVec 2} {w : Width} (h : widthOfCode p = some w) : p = codeOfWidth w := by
  revert p w
  decide

theorem widthOfCode_none {p : BitVec 2} (h : widthOfCode p = none) : p = cfg.partReserved := by
  revert p
  decide

/-- The launch word of a single operation spells that operation (30_encoding.md R83). -/
theorem decodeCmd_single (x : Word) (w : Width) (d l r : Sel) :
    decodeCmd (cmdWord x (codeOfWidth w) d l r true false) = some (.mmul w d l r) := by
  simp [decodeCmd, fieldPart_cmdWord, fieldDst_cmdWord, fieldLeft_cmdWord, fieldRight_cmdWord, fieldAuto_cmdWord,
    widthOfCode_codeOfWidth]

/-- The launch word of an auto-run spells that auto-run (30_encoding.md R83). -/
theorem decodeCmd_auto (x : Word) (w : Width) :
    decodeCmd (cmdWord x (codeOfWidth w) 0#2 0#2 0#2 true true) = some (.auto w) := by
  simp [decodeCmd, fieldPart_cmdWord, fieldDst_cmdWord, fieldLeft_cmdWord, fieldRight_cmdWord, fieldAuto_cmdWord,
    widthOfCode_codeOfWidth]

/-- The second word has START = 0 (30_encoding.md R93). -/
theorem fieldStart_word2 (v : Word) : fieldStart (word2 v) = false := by
  simp [fieldStart, word2, startMask, bitAt, cfg]

/-- The second word differs from the first in START alone (30_encoding.md R93). -/
theorem word2_only_start (v : Word) : (word2 v ^^^ v) &&& (cmdMask &&& ~~~startMask) = 0#32 := by
  apply BitVec.eq_of_getLsbD_eq
  intro i hi
  simp only [word2, BitVec.getLsbD_and, BitVec.getLsbD_xor, BitVec.getLsbD_not, hi, decide_true, Bool.true_and,
    BitVec.getLsbD_zero]
  cases v.getLsbD i <;> cases startMask.getLsbD i <;> simp

end Sys2Proof
end

