-- ==== Sys2Proof/Laws/PerInstr.lean ====
section
/-! SUPPORT. Facts about every instruction as syntax, one lemma for each constructor. -/

namespace Sys2Proof.Laws

/-- A row the table gives no bits is put on the interface as a call of itself. -/
def EncodedRow.Statement (i : Instr) : Prop := i.isCall = true → encode i = .call i

theorem EncodedRow.mmulL (x : Word) (d l r : Sel) : EncodedRow.Statement (.mmulL x d l r) := by
  intro h
  cases h

theorem EncodedRow.mmulH (x : Word) (d l r : Sel) : EncodedRow.Statement (.mmulH x d l r) := by
  intro h
  cases h

theorem EncodedRow.mmulT (x : Word) (d l r : Sel) : EncodedRow.Statement (.mmulT x d l r) := by
  intro h
  cases h

theorem EncodedRow.autoL (x : Word) : EncodedRow.Statement (.autoL x) := by
  intro h
  cases h

theorem EncodedRow.autoH (x : Word) : EncodedRow.Statement (.autoH x) := by
  intro h
  cases h

theorem EncodedRow.autoT (x : Word) : EncodedRow.Statement (.autoT x) := by
  intro h
  cases h

theorem EncodedRow.idleWord (x : Word) (a : Bool) (p : BitVec 2) (d l r : Sel) : EncodedRow.Statement (.idleWord x a p d l r) := by
  intro h
  cases h

theorem EncodedRow.reservedPart (x : Word) (a : Bool) (d l r : Sel) : EncodedRow.Statement (.reservedPart x a d l r) := by
  intro h
  cases h

theorem EncodedRow.reservedAuto (x : Word) (p : BitVec 2) (d l r : Sel) : EncodedRow.Statement (.reservedAuto x p d l r) := by
  intro h
  cases h

theorem EncodedRow.expw (e1 e0 : BitVec 16) : EncodedRow.Statement (.expw e1 e0) := by
  intro h
  cases h

theorem EncodedRow.slotImage (S : Slot) (img : List Word) : EncodedRow.Statement (.slotImage S img) := by
  intro h
  cases h

theorem EncodedRow.rMod (i : BitVec 6) : EncodedRow.Statement (.rMod i) := by
  intro h
  cases h

theorem EncodedRow.wMod (i : BitVec 6) (v : Word) : EncodedRow.Statement (.wMod i v) := by
  intro h
  cases h

theorem EncodedRow.rOp0 (i : BitVec 6) : EncodedRow.Statement (.rOp0 i) := by
  intro h
  cases h

theorem EncodedRow.wOp0 (i : BitVec 6) (v : Word) : EncodedRow.Statement (.wOp0 i v) := by
  intro h
  cases h

theorem EncodedRow.rOp1 (i : BitVec 6) : EncodedRow.Statement (.rOp1 i) := by
  intro h
  cases h

theorem EncodedRow.wOp1 (i : BitVec 6) (v : Word) : EncodedRow.Statement (.wOp1 i v) := by
  intro h
  cases h

theorem EncodedRow.rOp2 (i : BitVec 6) : EncodedRow.Statement (.rOp2 i) := by
  intro h
  cases h

theorem EncodedRow.wOp2 (i : BitVec 6) (v : Word) : EncodedRow.Statement (.wOp2 i v) := by
  intro h
  cases h

theorem EncodedRow.rOp3 (i : BitVec 6) : EncodedRow.Statement (.rOp3 i) := by
  intro h
  cases h

theorem EncodedRow.wOp3 (i : BitVec 6) (v : Word) : EncodedRow.Statement (.wOp3 i v) := by
  intro h
  cases h

theorem EncodedRow.wFifo (v : Word) : EncodedRow.Statement (.wFifo v) := by
  intro h
  cases h

theorem EncodedRow.rFifo : EncodedRow.Statement (.rFifo) := by
  intro h
  cases h

theorem EncodedRow.rCtrl : EncodedRow.Statement (.rCtrl) := by
  intro h
  cases h

theorem EncodedRow.wCtrl (v : Word) : EncodedRow.Statement (.wCtrl v) := by
  intro h
  cases h

theorem EncodedRow.rGie : EncodedRow.Statement (.rGie) := by
  intro h
  cases h

theorem EncodedRow.wGie (v : Word) : EncodedRow.Statement (.wGie v) := by
  intro h
  cases h

theorem EncodedRow.rIer : EncodedRow.Statement (.rIer) := by
  intro h
  cases h

theorem EncodedRow.wIer (v : Word) : EncodedRow.Statement (.wIer v) := by
  intro h
  cases h

theorem EncodedRow.arm : EncodedRow.Statement (.arm) := by
  intro h
  cases h

theorem EncodedRow.cnt : EncodedRow.Statement (.cnt) := by
  intro h
  cases h

theorem EncodedRow.delay : EncodedRow.Statement (.delay) := by
  intro h
  cases h

theorem EncodedRow.openSession : EncodedRow.Statement (.openSession) := by
  intro h
  rfl

theorem EncodedRow.closeSession : EncodedRow.Statement (.closeSession) := by
  intro h
  rfl

theorem EncodedRow.wrs (S : Slot) (w : Width) (v : Nat) : EncodedRow.Statement (.wrs S w v) := by
  intro h
  rfl

theorem EncodedRow.rds (S : Slot) (w : Width) : EncodedRow.Statement (.rds S w) := by
  intro h
  rfl

theorem EncodedRow.startSingle (w : Width) (d l r : Sel) : EncodedRow.Statement (.startSingle w d l r) := by
  intro h
  rfl

theorem EncodedRow.startAuto (w : Width) : EncodedRow.Statement (.startAuto w) := by
  intro h
  rfl

theorem EncodedRow.pushe (e0 : Nat) (e1 : Option Nat) (t : Nat) : EncodedRow.Statement (.pushe e0 e1 t) := by
  intro h
  rfl

theorem EncodedRow.wait : EncodedRow.Statement (.wait) := by
  intro h
  rfl

theorem EncodedRow.updmod (m n : Nat) : EncodedRow.Statement (.updmod m n) := by
  intro h
  rfl

theorem EncodedRow.mul (x y : Nat) (mn : Option (Nat × Nat)) : EncodedRow.Statement (.mul x y mn) := by
  intro h
  rfl

theorem EncodedRow.exp (g e t : Nat) (mn : Option (Nat × Nat)) : EncodedRow.Statement (.exp g e t mn) := by
  intro h
  rfl

theorem EncodedRow.dexp (g0 e0 g1 e1 t : Nat) (mn : Option (Nat × Nat)) : EncodedRow.Statement (.dexp g0 e0 g1 e1 t mn) := by
  intro h
  rfl

end Sys2Proof.Laws
end

