-- ==== Sys2Proof/Laws/Round.lean ====
section
/-! SUPPORT. One round of the protocol, a launch and its wait, for every schedule that lets no deadline pass: the four
phases an operation goes through, and where each access of the round leaves it (spec 42_protocol_wrapper.md R180, R190;
40_engine_ops.md R112, R114, R120). -/

namespace Sys2Proof.Machine

/-- The phases of one operation of command `c`, over a base state whose engine has nothing in flight: latching, running,
complete and pending, delivered. `m` and `q` are what the operation leaves of the storage and of the FIFO. -/
def phase (c : Cmd) (m : Memory) (q : List Word) (b : State) : Nat → State
  | 0 => { b with eng := .latching c }
  | 1 => { b with eng := busyOf c }
  | 2 => { b with mem := m, fifo := q, eng := .idle, irqPend := true }
  | _ => { b with mem := m, fifo := q, eng := .idle, irqPend := false, irqCount := b.irqCount + 1#32, irqArmed := false }

/-- The base of a round: nothing pending, the channel armed and enabled, its count given. -/
structure RoundBase (c : Cmd) (m : Memory) (q : List Word) (b : State) : Prop where
  noPend : b.irqPend = false
  armed : b.irqArmed = true
  enabled : irqEnabled b = true
  seen : b.irqCount = b.chanSeen
  completes : ∀ u : State, u.mem = b.mem → u.fifo = b.fifo → u.eng = busyOf c →
    engineStep u = .next { u with mem := m, fifo := q, eng := .idle, irqPend := true }

section
variable {c : Cmd} {m : Memory} {q : List Word} {b : State}

theorem RoundBase.with_sched (h : RoundBase c m q b) (ts : List Turn) : RoundBase c m q { b with sched := ts } where
  noPend := h.noPend
  armed := h.armed
  enabled := h.enabled
  seen := h.seen
  completes := h.completes

theorem RoundBase.with_ctrl (h : RoundBase c m q b) (v : Word) : RoundBase c m q { b with ctrl := v } where
  noPend := h.noPend
  armed := h.armed
  enabled := h.enabled
  seen := h.seen
  completes := h.completes

theorem phase_sched (b : State) (k : Nat) (ts : List Turn) :
    { phase c m q b k with sched := ts } = phase c m q { b with sched := ts } k := by
  match k with
  | 0 => rfl
  | 1 => rfl
  | 2 => rfl
  | _ + 3 => rfl

theorem phase_ctrl (b : State) (k : Nat) (v : Word) :
    { phase c m q b k with ctrl := v } = phase c m q { b with ctrl := v } k := by
  match k with
  | 0 => rfl
  | 1 => rfl
  | 2 => rfl
  | _ + 3 => rfl

theorem phase_ret (b : State) (k : Nat) (r : Ret) :
    { phase c m q b k with ret := r } = phase c m q { b with ret := r } k := by
  match k with
  | 0 => rfl
  | 1 => rfl
  | 2 => rfl
  | _ + 3 => rfl

/-- The engine's turn moves an operation to its next phase, or does nothing once it is complete. -/
theorem engineStep_phase (h : RoundBase c m q b) {k : Nat} (hk : k ≤ 3) :
    ∃ j, k ≤ j ∧ j ≤ 3 ∧ (k < 2 → k < j) ∧ engineStep (phase c m q b k) = .next (phase c m q b j) := by
  match k with
  | 0 => exact ⟨1, by omega, by omega, by omega, rfl⟩
  | 1 => exact ⟨2, by omega, by omega, by omega, h.completes _ rfl rfl rfl⟩
  | 2 => exact ⟨2, by omega, by omega, by omega, rfl⟩
  | 3 => exact ⟨3, by omega, by omega, by omega, rfl⟩

/-- The IRQ's turn delivers a complete operation's request, and does nothing else. -/
theorem irqStep_phase (h : RoundBase c m q b) {k : Nat} (hk : k ≤ 3) :
    ∃ j, k ≤ j ∧ j ≤ 3 ∧ (k = 2 → j = 3) ∧ irqStep (phase c m q b k) = phase c m q b j := by
  match k with
  | 0 => exact ⟨0, by omega, by omega, by omega, irqStep_of_not _ (not_deliver_of_noPend h.noPend)⟩
  | 1 => exact ⟨1, by omega, by omega, by omega, irqStep_of_not _ (not_deliver_of_noPend h.noPend)⟩
  | 2 =>
    refine ⟨3, by omega, by omega, by omega, ?_⟩
    have he : irqEnabled (phase c m q b 2) = true := h.enabled
    have ha : (phase c m q b 2).irqArmed = true := h.armed
    rw [irqStep_of_enabled _ (by simp only [deliverEnabled, he, ha]; rfl)]
    rfl
  | 3 => exact ⟨3, by omega, by omega, by omega, irqStep_of_not _ (not_deliver_of_noPend rfl)⟩

/-- The other agents' turns move an operation on, never back. -/
theorem agentsGo_phase (h : RoundBase c m q b) (ts : List Turn) {k : Nat} (hk : k ≤ 3) (hs : ts <:+ b.sched) :
    ∃ j ts', k ≤ j ∧ j ≤ 3 ∧ ts' <:+ b.sched ∧
      agentsGo ts (phase c m q b k) = .next (phase c m q { b with sched := ts' } j) := by
  induction ts generalizing k with
  | nil => exact ⟨k, [], by omega, hk, List.nil_suffix, by rw [agentsGo, phase_sched]⟩
  | cons x ts ih =>
    have hs' : ts <:+ b.sched := (List.suffix_cons x ts).trans hs
    cases x with
    | host => exact ⟨k, ts, by omega, hk, hs', by rw [agentsGo, phase_sched]⟩
    | timeout => exact ih hk hs'
    | irq =>
      obtain ⟨j, h1, h2, -, h3⟩ := irqStep_phase h hk
      obtain ⟨i, ts', g1, g2, g3, g4⟩ := ih h2 hs'
      exact ⟨i, ts', by omega, g2, g3, by rw [agentsGo, h3, g4]⟩
    | engine =>
      obtain ⟨j, h1, h2, -, h3⟩ := engineStep_phase h hk
      obtain ⟨i, ts', g1, g2, g3, g4⟩ := ih h2 hs'
      exact ⟨i, ts', by omega, g2, g3, by rw [agentsGo, h3, andThen_of_next, g4]⟩

theorem phase_sched_eq (b : State) (k : Nat) : (phase c m q b k).sched = b.sched := by
  match k with
  | 0 => rfl
  | 1 => rfl
  | 2 => rfl
  | _ + 3 => rfl

theorem turn_phase (h : RoundBase c m q b) (f : State → Result) {k : Nat} (hk : k ≤ 3) :
    ∃ j ts', k ≤ j ∧ j ≤ 3 ∧ ts' <:+ b.sched ∧
      turn f (phase c m q b k) = f (phase c m q { b with sched := ts' } j) := by
  obtain ⟨j, ts', h1, h2, h3, h4⟩ := agentsGo_phase h b.sched hk (List.suffix_refl _)
  exact ⟨j, ts', h1, h2, h3, by rw [turn, agents, phase_sched_eq, h4, andThen_of_next]⟩

theorem latching_phase {k : Nat} (hk : 1 ≤ k) : latching (phase c m q b k) = false := by
  match k with
  | 1 => cases c <;> rfl
  | 2 => rfl
  | _ + 3 => rfl

/-- The settle delay ends with the strobe latched (41_host_primitives.md R150). -/
theorem delayGo_phase (h : RoundBase c m q b) (ts : List Turn) {k : Nat} (hk : k ≤ 3) (hs : ts <:+ b.sched) :
    ∃ j ts', 1 ≤ j ∧ j ≤ 3 ∧ ts' <:+ b.sched ∧
      delayGo ts (phase c m q b k) = .next (phase c m q { b with sched := ts' } j) := by
  by_cases h1 : 1 ≤ k
  · refine ⟨k, ts, h1, hk, hs, ?_⟩
    cases ts <;> simp [delayGo, latching_phase h1, phase_sched]
  · obtain rfl : k = 0 := by omega
    have hl : latching (phase c m q b 0) = true := rfl
    clear h1
    induction ts with
    | nil =>
      refine ⟨1, [], by omega, by omega, List.nil_suffix, ?_⟩
      simp only [delayGo, hl, if_true]
      rfl
    | cons x ts ih =>
      have hs' : ts <:+ b.sched := (List.suffix_cons x ts).trans hs
      cases x with
      | host =>
        obtain ⟨j, ts', g⟩ := ih hs'
        exact ⟨j, ts', by simpa only [delayGo, hl, if_true] using g⟩
      | timeout =>
        obtain ⟨j, ts', g⟩ := ih hs'
        exact ⟨j, ts', by simpa only [delayGo, hl, if_true] using g⟩
      | irq =>
        obtain ⟨j, ts', g⟩ := ih hs'
        have h0 : irqStep (phase c m q b 0) = phase c m q b 0 := irqStep_of_not _ (not_deliver_of_noPend h.noPend)
        exact ⟨j, ts', by simpa only [delayGo, hl, if_true, h0] using g⟩
      | engine =>
        have h1 : engineStep (phase c m q b 0) = .next (phase c m q b 1) := rfl
        have h2 : latching (phase c m q b 1) = false := latching_phase (by omega)
        refine ⟨1, ts, by omega, by omega, hs', ?_⟩
        simp only [delayGo, hl, if_true, h1, andThen_of_next]
        cases ts <;> simp [delayGo, h2, phase_sched]

theorem countNew_phase (h : RoundBase c m q b) {k : Nat} (hk : k < 3) : countNew (phase c m q b k) = false := by
  have : countNew b = false := by simp [countNew, h.seen]
  match k with
  | 0 => exact this
  | 1 => exact this
  | 2 => exact this

theorem countNew_phase_last (h : RoundBase c m q b) : countNew (phase c m q b 3) = true := by
  have h1 : b.irqCount + 1#32 ≠ b.chanSeen := by
    rw [← h.seen]
    intro he
    have := congrArg BitVec.toNat he
    simp only [BitVec.toNat_add, BitVec.toNat_ofNat] at this
    have := b.irqCount.isLt
    omega
  simpa [countNew, phase] using h1

/-- The channel read of the round's wait gives the new count (60_exceptions.md R238, R253). -/
theorem cntGo_phase (h : RoundBase c m q b) (ts : List Turn) {k : Nat} (hk : k ≤ 3) (hs : ts <:+ b.sched)
    (hn : Turn.timeout ∉ ts) :
    ∃ ts', ts' <:+ b.sched ∧
      cntGo ts (phase c m q b k) = .next (takeCount (phase c m q { b with sched := ts' } 3)) := by
  induction ts generalizing k with
  | nil =>
    refine ⟨[], List.nil_suffix, ?_⟩
    by_cases h3 : k = 3
    · subst h3
      simp only [cntGo, countNew_phase_last h, if_true, phase_sched]
    · have hn' := countNew_phase h (k := k) (by omega)
      simp only [cntGo, hn', Bool.false_eq_true, if_false, phase_sched]
      have h' := h.with_sched []
      have hd : drain (phase c m q { b with sched := [] } k) = .next (phase c m q { b with sched := [] } 3) := by
        obtain ⟨j, g1, g2, g3, g4⟩ := engineStep_phase h' hk
        obtain ⟨i, f1, f2, f3, f4⟩ := engineStep_phase h' g2
        obtain ⟨l, e1, e2, e3, e4⟩ := irqStep_phase h' f2
        have hi : 2 ≤ i := by omega
        have hl : l = 3 := by omega
        rw [drain, g4, andThen_of_next, f4, andThen_of_next, e4, hl]
      rw [hd, andThen_of_next, countNew_phase_last h', if_pos rfl]
  | cons x ts ih =>
    have hs' : ts <:+ b.sched := (List.suffix_cons x ts).trans hs
    have hn' : Turn.timeout ∉ ts := fun hx => hn (List.mem_cons_of_mem _ hx)
    by_cases h3 : k = 3
    · subst h3
      exact ⟨x :: ts, hs, by simp only [cntGo, countNew_phase_last h, if_true, phase_sched]⟩
    · have hc := countNew_phase h (k := k) (by omega)
      simp only [cntGo, hc, Bool.false_eq_true, if_false]
      cases x with
      | host => exact ih hk hs' hn'
      | timeout => exact absurd List.mem_cons_self hn
      | irq =>
        obtain ⟨j, h1, h2, -, h4⟩ := irqStep_phase h hk
        simp only [h4]
        exact ih h2 hs' hn'
      | engine =>
        obtain ⟨j, h1, h2, -, h4⟩ := engineStep_phase h hk
        simp only [h4, andThen_of_next]
        exact ih h2 hs' hn'

/-- What a round leaves of its base state. -/
def afterRound (m : Memory) (q : List Word) (v : Word) (b : State) (ts : List Turn) : State :=
  { b with
    mem := m, fifo := q, ctrl := v, irqCount := b.irqCount + 1#32, chanSeen := b.irqCount + 1#32,
    sess := { b.sess with lastCount := b.irqCount + 1#32 }, ret := .done, sched := ts }

/-- The wait of a round whose operation is in any phase. -/
theorem waitOp_phase (h : RoundBase c m q b) (he : b.eng = .idle) (hn : NoTimeout b)
    (hl : b.sess.lastCount < b.irqCount + 1#32) {k : Nat} (hk : k ≤ 3) :
    ∃ ts', ts' <:+ b.sched ∧ waitOp (phase c m q b k) = .next (afterRound m q b.ctrl b ts') := by
  obtain ⟨ts1, h1, h2⟩ := cntGo_phase h b.sched hk (List.suffix_refl _) hn
  have hr : readChannel (phase c m q b k) = .next (takeCount (phase c m q { b with sched := ts1 } 3)) := by
    rw [readChannel, phase_sched_eq, h2]
  have hnd : deliverEnabled (takeCount (phase c m q { b with sched := ts1 } 3)) = false := not_deliver_of_noPend rfl
  obtain ⟨t, ht, hu⟩ := turn_idle (s := takeCount (phase c m q { b with sched := ts1 } 3)) rfl armChannel
  have hts := upToIrq_of_not hu hnd
  refine ⟨t.sched, List.IsSuffix.trans hu.2.1 h1, ?_⟩
  have hcount : retCount (takeCount (phase c m q { b with sched := ts1 } 3)) = some (b.irqCount + 1#32) := rfl
  have hlast : (takeCount (phase c m q { b with sched := ts1 } 3)).sess.lastCount < b.irqCount + 1#32 := hl
  simp only [waitOp, waitLoop, hr, andThen_of_next, hcount, hlast, if_true, endWait, ht]
  rw [hts]
  simp only [armChannel, andThen_of_next, afterRound, takeCount, phase, Option.getD_some, ← he, ← h.armed, ← h.noPend]

/-- One round from its base (R180, R190): the launch word `w1` spells the command, only START changes in its second form. -/
theorem round_spec (h : RoundBase c m q b) (g : Word → Word) (he : b.eng = .idle) (hn : NoTimeout b)
    (hl : b.sess.lastCount < b.irqCount + 1#32) (h0 : fieldStart b.ctrl = false) (h1 : fieldStart (g b.ctrl) = true)
    (hc : decodeCmd (g b.ctrl) = some c) (h2 : fieldStart (word2 (g b.ctrl)) = false)
    (hx : (word2 (g b.ctrl) ^^^ g b.ctrl) &&& (cmdMask &&& ~~~startMask) = 0#32) :
    ∃ ts', ts' <:+ b.sched ∧
      runAll [strobe g, waitOp] b = .next (afterRound m q (word2 (g b.ctrl)) b ts') := by
  have hnd : ∀ ts, deliverEnabled { b with sched := ts } = false := fun ts => not_deliver_of_noPend h.noPend
  -- R CTRL
  obtain ⟨t0, ht0, hu0⟩ := turn_idle he (fun s0 => andThen (readCtrl s0) (runAll
    [turn (writeCtrl (g s0.ctrl)), settleDelay, turn (writeCtrl (word2 (g s0.ctrl))), returnDone]))
  have ht0' := upToIrq_of_not hu0 (not_deliver_of_noPend h.noPend)
  have hs0 : t0.sched <:+ b.sched := hu0.2.1
  generalize t0.sched = ts0 at ht0' hs0
  subst ht0'
  -- W CTRL, word1
  have hb1 : ({ b with sched := ts0, ret := .word b.ctrl } : State).eng = .idle := he
  obtain ⟨t1, ht1, hu1⟩ := turn_idle hb1 (writeCtrl (g b.ctrl))
  have ht1' := upToIrq_of_not hu1 (not_deliver_of_noPend h.noPend)
  have hs1 : t1.sched <:+ b.sched := List.IsSuffix.trans hu1.2.1 hs0
  generalize t1.sched = ts1 at ht1' hs1
  subst ht1'
  have hw1 : writeCtrl (g b.ctrl) { b with sched := ts1, ret := .word b.ctrl } =
      .next (phase c m q { b with sched := ts1, ret := .word b.ctrl, ctrl := g b.ctrl } 0) := by
    simp [writeCtrl, he, h0, h1, hc, phase]
  -- DELAY
  have hB1 : RoundBase c m q { b with sched := ts1, ret := .word b.ctrl, ctrl := g b.ctrl } :=
    ⟨h.noPend, h.armed, h.enabled, h.seen, h.completes⟩
  obtain ⟨k2, ts2, hk2, hk2', hs2, hd⟩ := delayGo_phase hB1 ts1 (k := 0) (by omega) (List.suffix_refl _)
  have hs2 : ts2 <:+ b.sched := List.IsSuffix.trans hs2 hs1
  -- W CTRL, word2
  have hB2 : RoundBase c m q { b with sched := ts2, ret := .word b.ctrl, ctrl := g b.ctrl } :=
    ⟨h.noPend, h.armed, h.enabled, h.seen, h.completes⟩
  obtain ⟨k3, ts3, hk3, hk3', hs3, hw⟩ := turn_phase hB2 (writeCtrl (word2 (g b.ctrl))) hk2'
  have hs3 : ts3 <:+ b.sched := List.IsSuffix.trans hs3 hs2
  have hw2 : writeCtrl (word2 (g b.ctrl)) (phase c m q { b with sched := ts3, ret := .word b.ctrl, ctrl := g b.ctrl } k3) =
      .next (phase c m q { b with sched := ts3, ret := .word b.ctrl, ctrl := word2 (g b.ctrl) } k3) := by
    have hlat : latching (phase c m q { b with sched := ts3, ret := .word b.ctrl, ctrl := g b.ctrl } k3) = false :=
      latching_phase (by omega)
    have hctrl : (phase c m q { b with sched := ts3, ret := .word b.ctrl, ctrl := g b.ctrl } k3).ctrl = g b.ctrl := by
      match k3 with
      | 0 => rfl
      | 1 => rfl
      | 2 => rfl
      | 3 => rfl
    simp only [writeCtrl, hctrl, h1, h2, hlat, hx, Bool.not_true, Bool.and_false,
      Bool.false_eq_true, if_false, ne_eq, not_true_eq_false, phase_ctrl]
    split <;> rfl
  -- WAIT
  have hB3 : RoundBase c m q { b with sched := ts3, ret := .done, ctrl := word2 (g b.ctrl) } :=
    ⟨h.noPend, h.armed, h.enabled, h.seen, h.completes⟩
  have hn3 : NoTimeout { b with sched := ts3, ret := .done, ctrl := word2 (g b.ctrl) } := fun hx => hn (hs3.subset hx)
  obtain ⟨ts4, hs4, hwait⟩ := waitOp_phase hB3 he hn3 hl hk3'
  refine ⟨ts4, List.IsSuffix.trans hs4 hs3, ?_⟩
  have hstrobe : strobe g b = .next (phase c m q { b with sched := ts3, ret := .done, ctrl := word2 (g b.ctrl) } k3) := by
    rw [strobe, ht0]
    simp only [readCtrl, andThen_of_next, runAll]
    rw [ht1, hw1, andThen_of_next, settleDelay, phase_sched_eq, hd, andThen_of_next]
    rw [hw, hw2, andThen_of_next]
    simp only [returnDone, andThen_of_next, phase_ret]
  simp only [runAll, hstrobe, andThen_of_next, hwait, afterRound]

end

end Sys2Proof.Machine
end

