-- ==== Sys2Proof/Laws/Protocol.lean ====
section
/-! SUPPORT. The wrapper operations run from the protocol's READY state, under NoTimeout: what each leaves, so that the
algorithms are chains of these facts (spec 42_protocol_wrapper.md R198, R219; 60_exceptions.md R253). -/

namespace Sys2Proof.Machine

/-- From a READY `s`, `t` is READY again after `k` operations: only the storage, the FIFO, CTRL, the count with its two
copies, what the host was given and the turns used can differ. -/
structure Stays (s : State) (k : Nat) (t : State) : Prop where
  ready : Ready t
  noTimeout : NoTimeout t
  turns : t.sched <:+ s.sched
  count : t.irqCount = s.irqCount + BitVec.ofNat 32 k
  last : t.sess.lastCount = if k = 0 then s.sess.lastCount else t.irqCount
  rest : t = { s with mem := t.mem, fifo := t.fifo, ctrl := t.ctrl, irqCount := t.irqCount, chanSeen := t.irqCount,
                      sess := { s.sess with lastCount := t.sess.lastCount }, ret := t.ret, sched := t.sched }
  kept : reservedBits t.ctrl = reservedBits s.ctrl

theorem Stays.refl {s : State} (h : Ready s) (hn : NoTimeout s) : Stays s 0 s where
  ready := h
  noTimeout := hn
  turns := List.suffix_refl _
  count := by simp
  last := rfl
  rest := by
    have := h.seen
    cases s
    simp_all
  kept := rfl

theorem Stays.trans {s t u : State} {j k : Nat} (h : Stays s j t) (h' : Stays t k u) : Stays s (j + k) u where
  ready := h'.ready
  noTimeout := h'.noTimeout
  turns := h'.turns.trans h.turns
  count := by rw [h'.count, h.count, BitVec.ofNat_add, BitVec.add_assoc]
  last := by
    rw [h'.last]
    by_cases hk : k = 0
    · subst hk
      have hc : u.irqCount = t.irqCount := by simpa using h'.count
      simp [h.last, hc]
    · simp [hk]
  rest := by
    have h1 := h.rest
    have h2 := h'.rest
    rw [h1] at h2
    exact h2
  kept := h'.kept.trans h.kept

theorem Ready.of_mem {s : State} (h : Ready s) (m : Memory) (q : List Word) (r : Ret) (ts : List Turn) :
    Ready { s with mem := m, fifo := q, ret := r, sched := ts } :=
  ⟨h.isOpen, h.synced, h.idle, h.noPend, h.armed, h.enabled, h.seen, h.last, h.start0⟩

/-- An operation whose only effects are on storage, the FIFO and what the host was given. -/
theorem stays_of_upToIrq {s t : State} (h : Ready s) (hn : NoTimeout s) (m : Memory) (q : List Word) (r : Ret)
    (hu : UpToIrq { s with mem := m, fifo := q, ret := r } t) :
    Stays s 0 t ∧ t.mem = m ∧ t.fifo = q ∧ t.ret = r ∧ t.ctrl = s.ctrl := by
  have ht := upToIrq_of_not hu (not_deliver_of_noPend h.noPend)
  have hs : t.sched <:+ s.sched := hu.2.1
  generalize t.sched = ts at ht hs
  subst ht
  refine ⟨⟨h.of_mem m q r ts, fun hx => hn (hs.subset hx), hs, by simp, rfl, ?_, rfl⟩, rfl, rfl, rfl, rfl⟩
  have := h.seen
  cases s
  simp_all

/-- WRS from READY (42_protocol_wrapper.md R174). -/
theorem wrs_ready (S : Slot) (w : Width) (v : Nat) {s : State} (h : Ready s) (hn : NoTimeout s) :
    ∃ t, wrs S w v s = .next t ∧ Stays s 0 t ∧ t.mem = writeRun s.mem (slotBase S) (slotImageOf v w) ∧
      t.fifo = s.fifo ∧ t.ctrl = s.ctrl := by
  obtain ⟨t, ht, hu⟩ := wrs_idle S w v h.idle
  obtain ⟨h1, h2, h3, -, h5⟩ := stays_of_upToIrq h hn _ s.fifo .done hu
  exact ⟨t, ht, h1, h2, h3, h5⟩

/-- PUSHE from READY (42_protocol_wrapper.md R185). -/
theorem push_ready (e0 : Nat) (e1 : Option Nat) (n : Nat) {s : State} (h : Ready s) (hn : NoTimeout s) (ht : n % 32 = 0)
    (hl : s.fifo.length + (expStream e0 (e1.getD 0) (n / 32)).length ≤ Config.fifoDepth) :
    ∃ t, pushExponent e0 e1 n s = .next t ∧ Stays s 0 t ∧ t.mem = s.mem ∧
      t.fifo = s.fifo ++ expStream e0 (e1.getD 0) (n / 32) ∧ t.ctrl = s.ctrl := by
  obtain ⟨t, he, hu⟩ := pushWords_idle _ h.idle hl
  obtain ⟨h1, h2, h3, -, h5⟩ := stays_of_upToIrq h hn _ _ .done (upToIrq_ret hu .done)
  exact ⟨_, by simp only [pushExponent, ht, ne_eq, not_true_eq_false, if_false, he, andThen_of_next, returnDone],
    h1, h2, h3, h5⟩

theorem readBase_eq (S : Slot) (w : Width) : readBase S w = wordAddr S (loOf w) := by
  cases w <;> simp [readBase, wordAddr, loOf]

theorem regionVal_some {m : Memory} {S : Slot} {w : Width} {v : Nat} (h : regionVal m S w = some v) :
    ∃ vs, readRun m (wordAddr S (loOf w)) (cntOf w) = some vs ∧ valueOf vs = v := by
  simpa [regionVal] using h

theorem readRun_length {m : Memory} {a k : Nat} {vs : List Word} (h : readRun m a k = some vs) : vs.length = k := by
  induction k generalizing a vs with
  | zero =>
    simp only [readRun, Option.some.injEq] at h
    simp [← h]
  | succ k ih =>
    simp only [readRun] at h
    split at h
    · rename_i v vs' _ hvs
      simp only [Option.some.injEq] at h
      simp [← h, ih hvs]
    · cases h

/-- A region's number is below the bound of its width (10_state.md R24). -/
theorem regionVal_lt {m : Memory} {S : Slot} {w : Width} {v : Nat} (h : regionVal m S w = some v) : v < 2 ^ bitsOf w := by
  obtain ⟨vs, h1, h2⟩ := regionVal_some h
  rw [← h2, bitsOf_eq, ← readRun_length h1]
  exact valueOf_lt vs

/-- RDS while the engine is idle (42_protocol_wrapper.md R175). -/
theorem rds_idle (S : Slot) (w : Width) {s : State} {v : Nat} (he : s.eng = .idle) (hv : regionVal s.mem S w = some v) :
    ∃ t, rds S w s = .next t ∧ UpToIrq { s with ret := .value (wordsOf (cntOf w) v) } t := by
  obtain ⟨vs, h1, h2⟩ := regionVal_some hv
  have hvs : wordsOf (cntOf w) v = vs := by rw [← h2, ← readRun_length h1, wordsOf_valueOf]
  obtain ⟨t, ht, hu⟩ := readWords_idle (cntOf w) (readBase S w) [] he (by rw [readBase_eq]; exact h1)
  exact ⟨t, ht, by simpa [hvs] using hu⟩

theorem rds_ready (S : Slot) (w : Width) {s : State} {v : Nat} (h : Ready s) (hn : NoTimeout s)
    (hv : regionVal s.mem S w = some v) :
    ∃ t, rds S w s = .next t ∧ Stays s 0 t ∧ t.mem = s.mem ∧ t.fifo = s.fifo ∧ t.ctrl = s.ctrl ∧
      t.ret = .value (wordsOf (cntOf w) v) := by
  obtain ⟨t, ht, hu⟩ := rds_idle S w h.idle hv
  obtain ⟨h1, h2, h3, h4, h5⟩ := stays_of_upToIrq h hn s.mem s.fifo _ hu
  exact ⟨t, ht, h1, h2, h3, h5, h4⟩

theorem reservedBits_cmdWord (x : Word) (p : BitVec 2) (d l r : Sel) (s a : Bool) :
    reservedBits (cmdWord x p d l r s a) = reservedBits x := by
  apply BitVec.eq_of_getLsbD_eq
  intro i hi
  interval_cases i <;> simp [reservedBits, cmdWord, cmdMask, cmdFields, bitAt, cfg]

theorem reservedBits_word2 (v : Word) : reservedBits (word2 v) = reservedBits v := by
  apply BitVec.eq_of_getLsbD_eq
  intro i hi
  interval_cases i <;> simp [reservedBits, word2, startMask, cmdMask, cmdFields, bitAt, cfg]

/-- Only the reserved bits of the old word reach the new one (30_encoding.md R93). -/
theorem cmdWord_congr {x y : Word} (h : reservedBits x = reservedBits y) (p : BitVec 2) (d l r : Sel) (s a : Bool) :
    cmdWord x p d l r s a = cmdWord y p d l r s a := by
  simp only [cmdWord, h]

theorem lt_add_one_of_le {a b : Word} (h : a ≤ b) (hb : b.toNat + 1 < 2 ^ 32) : a < b + 1#32 := by
  rw [BitVec.lt_def, BitVec.toNat_add]
  rw [BitVec.le_def] at h
  simp only [BitVec.toNat_ofNat]
  omega

/-- What `afterRound` leaves is READY again. -/
theorem stays_afterRound {s : State} (h : Ready s) (hn : NoTimeout s) (m : Memory) (q : List Word) (v : Word)
    {ts : List Turn} (hs : ts <:+ s.sched) (h0 : fieldStart v = false) (hv : reservedBits v = reservedBits s.ctrl) :
    Stays s 1 (afterRound m q v s ts) where
  ready := ⟨h.isOpen, h.synced, h.idle, h.noPend, h.armed, h.enabled, rfl, BitVec.le_refl _, h0⟩
  noTimeout := fun hx => hn (hs.subset hx)
  turns := hs
  count := rfl
  last := rfl
  rest := rfl
  kept := hv

/-- One round from READY (42_protocol_wrapper.md R191). -/
theorem round_ready {c : Cmd} {m : Memory} {q : List Word} {s : State} (h : Ready s) (hn : NoTimeout s)
    (hw : s.irqCount.toNat + 1 < 2 ^ 32)
    (hc : ∀ u : State, u.mem = s.mem → u.fifo = s.fifo → u.eng = busyOf c →
      engineStep u = .next { u with mem := m, fifo := q, eng := .idle, irqPend := true })
    (g : Word → Word) (h1 : fieldStart (g s.ctrl) = true) (hd : decodeCmd (g s.ctrl) = some c)
    (hr : reservedBits (g s.ctrl) = reservedBits s.ctrl) :
    ∃ t, runAll [strobe g, waitOp] s = .next t ∧ Stays s 1 t ∧ t.mem = m ∧ t.fifo = q ∧ t.ctrl = word2 (g s.ctrl) := by
  have hb : RoundBase c m q s := ⟨h.noPend, h.armed, h.enabled, h.seen, hc⟩
  obtain ⟨ts, hs, ht⟩ := round_spec hb g h.idle hn (lt_add_one_of_le h.last hw) h.start0 h1 hd (fieldStart_word2 _)
    (word2_only_start _)
  exact ⟨_, ht, stays_afterRound h hn m q _ hs (fieldStart_word2 _) ((reservedBits_word2 _).trans hr), rfl, rfl, rfl⟩

/-- A single operation's round from READY (R114, R191). -/
theorem singleRound_ready {w : Width} {d l r : Sel} {s : State} {m a b : Nat} (h : Ready s) (hn : NoTimeout s)
    (hw : s.irqCount.toNat + 1 < 2 ^ 32) (hd : MmulDomain s w l r m a b) :
    ∃ t, singleRound w d l r s = .next t ∧ Stays s 1 t ∧
      t.mem = storeResult s.mem (.op d) w (montMul a b m (bitsOf w)) ∧ t.fifo = s.fifo ∧
      t.ctrl = word2 (singleWord1 s.ctrl w d l r) := by
  refine round_ready (c := .mmul w d l r) h hn hw ?_ (fun old => singleWord1 old w d l r) (fieldStart_cmdWord _ _ _ _ _ _ _)
    (decodeCmd_single _ _ _ _ _) (reservedBits_cmdWord _ _ _ _ _ _ _)
  intro u hm hf he
  have he' : u.eng = .busyMmul w d l r := he
  have hd' : MmulDomain u w l r m a b := by
    unfold MmulDomain at hd ⊢
    rw [hm]
    exact hd
  simp only [engineStep, he', completeMmul_of_domain hd', finishOp, hm, ← hf]

/-- An auto-run's round from READY (R120, R191). -/
theorem autoRound_ready {w : Width} {s : State} {m A v : Nat} (h : Ready s) (hn : NoTimeout s)
    (hw : s.irqCount.toNat + 1 < 2 ^ 32) (hm : regionVal s.mem .mod w = some m) (hf : s.fifo ≠ [])
    (hA : regionVal s.mem (.op cfg.acc) w = some A) (hodd : m % 2 = 1) (hlt : A < m)
    (hv : autoRun s.mem w m s.fifo A = .next v) :
    ∃ t, autoRound w s = .next t ∧ Stays s 1 t ∧ t.mem = storeResult s.mem (.op cfg.acc) w v ∧ t.fifo = [] ∧
      t.ctrl = word2 (autoWord1 s.ctrl w) := by
  refine round_ready (c := .auto w) h hn hw ?_ (fun old => autoWord1 old w) (fieldStart_cmdWord _ _ _ _ _ _ _)
    (decodeCmd_auto _ _) (reservedBits_cmdWord _ _ _ _ _ _ _)
  intro u hum huf he
  have he' : u.eng = .busyAuto w := he
  simp only [engineStep, he', completeAuto, hum, huf, hm, hf, if_false, hA, hodd, hlt, and_self, if_true, hv,
    andThen_of_next, finishOp]

end Sys2Proof.Machine
end

