-- ==== Sys2Proof/Laws/Slots.lean ====
section
/-! SUPPORT. What a slot holds after a stored image and after a completed operation, which bytes either leaves alone, and the
turns inside an operation while no step of the engine falls into it (spec 30_encoding.md R91; 40_engine_ops.md R114, R115). -/

namespace Sys2Proof.Machine

/-! ### A completed operation -/

/-- A completed operation leaves every byte outside its destination slot alone (40_engine_ops.md R115). -/
theorem getByte_storeResult_out (m : Memory) (S : Slot) (w : Width) (v : Nat) {a : Nat} (h : OutsideSlot S a) :
    getByte (storeResult m S w v) a = getByte m a := by
  have hw := loOf_add_cntOf w
  unfold OutsideSlot at h
  simp only [slotWords_eq, cfg_stride] at h
  rw [storeResult, clearInactive, getByte_clearRun_ne, getByte_clearRun_ne, setRegion, getByte_writeRun_ne]
  · simp only [wordAddr, length_wordsOf, cfg_stride]; omega
  · simp only [wordAddr, cfg_stride]; omega
  · simp only [wordAddr, slotWords_eq, cfg_stride]; omega

theorem slotResult_storeResult (m : Memory) (S : Slot) (w : Width) {v : Nat} (hv : v < 2 ^ bitsOf w) :
    SlotResult (storeResult m S w v) S w v :=
  ⟨regionVal_storeResult_same m S w hv, fun i hi => slotWord_storeResult_inactive m S w v (by simpa using hi.1) hi.2⟩

theorem slotHolds_result_other {m : Memory} {S T : Slot} {w w' : Width} {v u : Nat} (h : T ≠ S) (hT : SlotHolds m T w v) :
    SlotHolds (storeResult m S w' u) T w v :=
  ⟨by rw [regionVal_storeResult_other m w' w u h]; exact hT.1,
    fun i hi => by rw [slotWord_storeResult_other m w' u h hi.1]; exact hT.2 i hi⟩

theorem slotResult_result_other {m : Memory} {S T : Slot} {w w' : Width} {v u : Nat} (h : T ≠ S)
    (hT : SlotResult m T w v) : SlotResult (storeResult m S w' u) T w v :=
  ⟨by rw [regionVal_storeResult_other m w' w u h]; exact hT.1,
    fun i hi => by rw [slotWord_storeResult_other m w' u h hi.1]; exact hT.2 i hi⟩

/-! ### A stored image -/

theorem slotEncode_inactive (vs : List Word) (w : Width) {i : Nat} (h : Inactive w i) :
    (slotEncode vs w)[i]'(by simpa using h.1) = 0#32 := by
  obtain ⟨h1, h2⟩ := h
  simp only [slotWords_eq] at h1
  have hw := loOf_add_cntOf w
  simp only [slotEncode]
  rcases h2 with h2 | h2
  · rw [List.getElem_append_left (by simp; omega), List.getElem_append_left (by simp; omega)]; simp
  · rw [List.getElem_append_right (by simp; omega)]; simp

/-- What WRS leaves in its slot (42_protocol_wrapper.md R174). -/
theorem slotHolds_image (m : Memory) (S : Slot) (w : Width) (v : Nat) :
    SlotHolds (writeRun m (slotBase S) (slotImageOf v w)) S w (v % 2 ^ bitsOf w) := by
  refine ⟨regionVal_image_same m S w v, fun i hi => ?_⟩
  rw [slotWord_image_same m S (by simpa using hi.1)]
  exact congrArg some (slotEncode_inactive _ w hi)

theorem slotHolds_image_of_lt (m : Memory) (S : Slot) (w : Width) {v : Nat} (h : v < 2 ^ bitsOf w) :
    SlotHolds (writeRun m (slotBase S) (slotImageOf v w)) S w v := by
  have := slotHolds_image m S w v
  rwa [Nat.mod_eq_of_lt h] at this

theorem slotHolds_image_other {m : Memory} {S T : Slot} {w w' : Width} {v u : Nat} (h : T ≠ S) (hT : SlotHolds m T w v) :
    SlotHolds (writeRun m (slotBase S) (slotImageOf u w')) T w v :=
  ⟨by rw [regionVal_image_other m (by simp) w h]; exact hT.1,
    fun i hi => by rw [slotWord_image_other m (by simp) h hi.1]; exact hT.2 i hi⟩

theorem slotResult_image_other {m : Memory} {S T : Slot} {w w' : Width} {v u : Nat} (h : T ≠ S)
    (hT : SlotResult m T w v) : SlotResult (writeRun m (slotBase S) (slotImageOf u w')) T w v :=
  ⟨by rw [regionVal_image_other m (by simp) w h]; exact hT.1,
    fun i hi => by rw [slotWord_image_other m (by simp) h hi.1]; exact hT.2 i hi⟩

/-- An image leaves every byte outside its slot alone (20_memory.md R57). -/
theorem onlySlot_image (m : Memory) (S : Slot) {img : List Word} (h : img.length = 48) :
    OnlySlot S m (writeRun m (slotBase S) img) := by
  intro a ha
  unfold OutsideSlot at ha
  simp only [slotWords_eq, cfg_stride] at ha
  exact getByte_writeRun_ne _ _ (by omega)

/-! ### Turns without a step of the engine -/

theorem agentsGo_quiet (ts : List Turn) {s : State} (he : s.eng = .idle ∨ Turn.engine ∉ ts) (hs : ts <:+ s.sched) :
    ∃ t, agentsGo ts s = .next t ∧ UpToIrq s t := by
  induction ts generalizing s with
  | nil => exact ⟨_, rfl, upToIrq_sched s hs⟩
  | cons x ts ih =>
    have hs' : ts <:+ s.sched := (List.suffix_cons x ts).trans hs
    have he' : s.eng = .idle ∨ Turn.engine ∉ ts := he.imp id (fun h hx => h (List.mem_cons_of_mem _ hx))
    cases x with
    | host => exact ⟨_, rfl, upToIrq_sched s hs'⟩
    | timeout => exact ih he' hs'
    | irq =>
      obtain ⟨t, ht, hu⟩ := ih (s := irqStep s) (by simpa using he') (by simpa using hs')
      exact ⟨t, ht, upToIrq_trans (upToIrq_irqStep s) hu⟩
    | engine =>
      have hi : s.eng = .idle := he.resolve_right (fun h => h List.mem_cons_self)
      obtain ⟨t, ht, hu⟩ := ih he' hs'
      exact ⟨t, by simp only [agentsGo, engineStep_idle hi, andThen_of_next, ht], hu⟩

/-- An access inside an operation that no step of the engine falls into: the IRQ's turns before it, then the access. -/
theorem turn_quiet {s : State} (he : EngineQuiet s) (f : State → Result) : ∃ t, turn f s = f t ∧ UpToIrq s t := by
  obtain ⟨t, ht, hu⟩ := agentsGo_quiet s.sched he (List.suffix_refl _)
  exact ⟨t, by simp only [turn, agents, ht, andThen_of_next], hu⟩

theorem engineQuiet_of_upToIrq {s t : State} (h : UpToIrq s t) (he : EngineQuiet s) : EngineQuiet t := by
  rcases he with he | he
  · exact .inl ((upToIrq_eng h).trans he)
  · exact .inr (fun hx => he (h.2.1.subset hx))

end Sys2Proof.Machine
end

