-- ==== Sys2Proof/Tests/Slice0.lean ====
section
/-! SUPPORT. Tests. Expected values come from the spec: 30_encoding.md R98, 95_test_vectors.md (V<n> below), or a word written
out from the layout of 30_encoding.md R81 and the maps of 20_memory.md R54, R55. After them, for each statement with
hypotheses, a concrete state and operands that meet them (`test_meets_…`). -/

namespace Sys2Proof.Tests

open Sys2Proof Sys2Proof.Machine

/-! ### Small states -/

/-- The cells of words from an offset on, byte 0 of a word first. -/
def cellsFrom (a : Nat) : List Word → Memory
  | [] => []
  | v :: vs =>
    (a, v.extractLsb' 0 8) :: (a + 1, v.extractLsb' 8 8) :: (a + 2, v.extractLsb' 16 8) :: (a + 3, v.extractLsb' 24 8) ::
      cellsFrom (a + 4) vs

/-- A number below 2^32 as `k` words. -/
def small (k v : Nat) : List Word := BitVec.ofNat 32 v :: List.replicate (k - 1) 0#32

/-- MOD, OP1 and OP2 at width Low (V20). -/
def memLow (m a b : Nat) : Memory := cellsFrom 0x0000 (small 16 m) ++ cellsFrom 0x2000 (small 16 a) ++ cellsFrom 0x3000 (small 16 b)

/-- MOD and the four operand slots at width Low (V31). -/
def memAuto (m a t1 t2 t3 : Nat) : Memory :=
  cellsFrom 0x0000 (small 16 m) ++ cellsFrom 0x1000 (small 16 a) ++ cellsFrom 0x2000 (small 16 t1) ++
    cellsFrom 0x3000 (small 16 t2) ++ cellsFrom 0x4000 (small 16 t3)

def launched : State := { State.reset with ctrl := 0x191#32, eng := .latching (.mmul .low 0#2 1#2 2#2) }

def running (m a b : Nat) : State :=
  { State.reset with ctrl := 0x091#32, eng := .busyMmul .low 0#2 1#2 2#2, mem := memLow m a b }

def autoRunning (mem : Memory) (q : List Word) : State :=
  { State.reset with ctrl := 0x201#32, eng := .busyAuto .low, mem := mem, fifo := q }

/-- The session after OPEN and UPDMOD 97, 512, from reset, with OP1 = 5 and OP2 = 7. -/
def ready : State :=
  { State.reset with
    ier := 0x1#32, gie := 0x80000000#32, irqArmed := true, mem := memLow 97 5 7,
    sess := { Session.reset with isOpen := true, width := some .low, n := some 512, words := some 16, r2 := r2Words 97 512 .low } }

/-- A request pending, deliverable. -/
def pending : State := { ready with irqPend := true, eng := .idle }

/-- The number an evaluation answered, if it did. -/
def value? (r : Host.Outcome Nat Fault Refusal) : Option Nat :=
  match r with
  | .next v => some v
  | .fault _ => none
  | .refused _ => none

/-- The next state of one instruction, if it has one. -/
def next? (i : Instr) (s : State) : Option State := nextOf (exec i s)

/-! ### WellFormed: one ill-formed term for each check -/

theorem test_wf_reserved_bits : (Instr.mmulL 0x100#32 0#2 0#2 0#2).wf = false ∧ (Instr.mmulH 1#32 0#2 0#2 0#2).wf = false ∧
    (Instr.mmulT 0x80#32 0#2 0#2 0#2).wf = false ∧ (Instr.autoL 0x200#32).wf = false ∧ (Instr.autoH 4#32).wf = false ∧
    (Instr.autoT 0x10#32).wf = false ∧ (Instr.idleWord 0x100#32 false 1#2 0#2 0#2 0#2).wf = false ∧
    (Instr.reservedPart 1#32 false 0#2 0#2 0#2).wf = false ∧ (Instr.reservedAuto 1#32 1#2 1#2 0#2 0#2).wf = false := by
  decide

theorem test_wf_reserved_auto_part : (Instr.reservedAuto 0#32 0#2 1#2 0#2 0#2).wf = false := by decide

theorem test_wf_reserved_auto_selectors : (Instr.reservedAuto 0#32 1#2 0#2 0#2 0#2).wf = false := by decide

theorem test_wf_index : [Instr.rMod 48#6, .wMod 48#6 0#32, .rOp0 48#6, .wOp0 63#6 0#32, .rOp1 48#6, .wOp1 48#6 0#32,
    .rOp2 48#6, .wOp2 48#6 0#32, .rOp3 48#6, .wOp3 63#6 0#32].all (fun i => !i.wf) = true := by decide

theorem test_wf_image : (Instr.slotImage .mod (List.replicate 47 0#32)).wf = false := by decide

theorem test_config_wf : cfg.wf = true := by decide

/-! ### Decode: a word written out for every row -/

/-- 30_encoding.md R98, V1 to V9; the high widths and the auto-runs from the layout. -/
theorem test_decode_commands :
    decode (.cmd 0x191#32) = .ok (.mmulL 0#32 0#2 1#2 2#2) ∧ decode (.cmd 0x1C1#32) = .ok (.mmulL 0#32 0#2 0#2 3#2) ∧
    decode (.cmd 0x19E#32) = .ok (.mmulH 0#32 3#2 1#2 2#2) ∧ decode (.cmd 0x1FF#32) = .ok (.mmulT 0#32 3#2 3#2 3#2) ∧
    decode (.cmd 0xABCD0141#32) = .ok (.mmulL 0xABCD0000#32 0#2 0#2 1#2) ∧ decode (.cmd 0x301#32) = .ok (.autoL 0#32) ∧
    decode (.cmd 0x302#32) = .ok (.autoH 0#32) ∧ decode (.cmd 0x303#32) = .ok (.autoT 0#32) := ⟨rfl, rfl, rfl, rfl, rfl, rfl, rfl, rfl⟩

theorem test_decode_other_words :
    decode (.cmd 0x091#32) = .ok (.idleWord 0#32 false 1#2 0#2 1#2 2#2) ∧
    decode (.cmd 0x203#32) = .ok (.idleWord 0#32 true 3#2 0#2 0#2 0#2) ∧
    decode (.cmd 0x100#32) = .ok (.reservedPart 0#32 false 0#2 0#2 0#2) ∧
    decode (.cmd 0x344#32) = .ok (.reservedPart 0#32 true 1#2 0#2 1#2) ∧
    decode (.cmd 0x311#32) = .ok (.reservedAuto 0#32 1#2 0#2 1#2 0#2) ∧
    decode (.expw 0xFFFF0001#32) = .ok (.expw 0xFFFF#16 0x0001#16) ∧
    decode (.image (.op 1#2) (small 48 5)) = .ok (.slotImage (.op 1#2) (small 48 5)) ∧
    decode (.image .mod (small 47 5)) = .error .imageShape := ⟨rfl, rfl, rfl, rfl, rfl, rfl, rfl, rfl⟩

/-- 20_memory.md R55, R59: word 47 of MOD at 0xBC, of the operand slots in their pages. -/
theorem test_decode_slots :
    decode (.memRead .data 0xBC#32 4) = .ok (.rMod 47#6) ∧ decode (.memWrite .data 0x4#32 4 9#32) = .ok (.wMod 1#6 9#32) ∧
    decode (.memRead .data 0x1000#32 4) = .ok (.rOp0 0#6) ∧ decode (.memWrite .data 0x10BC#32 4 9#32) = .ok (.wOp0 47#6 9#32) ∧
    decode (.memRead .data 0x2004#32 4) = .ok (.rOp1 1#6) ∧ decode (.memWrite .data 0x203C#32 4 9#32) = .ok (.wOp1 15#6 9#32) ∧
    decode (.memRead .data 0x3040#32 4) = .ok (.rOp2 16#6) ∧ decode (.memWrite .data 0x3044#32 4 9#32) = .ok (.wOp2 17#6 9#32) ∧
    decode (.memRead .data 0x40BC#32 4) = .ok (.rOp3 47#6) ∧ decode (.memWrite .data 0x4008#32 4 9#32) = .ok (.wOp3 2#6 9#32) :=
  ⟨rfl, rfl, rfl, rfl, rfl, rfl, rfl, rfl, rfl, rfl⟩

/-- 20_memory.md R54, R55; 60_exceptions.md R237, R238; 41_host_primitives.md R150. -/
theorem test_decode_registers :
    decode (.memWrite .data 0x5000#32 4 0x8000#32) = .ok (.wFifo 0x8000#32) ∧ decode (.memRead .data 0x5000#32 4) = .ok .rFifo ∧
    decode (.memRead .ctrl 0x0#32 4) = .ok .rCtrl ∧ decode (.memWrite .ctrl 0x0#32 4 0x191#32) = .ok (.wCtrl 0x191#32) ∧
    decode (.memRead .ctrl 0x11C#32 4) = .ok .rGie ∧ decode (.memWrite .ctrl 0x11C#32 4 1#32) = .ok (.wGie 1#32) ∧
    decode (.memRead .ctrl 0x128#32 4) = .ok .rIer ∧ decode (.memWrite .ctrl 0x128#32 4 1#32) = .ok (.wIer 1#32) ∧
    decode (.chanWrite 4 1#32) = .ok .arm ∧ decode (.chanRead 4) = .ok .cnt ∧ decode .delay = .ok .delay :=
  ⟨rfl, rfl, rfl, rfl, rfl, rfl, rfl, rfl, rfl, rfl, rfl⟩

theorem test_decode_calls : [Instr.openSession, .closeSession, .wrs .mod .low 5, .rds (.op 0#2) .high,
    .startSingle .low 0#2 1#2 2#2, .startAuto .total, .pushe 1 none 32, .wait, .updmod 97 512, .mul 5 7 none,
    .exp 5 11 32 none, .dexp 5 5 7 6 32 none].all (fun i => decide (decode (.call i) = .ok i)) = true := by decide

/-- V49 and 60_exceptions.md R237, R238; a row with bits is not called. -/
theorem test_decode_refuses :
    decode (.memWrite .data 0x1000#32 2 0#32) = .error .accessShape ∧ decode (.memRead .data 0x1002#32 4) = .error .accessShape ∧
    decode (.memRead .data 0x10C0#32 4) = .error .unmappedOffset ∧ decode (.memWrite .ctrl 0x004#32 4 0#32) = .error .unmappedOffset ∧
    decode (.memRead .data 0x6000#32 4) = .error .unmappedOffset ∧ decode (.chanWrite 4 2#32) = .error .channelShape ∧
    decode (.chanRead 8) = .error .channelShape ∧ decode (.call .rFifo) = .error .notACall :=
  ⟨rfl, rfl, rfl, rfl, rfl, rfl, rfl, rfl⟩

theorem test_table_words : decodeTableWord 32 0x191 = some (.mmulL 0#32 0#2 1#2 2#2) ∧ decodeTableWord 32 1 = some .arm ∧
    decodeTableWord 16 0x3040 = some (.wOp2 16#6 0#32) ∧ decodeTableWord 16 0x11C = some (.wGie 0#32) ∧
    decodeTableWord 8 0 = some (.wCtrl 0#32) := ⟨rfl, rfl, rfl, rfl, rfl⟩

theorem test_fetch_word : (nextOf (step (State.reset.withFetchWord 32 0x191))).map (·.eng) =
    some (.latching (.mmul .low 0#2 1#2 2#2)) := by decide

/-! ### Codec and exponent words (V10 to V19) -/

theorem test_encode_low : slotEncode ((List.range 48).map (fun i => BitVec.ofNat 32 (i + 1))) .low =
    (List.range 16).map (fun i => BitVec.ofNat 32 (i + 1)) ++ List.replicate 32 0#32 := by decide

theorem test_encode_high : slotEncode ((List.range 32).map (fun i => BitVec.ofNat 32 (i + 1))) .high =
    List.replicate 16 0#32 ++ (List.range 32).map (fun i => BitVec.ofNat 32 (i + 1)) := by decide

theorem test_exponent_words : expStream 0x80000001 0x0000FFFF 1 = [0x00008000#32, 0xFFFF0001#32] ∧
    expStream 0xB 0 1 = [0x00000000#32, 0x0000000B#32] ∧
    expStream 0x8000000000000001 0x00000001FFFF0000 2 = [0x00008000#32, 0x00010000#32, 0xFFFF0000#32, 0x00000001#32] := by
  decide

/-! ### Arithmetic (V20 to V29, V20f) -/

theorem test_montmul_small : montMul 5 7 97 512 = 1 ∧ montMul 5 7 97 1024 = 61 ∧ montMul 5 7 97 1536 = 35 ∧
    montMul 0 7 97 512 = 0 ∧ montMul 96 96 97 512 = 61 ∧ montMul 5 5 97 512 = 70 ∧ montMul 1 61 97 512 = 35 ∧
    montMul 2 2 3 512 = 1 ∧ montMul 0 0 1 512 = 0 := by decide +kernel

/-- V20f: `x` is 0x01234567_89abcdef repeated 8 times, `m = 2^512 - 569`; the last line of the vector. -/
theorem test_montmul_full : montMul (0x0123456789abcdef * ((2 ^ 512 - 1) / (2 ^ 64 - 1))) 0x4f0b1 (2 ^ 512 - 569) 512 =
    0x87654320fedcb83987654320fedcb83987654320fedcb83987654320fedcb83987654320fedcb83987654320fedcb83987654320fedcb83987654320fedcbca9 := by
  decide +kernel

theorem test_r2 : r2Of 97 512 = 61 ∧ r2Of 97 1024 = 35 ∧ r2Of 97 1536 = 1 ∧ r2Of (2 ^ 512 - 569) 512 = 0x4F0B1 := by
  decide +kernel

/-! ### The engine and the interrupt (V25b, V30, V31, V33, V70 to V75) -/

theorem test_mmul_result : (nextOf (engineStep (running 97 5 7))).map
    (fun t => (regionVal t.mem (.op 0#2) .low, slotWord t.mem (.op 0#2) 16, slotWord t.mem .mod 0, t.eng, t.irqPend)) =
    some (some 1, none, some 97#32, .idle, true) := by decide +kernel

theorem test_mmul_refusals : refusalBy (engineStep (running 96 5 7)) = some .operandOutOfDomain ∧
    refusalBy (engineStep (running 97 97 7)) = some .operandOutOfDomain ∧
    refusalBy (engineStep { running 97 5 7 with mem := cellsFrom 0 (small 16 97) }) = some .unwrittenSlotWord := by decide

theorem test_auto_single : value? (autoRun (cellsFrom 0x2000 (small 16 78)) .low 97 [0#32, 0xB#32] 35) = some 60 := by decide +kernel

theorem test_auto_dual : value? (autoRun
    (cellsFrom 0x2000 (small 16 78) ++ cellsFrom 0x3000 (small 16 51) ++ cellsFrom 0x4000 (small 16 61)) .low 97
    [0#32, 0x00060005#32] 35) = some 7 := by decide +kernel

theorem test_auto_empty : refusalBy (engineStep (autoRunning (memAuto 97 35 78 51 61) [])) = some .autoRunWithEmptyFifo := by
  decide

theorem test_deliver : (irqStep pending).irqCount = 1#32 ∧ (irqStep pending).irqPend = false ∧
    (irqStep pending).irqArmed = false ∧ deliverEnabled { pending with gie := 0#32 } = false := by decide

/-! ### Command words and W CTRL (V40 to V46) -/

theorem test_mmulL : (next? (.mmulL 0#32 0#2 1#2 2#2) State.reset).map (fun t => (t.ctrl, t.eng)) =
    some (0x191#32, .latching (.mmul .low 0#2 1#2 2#2)) := by decide

theorem test_mmulH : (next? (.mmulH 0#32 3#2 1#2 2#2) State.reset).map (·.ctrl) = some 0x19E#32 := by decide

theorem test_mmulT : (next? (.mmulT 0#32 3#2 3#2 3#2) State.reset).map (·.ctrl) = some 0x1FF#32 := by decide

theorem test_autoL : (next? (.autoL 0#32) State.reset).map (fun t => (t.ctrl, t.eng)) =
    some (0x301#32, .latching (.auto .low)) := by decide

theorem test_autoH : (next? (.autoH 0#32) State.reset).map (·.ctrl) = some 0x302#32 := by decide

theorem test_autoT : (next? (.autoT 0#32) State.reset).map (·.ctrl) = some 0x303#32 := by decide

theorem test_idle_word_withdraws : (next? (.idleWord 0#32 false 1#2 0#2 1#2 2#2) launched).map (fun t => (t.ctrl, t.eng)) =
    some (0x091#32, .idle) := by decide

theorem test_reserved_words : refusalBy (exec (.reservedPart 0#32 false 0#2 0#2 0#2) State.reset) = some .reservedCommand ∧
    refusalBy (exec (.reservedAuto 0#32 1#2 0#2 1#2 0#2) State.reset) = some .reservedCommand := by decide

theorem test_wCtrl_running : (next? (.wCtrl 0x091#32) { running 97 5 7 with ctrl := 0x191#32 }).map (fun t => (t.ctrl, t.eng)) =
    some (0x091#32, .busyMmul .low 0#2 1#2 2#2) := by decide

theorem test_wCtrl_busy_launch : refusalBy (exec (.wCtrl 0x1C1#32) (running 97 5 7)) = some .launchWhileBusy := by decide

theorem test_rCtrl : (next? .rCtrl State.reset).map (·.ret) = some (.word 0#32) := by decide

theorem test_delay : (next? .delay launched).map (·.eng) = some (.busyMmul .low 0#2 1#2 2#2) := by decide

/-! ### Bus accesses (20_memory.md R56, R57, R66) -/

theorem test_slot_reads : (next? (.rMod 0#6) ready).map (·.ret) = some (.word 97#32) ∧
    (next? (.rOp1 0#6) ready).map (·.ret) = some (.word 5#32) ∧ (next? (.rOp2 0#6) ready).map (·.ret) = some (.word 7#32) ∧
    refusalBy (exec (.rOp0 0#6) ready) = some .unwrittenSlotWord ∧
    refusalBy (exec (.rOp3 47#6) ready) = some .unwrittenSlotWord := by decide

theorem test_slot_writes : (next? (.wMod 47#6 0x11223344#32) State.reset).map (·.mem) =
      some [(0xBC, 0x44#8), (0xBD, 0x33#8), (0xBE, 0x22#8), (0xBF, 0x11#8)] ∧
    (next? (.wOp0 0#6 1#32) State.reset).map (fun t => t.mem.map (·.1)) = some [0x1000, 0x1001, 0x1002, 0x1003] ∧
    (next? (.wOp1 1#6 1#32) State.reset).map (fun t => t.mem.map (·.1)) = some [0x2004, 0x2005, 0x2006, 0x2007] ∧
    (next? (.wOp2 16#6 1#32) State.reset).map (fun t => t.mem.map (·.1)) = some [0x3040, 0x3041, 0x3042, 0x3043] ∧
    (next? (.wOp3 47#6 1#32) State.reset).map (fun t => t.mem.map (·.1)) = some [0x40BC, 0x40BD, 0x40BE, 0x40BF] := by
  decide

theorem test_busy_write : refusalBy (exec (.wOp1 0#6 1#32) (running 97 5 7)) = some .writeWhileBusy := by decide

/-- V47. -/
theorem test_fifo : (next? (.wFifo 0xFFFF0001#32) { State.reset with fifo := [0x8000#32] }).map (·.fifo) =
      some [0x8000#32, 0xFFFF0001#32] ∧
    (next? (.expw 0xFFFF#16 0x0001#16) { State.reset with fifo := [0x8000#32] }).map (·.fifo) =
      some [0x8000#32, 0xFFFF0001#32] := by decide

theorem test_rFifo : refusalBy (exec .rFifo State.reset) = some .fifoRead := rfl

theorem test_enables : (next? (.wIer 1#32) State.reset).map (·.ier) = some 1#32 ∧
    (next? (.wGie 0x80000000#32) State.reset).map (·.gie) = some 0x80000000#32 ∧
    (next? .rIer ready).map (·.ret) = some (.word 1#32) ∧ (next? .rGie ready).map (·.ret) = some (.word 0x80000000#32) := by
  decide

theorem test_channel : (next? .arm State.reset).map (·.irqArmed) = some true ∧
    (next? .cnt { State.reset with irqCount := 8#32, chanSeen := 7#32 }).map (fun t => (t.ret, t.chanSeen)) =
      some (.count (some 8#32), 8#32) ∧
    (next? .cnt State.reset).map (·.ret) = some (.count none) := by decide

/-! ### Wrapper operations and algorithms (V50 to V85) -/

theorem test_open : (next? .openSession State.reset).map (fun t => (t.ier, t.gie, t.irqArmed, t.sess.isOpen)) =
    some (1#32, 0x80000000#32, true, true) := by decide

theorem test_close : (next? .closeSession ready).map (fun t => (t.sess.isOpen, t.irqArmed)) = some (false, true) := by
  decide

/-- V50. -/
theorem test_wrs : (next? (.wrs (.op 2#2) .high 5) State.reset).map
    (fun t => (getWord t.mem 0x3000, getWord t.mem 0x3040, getWord t.mem 0x3044, getWord t.mem 0x30BC, t.mem.length)) =
    some (some 0#32, some 5#32, some 0#32, some 0#32, 192) := by decide +kernel

/-- V51, V52 at widths that fit one slot image. -/
theorem test_rds : (next? (.rds (.op 1#2) .low) ready).map (·.ret) = some (.value (small 16 5)) := by decide

theorem test_startSingle : (next? (.startSingle .low 0#2 1#2 2#2) State.reset).map (fun t => (t.ctrl, t.eng)) =
    some (0x091#32, .busyMmul .low 0#2 1#2 2#2) := by decide

theorem test_startAuto : (next? (.startAuto .total) { State.reset with ctrl := 0x091#32 }).map (fun t => (t.ctrl, t.eng)) =
    some (0x203#32, .busyAuto .total) := by decide

/-- V55, V56, V57. -/
theorem test_pushe : (next? (.pushe 0x80000001 (some 0xFFFF) 32) State.reset).map (·.fifo) =
      some [0x00008000#32, 0xFFFF0001#32] ∧
    (next? (.pushe 1 none 40) State.reset).map (fun t => (t.fifo, t.ret)) = some ([], .error .invalidExponentLength) ∧
    (next? (.pushe 1 none 0) State.reset).map (fun t => (t.fifo, t.ret)) = some ([], .done) := by decide

/-- V60. -/
theorem test_wait : (next? .wait { running 97 5 7 with
      ier := 1#32, gie := 0x80000000#32, irqArmed := true, irqCount := 7#32, chanSeen := 7#32,
      sess := { Session.reset with isOpen := true, lastCount := 7#32 } }).map
    (fun t => (t.irqCount, t.chanSeen, t.sess.lastCount, t.irqArmed, t.sess.desync)) =
    some (8#32, 8#32, 8#32, true, false) := by decide +kernel

/-- V61, V63. -/
theorem test_wait_timeout : (next? .wait { ready with irqCount := 7#32, chanSeen := 7#32 }).map
      (fun t => (t.sess.lastCount, t.sess.desync, t.irqArmed, t.log)) = some (0#32, true, true, [.completionTimeout]) ∧
    (next? .wait { pending with irqCount := 0xFFFFFFFF#32, chanSeen := 0xFFFFFFFF#32,
                                sess := { Session.reset with isOpen := true, lastCount := 0xFFFFFFFF#32 } }).map
      (fun t => (t.sess.lastCount, t.sess.desync)) = some (0#32, true) := by decide

/-- V65, V66. -/
theorem test_updmod : (next? (.updmod 97 1024) State.reset).map
      (fun t => (t.sess.width, t.sess.r2[0]?, slotWord t.mem .mod 16, slotWord t.mem .mod 0)) =
      some (some .high, some 35#32, some 97#32, some 0#32) ∧
    (next? (.updmod 97 768) State.reset).map (fun t => (t.sess.width, t.mem, t.ret)) =
      some (none, [], .error .unsupportedWidth) := by decide +kernel

/-- V80 to V82: the products the sequences of 43_algorithms.md end with, from the auto-runs' results above. -/
theorem test_algorithm_values : montMul (montMul 5 7 97 512) 61 97 512 = 35 ∧ montMul 60 1 97 512 = 71 ∧
    montMul 7 1 97 512 = 39 := by decide +kernel

/-- V66 for the explicit forms of MUL and DEXP. -/
theorem test_mul_dexp_width : (next? (.mul 5 7 (some (97, 768))) ready).map (fun t => (t.ret, t.log)) =
      some (.error .unsupportedWidth, [.unsupportedWidth]) ∧
    (next? (.dexp 5 5 7 6 48 (some (97, 512))) ready).map (·.ret) = some (.error .invalidExponentLength) := by decide

/-- V85. -/
theorem test_exp_error_order : (next? (.exp 5 1 48 (some (97, 768))) ready).map (·.ret) = some (.error .unsupportedWidth) := by
  decide

/-! ### Witnesses: states and operands that meet each statement's hypotheses -/

/-- `ready` is in the protocol's READY state: it serves the statements about waits, rounds and algorithms. -/
theorem ready_Ready : Ready ready := ⟨rfl, rfl, rfl, rfl, rfl, by decide, rfl, by decide, by decide⟩

theorem ready_modulus : regionVal ready.mem .mod .low = some 97 := by decide

theorem ready_operands : regionVal ready.mem (.op 1#2) .low = some 5 ∧ regionVal ready.mem (.op 2#2) .low = some 7 := by
  decide

theorem fifo_room : 2 * (32 / 32) ≤ Config.fifoDepth := by unfold Config.fifoDepth; omega

theorem fifo_not_full : 0 + 1 < Config.fifoDepth := by unfold Config.fifoDepth; omega

theorem test_meets_StepRunsDecoded :
    (∃ s : State, s.prog = [.memRead .ctrl 0#32 4] ∧ decode (.memRead .ctrl 0#32 4) = .ok .rCtrl ∧ Instr.rCtrl.wf = true ∧
      s.sched = []) ∧
    (∃ s : State, s.prog = [.cmd 0x191#32] ∧ decode (.cmd 0x191#32) = .ok (.mmulL 0#32 0#2 1#2 2#2) ∧
      (Instr.mmulL 0#32 0#2 1#2 2#2).wf = true ∧ s.sched = [.host, .engine]) :=
  ⟨⟨{ State.reset with prog := [.memRead .ctrl 0#32 4] }, rfl, rfl, rfl, rfl⟩,
    ⟨{ State.reset with prog := [.cmd 0x191#32], sched := [.host, .engine] }, rfl, rfl, by decide, rfl⟩⟩

theorem test_meets_StepOfOtherAgents :
    ({ State.reset with sched := [.engine] } : State).sched = [.engine] ∧
    ({ State.reset with sched := [.irq] } : State).sched = [.irq] ∧
    ({ State.reset with sched := [.timeout] } : State).sched = [.timeout] ∧
    (launched.prog = [] ∧ launched.sched = [] ∧ launched.eng ≠ .idle) ∧
    (pending.prog = [] ∧ pending.sched = [] ∧ pending.eng = .idle) ∧ Ended State.reset :=
  ⟨rfl, rfl, rfl, ⟨rfl, rfl, by decide⟩, ⟨rfl, rfl, rfl⟩, ⟨rfl, rfl, rfl, rfl⟩⟩

theorem test_meets_BadShapesRefused :
    (∃ s : State, s.sched = [] ∧ (2 ≠ 4 ∨ (0x1000#32).toNat % 4 ≠ 0) ∧ s.prog = [.memRead .data 0x1000#32 2]) ∧
    (∃ s : State, s.sched = [] ∧ (4 ≠ 4 ∨ (0x1001#32).toNat % 4 ≠ 0) ∧ s.prog = [.memWrite .ctrl 0x1001#32 4 0#32]) :=
  ⟨⟨{ State.reset with prog := [.memRead .data 0x1000#32 2] }, rfl, by decide, rfl⟩,
    ⟨{ State.reset with prog := [.memWrite .ctrl 0x1001#32 4 0#32] }, rfl, by decide, rfl⟩⟩

/-- The first and last unmapped words of a slot page, the word after the FIFO port; the control words beside the registers. -/
theorem test_meets_UnmappedOffsetsRefused :
    [0xC0, 0xFFC, 0x40C0, 0x5004, 0x6000, 0xFFFFFFFC].all (fun o => decide ((BitVec.ofNat 32 o).toNat % 4 = 0 ∧
      (((BitVec.ofNat 32 o).toNat < 0x5000 ∧ 0xC0 ≤ (BitVec.ofNat 32 o).toNat % 0x1000) ∨ 0x5000 < (BitVec.ofNat 32 o).toNat))) =
      true ∧
    [0x4, 0x118, 0x120, 0x124, 0x12C].all (fun o => decide (o % 4 = 0 ∧ o ≠ 0 ∧ o ≠ 0x11C ∧ o ≠ 0x128)) = true ∧
    (∃ s : State, s.sched = [] ∧ s.prog = [.memRead .data 0xC0#32 4]) ∧
    (∃ s : State, s.sched = [] ∧ s.prog = [.memWrite .ctrl 0x4#32 4 0#32]) :=
  ⟨by decide, by decide, ⟨{ State.reset with prog := [.memRead .data 0xC0#32 4] }, rfl, rfl⟩,
    ⟨{ State.reset with prog := [.memWrite .ctrl 0x4#32 4 0#32] }, rfl, rfl⟩⟩

theorem test_meets_DecodeEncode : (Instr.rOp3 47#6).wf = true ∧ (Instr.reservedAuto 0xFFFFFC00#32 3#2 3#2 0#2 0#2).wf = true ∧
    (Instr.slotImage .mod (small 48 1)).wf = true := by decide

theorem test_meets_EncodeDecode : ∃ i, decode (.memRead .data 0x40BC#32 4) = .ok i := ⟨_, rfl⟩

theorem test_meets_StepKeepsInv : ∃ t, Inv State.reset ∧ step State.reset = .next t :=
  ⟨_, ⟨rfl, fun _ hc => absurd hc List.not_mem_nil, Nat.zero_le _, ⟨rfl, rfl, rfl⟩, trivial⟩, rfl⟩

theorem test_meets_SessionFieldsFrame : ∃ t, (Instr.closeSession ≠ .openSession) ∧ (∀ m n, Instr.closeSession ≠ .updmod m n) ∧
    exec .closeSession ready = .next t := ⟨_, by decide, fun _ _ h => Instr.noConfusion h, rfl⟩

theorem test_meets_InterruptEnablesFrame : ∃ t, Instr.wGie 0#32 ≠ .openSession ∧ (∀ v, Instr.wGie 0#32 ≠ .wIer v) ∧
    (∀ v, Instr.arm ≠ .wGie v) ∧ exec (.wGie 0#32) ready = .next t :=
  ⟨_, by decide, fun _ h => Instr.noConfusion h, fun _ h => Instr.noConfusion h, rfl⟩

theorem test_meets_DesyncIsSticky : ∃ s t : State, Instr.closeSession ≠ .openSession ∧ s.sess.desync = true ∧
    exec .closeSession s = .next t := ⟨timedOut ready, _, by decide, rfl, rfl⟩

theorem test_meets_AgentsLeaveAlone : ∃ t, engineStep launched = .next t := ⟨_, rfl⟩

/-- For MmulLaunches, AutoLaunches, WriteSlotValue, StartCalls and StrobeIsOneAction. -/
theorem test_meets_launches : State.reset.eng = .idle ∧ fieldStart State.reset.ctrl = false ∧ State.reset.irqPend = false ∧
    Turn.engine ∉ State.reset.sched := by decide

theorem test_meets_StrobeIsOneAction : (∃ t, exec (.startSingle .low 0#2 1#2 2#2) State.reset = .next t) ∧
    (∃ t, exec (.startAuto .low) State.reset = .next t) := ⟨⟨_, rfl⟩, ⟨_, rfl⟩⟩

theorem test_meets_IdleWordWrites : State.reset.eng = .idle ∧
    (launched.eng = .latching (.mmul .low 0#2 1#2 2#2) ∧ fieldStart launched.ctrl = true ∧
      SameFields (cmdWord 0#32 1#2 0#2 1#2 2#2 false false) launched.ctrl) ∧
    ((running 97 5 7).eng ≠ .idle ∧ latching (running 97 5 7) = false ∧
      SameFields (cmdWord 0#32 1#2 0#2 1#2 2#2 false false) (running 97 5 7).ctrl) :=
  ⟨rfl, ⟨rfl, rfl, by unfold SameFields; decide⟩, by decide, rfl, by unfold SameFields; decide⟩

theorem test_meets_ReservedWords : State.reset.eng = .idle ∧ fieldStart State.reset.ctrl = false ∧
    (Instr.reservedAuto 0#32 1#2 0#2 1#2 0#2).wf = true ∧
    (∃ s : State, s.eng = .idle ∧ fieldStart s.ctrl = true) := ⟨rfl, rfl, by decide, { State.reset with ctrl := 0x191#32 }, rfl, rfl⟩

theorem test_meets_WriteCtrlCases :
    (State.reset.eng = .idle ∧ fieldStart State.reset.ctrl = false ∧ fieldStart 0x191#32 = true ∧
      decodeCmd 0x191#32 = some (.mmul .low 0#2 1#2 2#2) ∧ decodeCmd 0x100#32 = none ∧ fieldStart 0x100#32 = true ∧
      fieldStart 0x091#32 = false) ∧
    ((running 97 5 7).eng ≠ .idle ∧ fieldStart (running 97 5 7).ctrl = false ∧ ¬ SameFields 0x081#32 (running 97 5 7).ctrl ∧
      SameFields 0x091#32 (running 97 5 7).ctrl ∧ fieldStart 0x091#32 = fieldStart (running 97 5 7).ctrl) ∧
    (fieldStart launched.ctrl = true ∧ SameFields 0x091#32 launched.ctrl) ∧
    (∃ s : State, s.eng ≠ .idle ∧ latching s = false ∧ fieldStart s.ctrl = true ∧ SameFields 0x091#32 s.ctrl) :=
  ⟨by decide, ⟨by decide, rfl, by unfold SameFields; decide, by unfold SameFields; decide, rfl⟩,
    ⟨rfl, by unfold SameFields; decide⟩,
    { running 97 5 7 with ctrl := 0x191#32 }, by decide, rfl, rfl, by unfold SameFields; decide⟩

theorem test_meets_LaunchDecoding :
    [(0x191#32, 1#2), (0x19E#32, 2#2), (0x1FF#32, 3#2)].all (fun p => decide (p.1.getLsbD 9 = false ∧ p.1.extractLsb' 0 2 = p.2)) = true ∧
    [(0x301#32, 1#2), (0x302#32, 2#2), (0x303#32, 3#2)].all
      (fun p => decide (p.1.getLsbD 9 = true ∧ p.1.extractLsb' 2 6 = 0#6 ∧ p.1.extractLsb' 0 2 = p.2)) = true ∧
    (0x100#32).extractLsb' 0 2 = 0#2 ∧ (0x311#32).getLsbD 9 = true ∧ (0x311#32).extractLsb' 2 6 ≠ 0#6 := by decide

/-- For MontgomeryProduct and MontgomeryIdentities. -/
theorem test_meets_Montgomery : 97 % 2 = 1 ∧ 61 < 97 ∧ 2 ^ 512 * 61 % 97 = 1 % 97 ∧ 1 < 97 := by decide +kernel

theorem test_meets_EngineLatches : launched.eng = .latching (.mmul .low 0#2 1#2 2#2) ∧ State.reset.eng = .idle ∧
    ∃ s : State, s.eng = .latching (.auto .high) := ⟨rfl, rfl, { State.reset with eng := .latching (.auto .high) }, rfl⟩

theorem test_meets_MmulCompletes : (running 97 5 7).eng = .busyMmul .low 0#2 1#2 2#2 ∧
    MmulDomain (running 97 5 7) .low 1#2 2#2 97 5 7 ∧
    regionVal ([] : Memory) .mod .low = none ∧
    (regionVal (memLow 97 97 7) .mod .low = some 97 ∧ regionVal (memLow 97 97 7) (.op 1#2) .low = some 97 ∧
      regionVal (memLow 97 97 7) (.op 2#2) .low = some 7 ∧ 97 ≤ 97) :=
  ⟨rfl, ⟨by decide, by decide, by decide, rfl, by decide, by decide⟩, by decide, by decide⟩

theorem test_meets_AutoComputesPowers : ∃ s : State, s.eng = .busyAuto .low ∧ regionVal s.mem .mod .low = some 97 ∧
    97 % 2 = 1 ∧ 5 < 97 ∧ 7 < 97 ∧ regionVal s.mem (.op cfg.acc) .low = some (2 ^ bitsOf .low % 97) ∧
    regionVal s.mem (.op cfg.tab1) .low = some (5 * 2 ^ bitsOf .low % 97) ∧
    (6 ≠ 0 → regionVal s.mem (.op cfg.tab2) .low = some (7 * 2 ^ bitsOf .low % 97) ∧
      regionVal s.mem (.op cfg.tab3) .low = some (5 * 7 * 2 ^ bitsOf .low % 97)) ∧
    0 < 32 ∧ 32 % 32 = 0 ∧ 5 < 2 ^ 32 ∧ 6 < 2 ^ 32 ∧ s.fifo = expStream 5 6 (32 / 32) :=
  ⟨autoRunning (memAuto 97 35 78 51 61) (expStream 5 6 1), rfl, by decide +kernel, rfl, by decide, by decide, by decide +kernel,
    by decide +kernel, fun _ => ⟨by decide +kernel, by decide +kernel⟩, by decide, rfl, by decide, by decide, rfl⟩

/-- The engine runs; a modulus without a value, and with one; the FIFO empty, and not; an accumulator without a value, an even
modulus with an accumulator equal to it, and a good pair of them. -/
theorem test_meets_AutoRefusals :
    (autoRunning [] []).eng = .busyAuto .low ∧ regionVal [] .mod .low = none ∧
    regionVal (memAuto 97 35 78 51 61) .mod .low = some 97 ∧
    (autoRunning (memAuto 97 35 78 51 61) []).fifo = [] ∧ (autoRunning (memAuto 97 35 78 51 61) [0#32]).fifo ≠ [] ∧
    regionVal (memLow 97 5 7) .mod .low = some 97 ∧ regionVal (memLow 97 5 7) (.op cfg.acc) .low = none ∧
    regionVal (memAuto 96 96 0 0 0) .mod .low = some 96 ∧ regionVal (memAuto 96 96 0 0 0) (.op cfg.acc) .low = some 96 ∧
    regionVal (memAuto 97 35 78 51 61) (.op cfg.acc) .low = some 35 :=
  ⟨rfl, rfl, by decide, rfl, by decide, by decide, by decide, by decide, by decide, by decide⟩

/-- A queue that selects TAB1 at pair bit 0, TAB2 at 1 and, at the last one, 31, TAB3. -/
def selecting : List Word := [0x40008000#32, 0x00010001#32]

theorem test_pairSlot : pairSlot selecting 0 = some (.op cfg.tab1) ∧ pairSlot selecting 1 = some (.op cfg.tab2) ∧
    pairSlot selecting 31 = some (.op cfg.tab3) ∧
    (List.range 29).all (fun i => decide (pairSlot selecting (i + 2) = none)) = true := by decide

/-- AutoRefusals: a multiplicand equal to the modulus in each of the three slots, those before it below it; one without a
value; and all three below the modulus. -/
theorem test_meets_AutoRefusals_multiplicands :
    regionVal (memAuto 97 35 97 51 61) (.op cfg.tab1) .low = some 97 ∧
    regionVal (memAuto 97 35 78 97 61) (.op cfg.tab1) .low = some 78 ∧
    regionVal (memAuto 97 35 78 97 61) (.op cfg.tab2) .low = some 97 ∧
    regionVal (memAuto 97 35 78 51 97) (.op cfg.tab1) .low = some 78 ∧
    regionVal (memAuto 97 35 78 51 97) (.op cfg.tab2) .low = some 51 ∧
    regionVal (memAuto 97 35 78 51 97) (.op cfg.tab3) .low = some 97 ∧
    regionVal (cellsFrom 0x0000 (small 16 97) ++ cellsFrom 0x1000 (small 16 35)) (.op cfg.tab1) .low = none ∧
    regionVal (memAuto 97 35 78 51 61) (.op cfg.tab1) .low = some 78 ∧
    regionVal (memAuto 97 35 78 51 61) (.op cfg.tab2) .low = some 51 ∧
    regionVal (memAuto 97 35 78 51 61) (.op cfg.tab3) .low = some 61 := by decide +kernel

theorem test_meets_SlotReads : ready.eng = .idle ∧ (47#6).toNat < 48 ∧ slotWord ready.mem .mod 0 = some 97#32 ∧
    slotWord ready.mem (.op 1#2) 0 = some 5#32 ∧ slotWord ready.mem (.op 2#2) 0 = some 7#32 ∧
    slotWord (memAuto 97 35 78 51 61) (.op 0#2) 0 = some 35#32 ∧ slotWord (memAuto 97 35 78 51 61) (.op 3#2) 0 = some 61#32 ∧
    [Slot.mod, .op 0#2, .op 1#2, .op 2#2, .op 3#2].all (fun S => decide (slotWord [] S 47 = none)) = true := by decide +kernel

theorem test_meets_SlotWrites : ready.eng = .idle ∧ (47#6).toNat < 48 ∧
    ((Slot.op 3#2 = .mod ∧ Instr.wOp3 47#6 1#32 = .wMod 47#6 1#32) ∨ (Slot.op 3#2 = .op 0#2 ∧ Instr.wOp3 47#6 1#32 = .wOp0 47#6 1#32) ∨
      (Slot.op 3#2 = .op 1#2 ∧ Instr.wOp3 47#6 1#32 = .wOp1 47#6 1#32) ∨
      (Slot.op 3#2 = .op 2#2 ∧ Instr.wOp3 47#6 1#32 = .wOp2 47#6 1#32) ∨
      (Slot.op 3#2 = .op 3#2 ∧ Instr.wOp3 47#6 1#32 = .wOp3 47#6 1#32)) := by decide

theorem test_meets_BusyAccesses : launched.eng ≠ .idle ∧ (47#6).toNat < 48 ∧
    Instr.rOp3 47#6 ∈ [Instr.rMod 47#6, .rOp0 47#6, .rOp1 47#6, .rOp2 47#6, .rOp3 47#6] ∧
    Instr.wFifo 1#32 ∈ [Instr.wMod 0#6 1#32, .wOp0 0#6 1#32, .wOp1 0#6 1#32, .wOp2 0#6 1#32, .wOp3 0#6 1#32, .wFifo 1#32] := by
  decide

/-- For FifoPush and EncodedObjectsStore. -/
theorem test_meets_pushes : State.reset.eng = .idle ∧ State.reset.fifo.length < Config.fifoDepth ∧
    State.reset.fifo.length + 1 < Config.fifoDepth ∧ launched.eng ≠ .idle ∧
    (∃ s : State, s.eng = .idle ∧ Config.fifoDepth ≤ s.fifo.length) ∧ (small 48 1).length = 48 ∧ (small 47 1).length ≠ 48 :=
  ⟨rfl, Nat.lt_of_succ_lt fifo_not_full, fifo_not_full, by decide,
    ⟨{ State.reset with fifo := List.replicate Config.fifoDepth 0#32 }, rfl, by simp⟩, rfl, by decide⟩

theorem test_meets_RegisterReads : (∃ t, exec (.wCtrl 0x191#32) State.reset = .next t) ∧
    (∃ t, exec (.wIer 1#32) State.reset = .next t) ∧ (∃ t, exec (.wGie 1#32) State.reset = .next t) :=
  ⟨⟨_, rfl⟩, ⟨_, rfl⟩, ⟨_, rfl⟩⟩

theorem test_meets_EnableWrites : ∃ t, pending.irqPend = true ∧ pending.irqArmed = true ∧ pending.ier.getLsbD 0 = true ∧
    (0x80000000#32).getLsbD 31 = true ∧ exec (.wGie 0x80000000#32) pending = .next t := ⟨_, rfl, rfl, rfl, rfl, rfl⟩

theorem test_meets_Delivery : deliverEnabled pending = true ∧ deliverEnabled State.reset = false := by decide

theorem test_meets_Arming : ready.irqArmed = true ∧
    (∃ s : State, s.sched = [] ∧ (4 ≠ 4 ∨ 2#32 ≠ 1#32) ∧ s.prog = [.chanWrite 4 2#32]) ∧
    (∃ s : State, s.sched = [] ∧ 8 ≠ 4 ∧ s.prog = [.chanRead 8]) :=
  ⟨rfl, ⟨{ State.reset with prog := [.chanWrite 4 2#32] }, rfl, by decide, rfl⟩,
    ⟨{ State.reset with prog := [.chanRead 8] }, rfl, by decide, rfl⟩⟩

theorem test_meets_ChannelRead : (∃ s : State, s.irqCount ≠ s.chanSeen) ∧
    (∃ s : State, s.irqCount = s.chanSeen ∧ s.sched = [.timeout]) ∧
    (∃ s : State, s.irqCount = s.chanSeen ∧ s.sched = [.irq] ∧ deliverEnabled s = true) ∧
    (pending.irqCount = pending.chanSeen ∧ pending.sched = [] ∧ pending.eng = .idle ∧ deliverEnabled pending = true) ∧
    (ready.irqCount = ready.chanSeen ∧ ready.sched = [] ∧ ready.eng = .idle ∧ deliverEnabled ready = false) :=
  ⟨⟨{ State.reset with irqCount := 1#32 }, by decide⟩, ⟨{ State.reset with sched := [.timeout] }, rfl, rfl⟩,
    ⟨{ pending with sched := [.irq] }, rfl, rfl, by decide⟩, ⟨rfl, rfl, rfl, by decide⟩, ⟨rfl, rfl, rfl, by decide⟩⟩

theorem test_meets_SettleDelay : latching State.reset = false ∧ launched.eng = .latching (.mmul .low 0#2 1#2 2#2) := ⟨rfl, rfl⟩

theorem test_meets_OpenSession : ready.sess.isOpen = true ∧
    (∃ s : State, s.sess.isOpen = false ∧ s.mapFails.headD false = true) ∧
    (State.reset.sess.isOpen = false ∧ State.reset.mapFails.headD false = false ∧ EngineQuiet State.reset) :=
  ⟨rfl, ⟨{ State.reset with mapFails := [true] }, rfl, rfl⟩, rfl, rfl, .inl rfl⟩

theorem test_meets_Codec : (47 : Nat) < 48 ∧ 16 ≤ (small 16 5).length ∧ 32 ≤ (small 32 5).length ∧ 48 ≤ (small 48 5).length ∧
    (small 48 5).length = 48 ∧ (small 32 5).length = cntOf .high := by decide

theorem test_meets_ReadSlotValue : ready.eng = .idle ∧ regionVal ready.mem (.op 1#2) .low = some 5 ∧ launched.eng ≠ .idle ∧
    Turn.engine ∉ launched.sched := ⟨rfl, ready_operands.1, by decide, by decide⟩

theorem test_meets_WaitTakesCount : ∃ s : State, EngineQuiet s ∧ s.irqCount ≠ s.chanSeen ∧ s.sess.lastCount < s.irqCount :=
  ⟨{ State.reset with irqCount := 8#32, chanSeen := 7#32 }, .inl rfl, by decide, by decide⟩

theorem test_meets_WaitTimesOut :
    (ready.irqCount = ready.chanSeen ∧ ready.eng = .idle ∧ deliverEnabled ready = false) ∧
    (∃ s : State, s.irqCount = s.chanSeen ∧ s.sched = [.timeout, .irq] ∧ Turn.engine ∉ [Turn.irq]) :=
  ⟨⟨rfl, rfl, by decide⟩, { launched with sched := [.timeout, .irq] }, rfl, rfl, by decide⟩

theorem test_meets_WaitAtWrap : ∃ s : State, s.eng = .idle ∧ s.irqCount = 0xFFFFFFFF#32 ∧ s.chanSeen = 0xFFFFFFFF#32 ∧
    s.sess.lastCount = 0xFFFFFFFF#32 ∧ deliverEnabled s = true ∧ NoTimeout s :=
  ⟨{ pending with irqCount := 0xFFFFFFFF#32, chanSeen := 0xFFFFFFFF#32,
                  sess := { Session.reset with isOpen := true, lastCount := 0xFFFFFFFF#32 } },
    rfl, rfl, rfl, rfl, by decide, List.not_mem_nil⟩

theorem test_meets_RoundCompletes : Ready ready ∧ NoTimeout ready ∧ ready.irqCount.toNat + 1 < 2 ^ 32 ∧
    MmulDomain ready .low 1#2 2#2 97 5 7 :=
  ⟨ready_Ready, List.not_mem_nil, by decide, ready_modulus, ready_operands.1, ready_operands.2, rfl, by decide, by decide⟩

theorem test_meets_PushExponent : 33 % 32 ≠ 0 ∧ 32 % 32 = 0 ∧ State.reset.eng = .idle ∧
    State.reset.fifo.length + 2 * (32 / 32) ≤ Config.fifoDepth ∧ State.reset.fifo.length + 2 * (0 / 32) ≤ Config.fifoDepth :=
  ⟨by decide, rfl, rfl, by simpa [State.reset] using fifo_room, Nat.zero_le _⟩

theorem test_meets_StreamBitOrder : 0 < 32 * 1 ∧ 31 < 32 * 1 := by decide

theorem test_meets_UpdateModulus : 768 ≠ 512 ∧ 768 ≠ 1024 ∧ 768 ≠ 1536 ∧ State.reset.eng = .idle ∧ 0 < 97 ∧
    97 < 2 ^ bitsOf .low ∧ cntOf .low ≤ 16 ∧ 16 < 48 := by decide +kernel

theorem test_meets_MulAmbient : Ready ready ∧ NoTimeout ready ∧ ready.irqCount.toNat + 2 < 2 ^ 32 ∧
    ready.sess.width = some .low ∧ ready.sess.r2 = r2Words 97 (bitsOf .low) .low ∧ regionVal ready.mem .mod .low = some 97 ∧
    97 % 2 = 1 ∧ 5 < 97 ∧ 7 < 97 :=
  ⟨ready_Ready, List.not_mem_nil, by decide, rfl, rfl, ready_modulus, rfl, by decide, by decide⟩

theorem test_meets_MulExplicit : Ready ready ∧ NoTimeout ready ∧ ready.irqCount.toNat + 2 < 2 ^ 32 ∧ 97 % 2 = 1 ∧
    97 < 2 ^ bitsOf .high ∧ 5 < 97 ∧ 7 < 97 := ⟨ready_Ready, List.not_mem_nil, by decide, rfl, by decide +kernel, by decide, by decide⟩

theorem test_meets_ExpAmbient : Ready ready ∧ NoTimeout ready ∧ ready.irqCount.toNat + 4 < 2 ^ 32 ∧
    ready.sess.width = some .low ∧ ready.sess.r2 = r2Words 97 (bitsOf .low) .low ∧ regionVal ready.mem .mod .low = some 97 ∧
    97 % 2 = 1 ∧ 1 < 97 ∧ 5 < 97 ∧ 0 < 32 ∧ 32 % 32 = 0 ∧ 11 < 2 ^ 32 ∧ ready.fifo = [] ∧ 2 * (32 / 32) ≤ Config.fifoDepth :=
  ⟨ready_Ready, List.not_mem_nil, by decide, rfl, rfl, ready_modulus, rfl, by decide, by decide, by decide, rfl, by decide, rfl,
    fifo_room⟩

theorem test_meets_ExpExplicit : Ready ready ∧ NoTimeout ready ∧ ready.irqCount.toNat + 4 < 2 ^ 32 ∧ 97 % 2 = 1 ∧ 1 < 97 ∧
    97 < 2 ^ bitsOf .high ∧ 5 < 97 ∧ 0 < 32 ∧ 32 % 32 = 0 ∧ 11 < 2 ^ 32 ∧ ready.fifo = [] ∧ 2 * (32 / 32) ≤ Config.fifoDepth :=
  ⟨ready_Ready, List.not_mem_nil, by decide, rfl, by decide, by decide +kernel, by decide, by decide, rfl, by decide, rfl, fifo_room⟩

theorem test_meets_DexpAmbient : Ready ready ∧ NoTimeout ready ∧ ready.irqCount.toNat + 6 < 2 ^ 32 ∧
    ready.sess.width = some .low ∧ ready.sess.r2 = r2Words 97 (bitsOf .low) .low ∧ regionVal ready.mem .mod .low = some 97 ∧
    97 % 2 = 1 ∧ 1 < 97 ∧ 5 < 97 ∧ 7 < 97 ∧ 0 < 32 ∧ 32 % 32 = 0 ∧ 5 < 2 ^ 32 ∧ 6 < 2 ^ 32 ∧ ready.fifo = [] ∧
    2 * (32 / 32) ≤ Config.fifoDepth :=
  ⟨ready_Ready, List.not_mem_nil, by decide, rfl, rfl, ready_modulus, rfl, by decide, by decide, by decide, by decide, rfl,
    by decide, by decide, rfl, fifo_room⟩

theorem test_meets_DexpExplicit : Ready ready ∧ NoTimeout ready ∧ ready.irqCount.toNat + 6 < 2 ^ 32 ∧ 97 % 2 = 1 ∧ 1 < 97 ∧
    97 < 2 ^ bitsOf .high ∧ 5 < 97 ∧ 7 < 97 ∧ 0 < 32 ∧ 32 % 32 = 0 ∧ 5 < 2 ^ 32 ∧ 6 < 2 ^ 32 ∧ ready.fifo = [] ∧
    2 * (32 / 32) ≤ Config.fifoDepth :=
  ⟨ready_Ready, List.not_mem_nil, by decide, rfl, by decide, by decide +kernel, by decide, by decide, by decide, rfl, by decide,
    by decide, rfl, fifo_room⟩

theorem test_meets_AlgorithmErrors : 768 ≠ 512 ∧ 768 ≠ 1024 ∧ 768 ≠ 1536 ∧ 48 % 32 ≠ 0 ∧ (512 = 512 ∨ 512 = 1024 ∨ 512 = 1536) ∧
    State.reset.sess.width = none ∧ 32 % 32 = 0 := by decide

end Sys2Proof.Tests
end

section
/-! The host's accesses to the bus (20_memory.md R52, R56, R57): an access of a bad shape is refused, and a read or a write
of a slot word while the engine is idle does what its rule says. First the one law of storage the layer of laws lacks,
that storing a word twice is storing it once; it needs no canonical form, since `SlotWrites` speaks of every state. -/

namespace Sys2Proof.Machine

/-! ### Storing twice -/

theorem setByte_setByte_same (m : Memory) (a : Nat) (b : Byte) : setByte (setByte m a b) a b = setByte m a b := by
  induction m with
  | nil => simp [setByte]
  | cons c rest ih =>
    obtain ⟨k, x⟩ := c
    by_cases hlt : a < k
    · simp [setByte, hlt]
    · by_cases heq : a = k
      · simp [setByte, heq]
      · simp [setByte, hlt, heq, ih]

/-- A byte already stored stays so after a store at another offset: storing it again changes nothing. -/
theorem setByte_eq_self_of_ne {m : Memory} {a a' : Nat} {b : Byte} (c : Byte) (hne : a' ≠ a) (h : setByte m a b = m) :
    setByte (setByte m a' c) a b = setByte m a' c := by
  induction m with
  | nil => simp [setByte] at h
  | cons d rest ih =>
    obtain ⟨k, x⟩ := d
    have hle : ¬ a < k := fun hlt => by simpa [setByte, hlt] using congrArg List.length h
    rcases Nat.lt_trichotomy a' k with hlt | rfl | hgt
    · have hrest : ¬ a < a' ∧ a ≠ a' := by omega
      simpa [setByte, hlt, hrest] using h
    · simpa [setByte, hle, hne.symm] using h
    · have hskip : ¬ a' < k ∧ a' ≠ k := by omega
      by_cases heq : a = k
      · have hbyte : b = x := by simpa [setByte, heq] using h
        simp [setByte, hskip, heq, hbyte]
      · have htail : setByte rest a b = rest := by simpa [setByte, hle, heq] using h
        simp [setByte, hskip, hle, heq, ih htail]

theorem setWord_setWord_same (m : Memory) (a : Nat) (v : Word) : setWord (setWord m a v) a v = setWord m a v := by
  have h3 : setByte (setWord m a v) (a + 3) (v.extractLsb' 24 8) = setWord m a v := setByte_setByte_same _ _ _
  have h2 : setByte (setWord m a v) (a + 2) (v.extractLsb' 16 8) = setWord m a v :=
    setByte_eq_self_of_ne _ (by omega) (setByte_setByte_same _ _ _)
  have h1 : setByte (setWord m a v) (a + 1) (v.extractLsb' 8 8) = setWord m a v :=
    setByte_eq_self_of_ne _ (by omega) (setByte_eq_self_of_ne _ (by omega) (setByte_setByte_same _ _ _))
  have h0 : setByte (setWord m a v) a (v.extractLsb' 0 8) = setWord m a v :=
    setByte_eq_self_of_ne _ (by omega) (setByte_eq_self_of_ne _ (by omega)
      (setByte_eq_self_of_ne _ (by omega) (setByte_setByte_same _ _ _)))
  rw [setWord, h0, h1, h2, h3]

/-! ### The rows of a slot word -/

theorem sel_cases (k : Sel) : k = 0#2 ∨ k = 1#2 ∨ k = 2#2 ∨ k = 3#2 := by
  revert k
  decide

/-- The five rows of a read of a slot word are one operation on the slot (20_memory.md R56). -/
theorem exec_slotRead (S : Slot) (i : BitVec 6) (s : State) : exec (slotRead S i) s = readSlot S i s := by
  cases S with
  | mod => rfl
  | op k =>
    obtain rfl | rfl | rfl | rfl := sel_cases k
    all_goals rfl

/-- The five rows of a write of a slot word are one operation on the slot (20_memory.md R57). -/
theorem exec_slotWrite (S : Slot) (i : BitVec 6) (v : Word) (s : State) :
    exec (slotWrite S i v) s = writeSlot S i v s := by
  cases S with
  | mod => rfl
  | op k =>
    obtain rfl | rfl | rfl | rfl := sel_cases k
    all_goals rfl

section
variable {s : State} {S : Slot} {i : BitVec 6}

theorem indexOk_of_lt (hi : i.toNat < 48) : indexOk i = true := by simp [indexOk, hi]

theorem readData_unwritten {a : Nat} (h : s.eng = .idle) (hv : getWord s.mem a = none) :
    readData a s = .refused .unwrittenSlotWord := by
  simp [readData, busy, h, hv]

theorem exec_slotRead_of_some {v : Word} (h : s.eng = .idle) (hi : i.toNat < 48)
    (hv : slotWord s.mem S i.toNat = some v) : exec (slotRead S i) s = .next { s with ret := .word v } := by
  rw [exec_slotRead, readSlot, if_pos (indexOk_of_lt hi), readData_idle h hv]

theorem exec_slotRead_of_none (h : s.eng = .idle) (hi : i.toNat < 48) (hv : slotWord s.mem S i.toNat = none) :
    exec (slotRead S i) s = .refused .unwrittenSlotWord := by
  rw [exec_slotRead, readSlot, if_pos (indexOk_of_lt hi), readData_unwritten h hv]

theorem exec_slotWrite_idle (S : Slot) (v : Word) (h : s.eng = .idle) (hi : i.toNat < 48) :
    exec (slotWrite S i v) s = .next { s with mem := setWord s.mem (wordAddr S i.toNat) v } := by
  rw [exec_slotWrite, writeSlot, if_pos (indexOk_of_lt hi), writeData_idle _ v h]

/-- A write of a slot word is idempotent (20_memory.md R57): made again from the state it left, it changes nothing. -/
theorem exec_slotWrite_again {t : State} {v : Word} (h : s.eng = .idle) (hi : i.toNat < 48)
    (ht : exec (slotWrite S i v) s = .next t) : exec (slotWrite S i v) t = .next t := by
  rw [exec_slotWrite_idle S v h hi] at ht
  injection ht with ht
  subst ht
  simpa only [setWord_setWord_same] using
    exec_slotWrite_idle (s := { s with mem := setWord s.mem (wordAddr S i.toNat) v }) S v h hi

end

/-- Settles O29: the five rows are `slotWrite`, and storing a word twice is storing it once. -/
theorem slotWrites : Obligations.SlotWrites := by
  intro s S i v j hidle hi hrow
  have hj : j = slotWrite S i v := by
    rcases hrow with ⟨rfl, rfl⟩ | ⟨rfl, rfl⟩ | ⟨rfl, rfl⟩ | ⟨rfl, rfl⟩ | ⟨rfl, rfl⟩ <;> rfl
  subst hj
  have hexec := exec_slotWrite_idle S v hidle hi
  exact ⟨_, hexec, rfl, getWord_setWord_same _ _ v, fun a ha => getByte_setWord_ne _ v (by omega),
    exec_slotWrite_again hidle hi hexec⟩

/-- Settles O28: each of the five rows is `slotRead` at its slot, with the word there or without one. -/
theorem slotReads : Obligations.SlotReads := by
  intro s i hidle hi
  have hsome (S : Slot) (v : Word) (hv : slotWord s.mem S i.toNat = some v) :
      exec (slotRead S i) s = .next { s with ret := .word v } := exec_slotRead_of_some hidle hi hv
  have hnone (S : Slot) (hv : slotWord s.mem S i.toNat = none) :
      exec (slotRead S i) s = .refused .unwrittenSlotWord := exec_slotRead_of_none hidle hi hv
  exact ⟨hsome .mod, hsome (.op 0#2), hsome (.op 1#2), hsome (.op 2#2), hsome (.op 3#2),
    hnone .mod, hnone (.op 0#2), hnone (.op 1#2), hnone (.op 2#2), hnone (.op 3#2)⟩

/-! ### The shape of an access -/

theorem shapeOk_eq_false {off : Word} {n : Nat} (h : n ≠ 4 ∨ off.toNat % 4 ≠ 0) : shapeOk off n = false := by
  simpa [shapeOk, ← not_and_or] using h

/-- On the host's turn a request that decodes to no instruction is refused, by the name of the decoder's error. -/
theorem step_of_decode_error {s : State} {q : Request} {rest : List Request} {e : DecodeError} (hsched : s.sched = [])
    (hprog : s.prog = q :: rest) (hdec : decode q = .error e) : step s = .refused (refusalOf e) := by
  simp only [step, hsched, hostStep, hprog, hdec]

/-- Settles O3: the decoder tests the shape before the space, so no offset of either space is looked up. -/
theorem badShapesRefused : Obligations.BadShapesRefused := by
  intro s sp off v n rest hsched hbad
  have hread : decode (.memRead sp off n) = .error .accessShape := by simp [decode, shapeOk_eq_false hbad]
  have hwrite : decode (.memWrite sp off n v) = .error .accessShape := by simp [decode, shapeOk_eq_false hbad]
  exact ⟨fun hprog => step_of_decode_error hsched hprog hread, fun hprog => step_of_decode_error hsched hprog hwrite⟩

end Sys2Proof.Machine
end

section
/-! The engine's single operation (40_engine_ops.md R110, R114, R115). The Montgomery product's `Rinv` is the inverse of `2^n`
because `(m + 1) / 2` is the inverse of 2 modulo an odd `m`; and the step `complete` either stores the product or refuses. -/

namespace Sys2Proof.Machine

/-! ### The inverse of `2^n` -/

section
variable {m : Nat}

/-- `(m + 1) / 2` is the inverse of 2 modulo an odd `m` (40_engine_ops.md R110). -/
theorem two_mul_half_modEq_one (hodd : m % 2 = 1) : 2 * ((m + 1) / 2) ≡ 1 [MOD m] := by
  have hhalf : 2 * ((m + 1) / 2) = m + 1 := by omega
  rw [hhalf]
  exact Nat.add_modEq_left

theorem rinv_lt (n : Nat) (hpos : 0 < m) : rinv m n < m := Nat.mod_lt _ hpos

theorem montMul_lt (a b n : Nat) (hpos : 0 < m) : montMul a b m n < m := Nat.mod_lt _ hpos

/-- `Rinv` is an inverse of `2^n` modulo an odd `m` (40_engine_ops.md R110). -/
theorem two_pow_mul_rinv_modEq_one (n : Nat) (hodd : m % 2 = 1) : 2 ^ n * rinv m n ≡ 1 [MOD m] :=
  calc 2 ^ n * rinv m n
    _ ≡ 2 ^ n * ((m + 1) / 2) ^ n [MOD m] := (Nat.mod_modEq _ m).mul_left _
    _ = (2 * ((m + 1) / 2)) ^ n := (mul_pow _ _ n).symm
    _ ≡ 1 ^ n [MOD m] := (two_mul_half_modEq_one hodd).pow n
    _ = 1 := one_pow n

theorem coprime_two_pow (n : Nat) (hodd : m % 2 = 1) : Nat.Coprime m (2 ^ n) :=
  (Nat.coprime_two_right.2 (Nat.odd_iff.2 hodd)).pow_right n

/-- No other number below `m` is an inverse of `2^n`: the power of 2 cancels modulo an odd `m`. -/
theorem eq_rinv_of_modEq_one {n x : Nat} (hodd : m % 2 = 1) (hlt : x < m) (hx : 2 ^ n * x ≡ 1 [MOD m]) :
    x = rinv m n := by
  have hsame : 2 ^ n * x ≡ 2 ^ n * rinv m n [MOD m] := hx.trans (two_pow_mul_rinv_modEq_one n hodd).symm
  exact (Nat.ModEq.cancel_left_of_coprime (coprime_two_pow n hodd) hsame).eq_of_lt_of_lt hlt (rinv_lt n (by omega))

theorem r2Of_of_pos (n : Nat) (hpos : 0 < m) : r2Of m n = 2 ^ (2 * n) % m := if_neg (by omega)

end

/-- Settles O22: the five facts above, for every bit length. -/
theorem montgomeryProduct : Obligations.MontgomeryProduct := by
  intro m n hodd
  have hpos : 0 < m := by omega
  exact ⟨rinv_lt n hpos, two_pow_mul_rinv_modEq_one n hodd, fun x hlt hx => eq_rinv_of_modEq_one hodd hlt hx,
    fun a b => ⟨rfl, montMul_lt a b n hpos⟩, r2Of_of_pos n hpos⟩

/-! ### The complete step of a single operation -/

section
variable {s : State} {w : Width} {d l r : Sel} {m a b : Nat}

theorem engineStep_busyMmul (h : s.eng = .busyMmul w d l r) : engineStep s = completeMmul w d l r s := by
  simp only [engineStep, h]

/-- A region without a value, of the modulus or of either operand, is refused (10_state.md R25). -/
theorem completeMmul_unwritten
    (h : regionVal s.mem .mod w = none ∨ regionVal s.mem (.op l) w = none ∨ regionVal s.mem (.op r) w = none) :
    completeMmul w d l r s = .refused .unwrittenSlotWord := by
  unfold completeMmul
  split
  · rename_i hm ha hb
    simp [hm, ha, hb] at h
  · rfl

/-- Values outside the domain of the Montgomery product are refused (40_engine_ops.md R117). -/
theorem completeMmul_outOfDomain (hm : regionVal s.mem .mod w = some m) (ha : regionVal s.mem (.op l) w = some a)
    (hb : regionVal s.mem (.op r) w = some b) (h : m % 2 = 0 ∨ m ≤ a ∨ m ≤ b) :
    completeMmul w d l r s = .refused .operandOutOfDomain := by
  simp only [completeMmul, hm, ha, hb]
  exact if_neg (by omega)

/-- The product of operands in the domain fits the region it is stored in, for it is below the modulus that the modulus
slot's region holds. -/
theorem montMul_lt_of_domain (h : MmulDomain s w l r m a b) : montMul a b m (bitsOf w) < 2 ^ bitsOf w := by
  obtain ⟨hm, -, -, -, hlt, -⟩ := h
  exact (montMul_lt a b (bitsOf w) (by omega)).trans (regionVal_lt hm)

end

/-- Settles O25: the operands are read before the result is stored, so equal selectors need no case of their own. -/
theorem mmulCompletes : Obligations.MmulCompletes := by
  intro s w d l r hbusy
  rw [engineStep_busyMmul hbusy]
  refine ⟨fun m a b hdom => ?completes, completeMmul_unwritten, fun m a b => completeMmul_outOfDomain⟩
  case completes =>
    exact ⟨finishOp (.op d) w (montMul a b m (bitsOf w)) s, completeMmul_of_domain hdom, rfl,
      slotResult_storeResult s.mem (.op d) w (montMul_lt_of_domain hdom),
      fun _ hout => getByte_storeResult_out s.mem (.op d) w _ hout⟩

end Sys2Proof.Machine
end

section
/-! The host's primitives on the push port and the three control registers (41_host_primitives.md R141, R146, R147, R149).
Each row is one shared operation; a push depends on the engine and on the room in the FIFO, and a read of a register on
nothing. -/

namespace Sys2Proof.Machine

/-! ### The push port -/

section
variable {s : State}

theorem exec_wFifo (v : Word) (s : State) : exec (.wFifo v) s = pushFifo v s := rfl

theorem pushFifo_idle_room (v : Word) (hidle : s.eng = .idle) (hroom : s.fifo.length < Config.fifoDepth) :
    pushFifo v s = .next { s with fifo := s.fifo ++ [v] } := by
  simp [pushFifo, busy, hidle, hroom]

theorem pushFifo_idle_full (v : Word) (hidle : s.eng = .idle) (hfull : Config.fifoDepth ≤ s.fifo.length) :
    pushFifo v s = .refused .fifoOverflow := by
  simp [pushFifo, busy, hidle, Nat.not_lt.2 hfull]

theorem pushFifo_busy (v : Word) (hbusy : s.eng ≠ .idle) : pushFifo v s = .refused .writeWhileBusy := by
  simp [pushFifo, busy, hbusy]

/-- A push is not idempotent (41_host_primitives.md R146): made again while there is room, it appends the word again. -/
theorem pushFifo_again (v : Word) (hidle : s.eng = .idle) (hroom : s.fifo.length + 1 < Config.fifoDepth) :
    pushFifo v { s with fifo := s.fifo ++ [v] } = .next { s with fifo := s.fifo ++ [v, v] } := by
  have hlength : (s.fifo ++ [v]).length < Config.fifoDepth := by simpa using hroom
  have hagain := pushFifo_idle_room (s := { s with fifo := s.fifo ++ [v] }) v hidle hlength
  simpa only [List.append_assoc, List.cons_append, List.nil_append] using hagain

end

/-- Settles O31: the row is `pushFifo`, whose three cases the statement names. -/
theorem fifoPush : Obligations.FifoPush := by
  intro s v
  simp only [exec_wFifo]
  exact ⟨fun hidle hroom => ⟨pushFifo_idle_room v hidle hroom, pushFifo_again v hidle⟩,
    pushFifo_idle_full v, pushFifo_busy v⟩

/-- Settles O32: the row's meaning is the refusal itself, whatever the state. -/
theorem fifoReadRefused : Obligations.FifoReadRefused := fun _ => rfl

/-! ### The control registers -/

section
variable {s t : State} {v : Word}

theorem exec_rCtrl (s : State) : exec .rCtrl s = .next { s with ret := .word s.ctrl } := rfl

theorem exec_rIer (s : State) : exec .rIer s = .next { s with ret := .word s.ier } := rfl

theorem exec_rGie (s : State) : exec .rGie s = .next { s with ret := .word s.gie } := rfl

/-- Whatever a write of CTRL does to the engine, the register holds the word written (41_host_primitives.md R142). -/
theorem ctrl_of_exec_wCtrl (h : exec (.wCtrl v) s = .next t) : t.ctrl = v := by
  obtain ⟨c, -, -, -, -, rfl⟩ | ⟨-, -, rfl⟩ | ⟨-, -, -, ⟨-, -, -, rfl⟩ | ⟨-, rfl⟩⟩ := writeCtrl_next h
  all_goals rfl

theorem ier_of_exec_wIer (h : exec (.wIer v) s = .next t) : t.ier = v := by
  injection h with h
  subst h
  rfl

theorem gie_of_exec_wGie (h : exec (.wGie v) s = .next t) : t.gie = v := by
  injection h with h
  subst h
  rfl

end

/-- Settles O33: a read gives the register as it stands, and each write that answers leaves its word there. -/
theorem registerReads : Obligations.RegisterReads := by
  refine ⟨fun s => ⟨exec_rCtrl s, exec_rIer s, exec_rGie s⟩,
    fun s t v h => ?ctrl, fun s t v h => ?ier, fun s t v h => ?gie⟩
  case ctrl => rw [exec_rCtrl, ctrl_of_exec_wCtrl h]
  case ier => rw [exec_rIer, ier_of_exec_wIer h]
  case gie => rw [exec_rGie, gie_of_exec_wGie h]

end Sys2Proof.Machine
end

section
/-! The protocol wrapper's operand codec (42_protocol_wrapper.md R172, R173) and its exponent streamer (R185, with
30_encoding.md R89, R90). An encoded array is the array at its width's positions and zero elsewhere, whatever the width; a
push either stops at the length check or appends the whole stream. -/

namespace Sys2Proof.Machine

/-! ### The codec -/

section
variable {vs : List Word} {w : Width}

/-- Every word of an encoded array that fills its width: the array's in the region, zero outside (R172). -/
theorem getElem?_slotEncode {i : Nat} (hfull : cntOf w ≤ vs.length) (hi : i < 48) :
    (slotEncode vs w)[i]? = if loOf w ≤ i ∧ i < loOf w + cntOf w then vs[i - loOf w]? else some 0#32 := by
  rw [List.getElem?_eq_getElem (by simpa using hi)]
  split
  case isTrue hactive =>
    obtain ⟨j, rfl⟩ := Nat.exists_eq_add_of_le hactive.1
    have hj : j < cntOf w := by omega
    have hlen : j < vs.length := by omega
    rw [slotEncode_active vs w hj, Nat.add_sub_cancel_left, List.getElem?_eq_getElem hlen, List.getD_eq_getElem _ _ hlen]
  case isFalse houtside =>
    rw [slotEncode_inactive vs w (i := i) ⟨by simpa using hi, by omega⟩]

/-- Word `j` of a decoded buffer is word `j` of the buffer's region (R173). -/
theorem getElem?_slotDecode (buf : List Word) {j : Nat} (hj : j < cntOf w) :
    (slotDecode buf w)[j]? = buf[loOf w + j]? := by
  simp [slotDecode, hj]

theorem length_slotDecode {buf : List Word} (hbuf : buf.length = 48) : (slotDecode buf w).length = cntOf w := by
  have := loOf_add_cntOf w
  simp only [slotDecode, List.length_take, List.length_drop, hbuf]
  omega

/-- Decoding inverts encoding at the same width, for an array of exactly that width (R173). -/
theorem slotDecode_slotEncode (hlen : vs.length = cntOf w) : slotDecode (slotEncode vs w) w = vs := by
  have hdecoded : (slotDecode (slotEncode vs w) w).length = cntOf w := length_slotDecode (length_slotEncode vs w)
  refine List.ext_getElem? fun j => ?_
  by_cases hj : j < cntOf w
  · have hpos : loOf w + j < 48 := by have := loOf_add_cntOf w; omega
    have hactive : loOf w ≤ loOf w + j ∧ loOf w + j < loOf w + cntOf w := by omega
    rw [getElem?_slotDecode _ hj, getElem?_slotEncode hlen.ge hpos, if_pos hactive, Nat.add_sub_cancel_left]
  · rw [List.getElem?_eq_none (by omega), List.getElem?_eq_none (by omega)]

end

/-- Settles O42: the words of an encoded array and the round trip are laws of every width; a width's decoding is read off
its region's bounds. -/
theorem codec : Obligations.Codec := by
  refine ⟨fun vs i hi => ⟨fun hlow => ?low, fun hhigh => ?high, fun htotal => ?total⟩,
    fun buf hbuf => ⟨?decodeLow, ?decodeHigh, ?decodeTotal⟩, fun _ _ => slotDecode_slotEncode⟩
  case low => simpa [loOf, cntOf] using getElem?_slotEncode (w := .low) hlow hi
  case high => simpa [loOf, cntOf, hi] using getElem?_slotEncode (w := .high) hhigh hi
  case total => simpa [loOf, cntOf, hi] using getElem?_slotEncode (w := .total) htotal hi
  case decodeLow => rfl
  case decodeHigh => exact List.take_of_length_le (by simp [cntOf, loOf, hbuf])
  case decodeTotal => exact List.take_of_length_le (by simp [cntOf, loOf, hbuf])

/-! ### The words of the exponent stream -/

theorem getLsbD_highMask : ∀ i < 32, (0xFFFF0000#32).getLsbD i = decide (16 ≤ i) := by decide

theorem getLsbD_lowMask : ∀ i < 32, (0x0000FFFF#32).getLsbD i = decide (i < 16) := by decide

/-- `A_i` of 30_encoding.md R89 is the two high halves, one above the other. -/
theorem expWordA_eq_append (e0 e1 i : Nat) :
    expWordA e0 e1 i = (wordAt e1 i).extractLsb' 16 16 ++ (wordAt e0 i).extractLsb' 16 16 := by
  refine BitVec.eq_of_getLsbD_eq fun k hk => ?_
  simp only [expWordA, BitVec.getLsbD_or, BitVec.getLsbD_and, BitVec.getLsbD_ushiftRight, getLsbD_highMask k hk,
    BitVec.getLsbD_append, BitVec.getLsbD_extractLsb']
  by_cases hlow : k < 16
  · simp [hlow]
  · have hbeyond : (wordAt e0 i).getLsbD (16 + k) = false := BitVec.getLsbD_of_ge _ _ (by omega)
    have hsame : 16 + (k - 16) = k := by omega
    have hoffset : k - 16 < 16 := by omega
    simp [hlow, hbeyond, hsame, hoffset, Nat.le_of_not_lt hlow]

/-- `B_i` of 30_encoding.md R89 is the two low halves, one above the other. -/
theorem expWordB_eq_append (e0 e1 i : Nat) :
    expWordB e0 e1 i = (wordAt e1 i).extractLsb' 0 16 ++ (wordAt e0 i).extractLsb' 0 16 := by
  refine BitVec.eq_of_getLsbD_eq fun k hk => ?_
  simp only [expWordB, BitVec.getLsbD_or, BitVec.getLsbD_and, BitVec.getLsbD_shiftLeft, getLsbD_lowMask k hk,
    getLsbD_lowMask (k - 16) (by omega), BitVec.getLsbD_append, BitVec.getLsbD_extractLsb']
  by_cases hlow : k < 16
  · simp [hlow]
  · have hoffset : k - 16 < 16 := by omega
    simp [hlow, hk, hoffset]

theorem expStream_succ (e0 e1 k : Nat) :
    expStream e0 e1 (k + 1) = [expWordA e0 e1 k, expWordB e0 e1 k] ++ expStream e0 e1 k := rfl

theorem length_expStream (e0 e1 k : Nat) : (expStream e0 e1 k).length = 2 * k := by
  induction k with
  | zero => rfl
  | succ k ih =>
    rw [expStream_succ, List.length_append, ih, List.length_cons, List.length_cons, List.length_nil]
    omega

/-! ### The push of an exponent -/

section
variable {s : State} (e0 : Nat) (e1 : Option Nat) {n : Nat}

theorem exec_pushe (n : Nat) (s : State) : exec (.pushe e0 e1 n) s = pushExponent e0 e1 n s := rfl

/-- A length that is no multiple of 32 is E3 before any access; E3 is not logged (42_protocol_wrapper.md R185). -/
theorem pushExponent_badLength (s : State) (hlen : n % 32 ≠ 0) :
    pushExponent e0 e1 n s = .next { s with ret := .error .invalidExponentLength } := by
  rw [pushExponent, if_pos hlen]
  rfl

/-- A length that passes the check, the engine idle and room for the stream: every word is appended. -/
theorem pushExponent_idle (hlen : n % 32 = 0) (hidle : s.eng = .idle)
    (hroom : s.fifo.length + 2 * (n / 32) ≤ Config.fifoDepth) :
    ∃ t, pushExponent e0 e1 n s = .next t ∧
      UpToIrq { s with fifo := s.fifo ++ expStream e0 (e1.getD 0) (n / 32), ret := .done } t := by
  have hstream : s.fifo.length + (expStream e0 (e1.getD 0) (n / 32)).length ≤ Config.fifoDepth := by
    rwa [length_expStream]
  obtain ⟨u, hpush, hirq⟩ := pushWords_idle _ hidle hstream
  refine ⟨{ u with ret := .done }, ?_, upToIrq_ret hirq .done⟩
  rw [pushExponent, if_neg (not_not.2 hlen), hpush, andThen_of_next, returnDone]

end

/-- Settles O51 (the plain name is the operation's): the row is `pushExponent`, whose check comes before its stream, and the
stream's words are the halves of the exponents' words. -/
theorem pushExponent_spec : Obligations.PushExponent := by
  refine ⟨fun s e0 e1 n hbad => ?badLength, fun s e0 e1 n hlen hidle hroom => ?appended, fun e0 e1 k => ?words⟩
  case badLength => rw [exec_pushe, pushExponent_badLength e0 e1 s hbad]
  case appended => simpa only [exec_pushe] using pushExponent_idle e0 e1 hlen hidle hroom
  case words => rw [expStream_succ, expWordA_eq_append, expWordB_eq_append]

end Sys2Proof.Machine
end

section
/-! The notification channel's transfers (60_exceptions.md R237, R238). Arming sets one field, whatever the state; a transfer
of another shape decodes to no instruction, so the host's turn refuses it. -/

namespace Sys2Proof.Machine

theorem exec_arm (s : State) : exec .arm s = .next { s with irqArmed := true } := rfl

/-- Arming an armed channel changes nothing (60_exceptions.md R237). -/
theorem exec_arm_of_armed {s : State} (harmed : s.irqArmed = true) : exec .arm s = .next s := by
  rw [exec_arm, ← harmed]

/-- A channel write is `ChanWrite(1)` of four bytes or no instruction (60_exceptions.md R237). -/
theorem decode_chanWrite_badShape {n : Nat} {v : Word} (hbad : n ≠ 4 ∨ v ≠ 1#32) :
    decode (.chanWrite n v) = .error .channelShape :=
  if_neg (not_and_or.2 hbad)

/-- A channel read is of four bytes or no instruction (60_exceptions.md R238). -/
theorem decode_chanRead_badSize {n : Nat} (hbad : n ≠ 4) : decode (.chanRead n) = .error .channelShape :=
  if_neg hbad

/-- Settles O37: the row sets one field, and a transfer of another shape fails in the decoder. -/
theorem arming : Obligations.Arming := by
  refine ⟨exec_arm, fun s => exec_arm_of_armed, fun s n v rest hsched hbad hprog => ?badWrite,
    fun s n rest hsched hbad hprog => ?badRead⟩
  case badWrite => exact step_of_decode_error hsched hprog (decode_chanWrite_badShape hbad)
  case badRead => exact step_of_decode_error hsched hprog (decode_chanRead_badSize hbad)

end Sys2Proof.Machine
end

section
/-! The decoder and the encoder (30_encoding.md sections 2 and 3, 20_memory.md section 2). A command word is its reserved bits
and its six fields, and a data-space offset is a word of at most one slot; from these two facts the encoder and the decoder
are inverse to each other on every row. -/

namespace Sys2Proof.Machine

/-! ### A command word and its fields (30_encoding.md R81) -/

theorem getLsbD_cmdMask : ∀ j < 32, cmdMask.getLsbD j = decide (j < 10) := by decide

theorem getLsbD_startMask : ∀ j < 32, startMask.getLsbD j = decide (j = 8) := by decide

theorem reservedBits_of_reservedOnly {x : Word} (h : reservedOnly x = true) : reservedBits x = x := by
  have hmask : x &&& cmdMask = 0#32 := of_decide_eq_true h
  refine BitVec.eq_of_getLsbD_eq fun j hj => ?_
  have hbit : (x.getLsbD j && cmdMask.getLsbD j) = false := by rw [← BitVec.getLsbD_and, hmask, BitVec.getLsbD_zero]
  rw [reservedBits, BitVec.getLsbD_and, BitVec.getLsbD_not]
  revert hbit
  cases x.getLsbD j <;> simp [hj]

theorem reservedOnly_reservedBits (v : Word) : reservedOnly (reservedBits v) = true := by
  refine decide_eq_true (BitVec.eq_of_getLsbD_eq fun j hj => ?_)
  simp only [reservedBits, BitVec.getLsbD_and, BitVec.getLsbD_not, BitVec.getLsbD_zero]
  cases cmdMask.getLsbD j <;> simp

/-- A word is the word assembled from its own reserved bits and fields: no bit of it is lost (30_encoding.md R81). -/
theorem cmdWord_fields (v : Word) :
    cmdWord (reservedBits v) (fieldPart v) (fieldDst v) (fieldLeft v) (fieldRight v) (fieldStart v) (fieldAuto v) = v := by
  refine BitVec.eq_of_getLsbD_eq fun j hj => ?_
  interval_cases j <;>
    simp [cmdWord, reservedBits, cmdMask, cmdFields, bitAt, cfg, fieldPart, fieldDst, fieldLeft, fieldRight, fieldStart,
      fieldAuto]

/-- An assembled word's fields are those it was assembled from, and its reserved bits the word's they were taken from. -/
theorem fields_cmdWord {x : Word} (hx : reservedOnly x = true) (p : BitVec 2) (d l r : Sel) (s a : Bool) :
    reservedBits (cmdWord x p d l r s a) = x ∧ fieldPart (cmdWord x p d l r s a) = p ∧
    fieldDst (cmdWord x p d l r s a) = d ∧ fieldLeft (cmdWord x p d l r s a) = l ∧
    fieldRight (cmdWord x p d l r s a) = r ∧ fieldStart (cmdWord x p d l r s a) = s ∧
    fieldAuto (cmdWord x p d l r s a) = a :=
  ⟨(reservedBits_cmdWord ..).trans (reservedBits_of_reservedOnly hx), fieldPart_cmdWord .., fieldDst_cmdWord ..,
    fieldLeft_cmdWord .., fieldRight_cmdWord .., fieldStart_cmdWord .., fieldAuto_cmdWord ..⟩

theorem widthOfCode_of_ne_reserved {p : BitVec 2} (h : p ≠ cfg.partReserved) : ∃ w, widthOfCode p = some w :=
  Option.ne_none_iff_exists'.1 fun hnone => h (widthOfCode_none hnone)

/-! ### A data-space offset and its word (20_memory.md R55, R59) -/

theorem wordIndex_some {base off : Nat} {i : BitVec 6} (h : wordIndex base off = some i) :
    off = base + i.toNat * 4 ∧ i.toNat < 48 := by
  unfold wordIndex at h
  split at h
  · rename_i hoff
    obtain ⟨hbase, haligned, hindex⟩ := hoff
    injection h with h
    simp only [cfg_stride, slotWords_eq] at haligned hindex
    simp only [← h, cfg_stride, BitVec.toNat_ofNat]
    omega
  · cases h

theorem wordIndex_wordAddr (S : Slot) {i : BitVec 6} (hi : i.toNat < 48) :
    wordIndex (slotBase S) (wordAddr S i.toNat) = some i := by
  have hdiff : wordAddr S i.toNat - slotBase S = i.toNat * 4 := by simp [wordAddr]
  rw [wordIndex, if_pos (by simp only [cfg_stride, slotWords_eq, wordAddr]; omega)]
  simp [hdiff]

/-- Another slot's page has no word at the offset (20_memory.md R55). -/
theorem wordIndex_other {S T : Slot} (hne : T ≠ S) {i : Nat} (hi : i < 48) :
    wordIndex (slotBase T) (wordAddr S i) = none := by
  cases h : wordIndex (slotBase T) (wordAddr S i) with
  | none => rfl
  | some j =>
    obtain ⟨hoff, hj⟩ := wordIndex_some h
    have hapart := slotBase_apart hne
    simp only [wordAddr, cfg_stride] at hoff
    omega

/-- Every word of a slot is located as that word. -/
theorem locate_wordAddr (S : Slot) {i : BitVec 6} (hi : i.toNat < 48) : locate (wordAddr S i.toNat) = some (S, i) := by
  have hself := wordIndex_wordAddr S hi
  have hother (T : Slot) (hne : T ≠ S) := wordIndex_other hne hi
  cases S with
  | mod => simp only [locate, hself]
  | op k =>
    obtain rfl | rfl | rfl | rfl := sel_cases k
    · simp only [locate, hself, hother .mod (by decide)]
    · simp only [locate, hself, hother .mod (by decide), hother (.op 0#2) (by decide)]
    · simp only [locate, hself, hother .mod (by decide), hother (.op 0#2) (by decide), hother (.op 1#2) (by decide)]
    · simp only [locate, hself, hother .mod (by decide), hother (.op 0#2) (by decide), hother (.op 1#2) (by decide),
        hother (.op 2#2) (by decide)]

/-- What is located is a word of a slot at its offset. -/
theorem locate_some {off : Nat} {S : Slot} {i : BitVec 6} (h : locate off = some (S, i)) :
    off = wordAddr S i.toNat ∧ i.toNat < 48 := by
  have hword {T : Slot} {j : BitVec 6} (hj : wordIndex (slotBase T) off = some j) (heq : some (T, j) = some (S, i)) :
      off = wordAddr S i.toNat ∧ i.toNat < 48 := by
    cases heq
    exact wordIndex_some hj
  unfold locate at h
  split at h
  · exact hword ‹_› h
  split at h
  · exact hword ‹_› h
  split at h
  · exact hword ‹_› h
  split at h
  · exact hword ‹_› h
  split at h
  · exact hword ‹_› h
  cases h

/-- Where no slot has a word nothing is located. -/
theorem locate_none {off : Nat} (h : ∀ S i, i < 48 → off ≠ wordAddr S i) : locate off = none := by
  cases hloc : locate off with
  | none => rfl
  | some Si =>
    obtain ⟨hoff, hi⟩ := locate_some (S := Si.1) (i := Si.2) hloc
    exact absurd hoff (h _ _ hi)

theorem wordAddr_lt (S : Slot) {i : Nat} (hi : i < 48) : wordAddr S i < 0x40C0 ∧ wordAddr S i % 4 = 0 := by
  cases S with
  | mod => simp only [wordAddr, slotBase, cfg]; omega
  | op k => simp only [wordAddr, slotBase, cfg]; omega

theorem toNat_ofNat_wordAddr (S : Slot) {i : Nat} (hi : i < 48) : (BitVec.ofNat 32 (wordAddr S i)).toNat = wordAddr S i := by
  have := wordAddr_lt S hi
  rw [BitVec.toNat_ofNat, Nat.mod_eq_of_lt (by omega)]

/-! ### The rows of a slot word -/

theorem encode_slotRead (S : Slot) (i : BitVec 6) : encode (slotRead S i) = readRequest S i := by
  cases S with
  | mod => rfl
  | op k =>
    obtain rfl | rfl | rfl | rfl := sel_cases k
    all_goals rfl

theorem encode_slotWrite (S : Slot) (i : BitVec 6) (v : Word) : encode (slotWrite S i v) = writeRequest S i v := by
  cases S with
  | mod => rfl
  | op k =>
    obtain rfl | rfl | rfl | rfl := sel_cases k
    all_goals rfl

theorem wf_slotRead (S : Slot) (i : BitVec 6) : (slotRead S i).wf = indexOk i := by
  cases S with
  | mod => rfl
  | op k =>
    obtain rfl | rfl | rfl | rfl := sel_cases k
    all_goals rfl

theorem wf_slotWrite (S : Slot) (i : BitVec 6) (v : Word) : (slotWrite S i v).wf = indexOk i := by
  cases S with
  | mod => rfl
  | op k =>
    obtain rfl | rfl | rfl | rfl := sel_cases k
    all_goals rfl

theorem shapeOk_wordAddr (S : Slot) {i : Nat} (hi : i < 48) : shapeOk (BitVec.ofNat 32 (wordAddr S i)) 4 = true := by
  simp [shapeOk, toNat_ofNat_wordAddr S hi, (wordAddr_lt S hi).2]

theorem decode_readRequest (S : Slot) {i : BitVec 6} (hi : indexOk i = true) :
    decode (readRequest S i) = .ok (slotRead S i) := by
  have hlt : i.toNat < 48 := of_decide_eq_true hi
  simp only [readRequest, decode, shapeOk_wordAddr S hlt, if_true, decodeDataRead, toNat_ofNat_wordAddr S hlt,
    locate_wordAddr S hlt]

theorem decode_writeRequest (S : Slot) {i : BitVec 6} (v : Word) (hi : indexOk i = true) :
    decode (writeRequest S i v) = .ok (slotWrite S i v) := by
  have hlt : i.toNat < 48 := of_decide_eq_true hi
  simp only [writeRequest, decode, shapeOk_wordAddr S hlt, if_true, decodeDataWrite, toNat_ofNat_wordAddr S hlt,
    locate_wordAddr S hlt]

theorem decode_cmd (v : Word) : decode (.cmd v) = .ok (decodeCommand v) := rfl

/-- Settles O5, row by row: a command row by the fields of its word, a slot row by its offset, a control row and a channel
row by its constant, a call by itself. -/
theorem decodeEncode : Obligations.DecodeEncode := by
  intro i hwf
  cases i with
  | mmulL x d l r | mmulH x d l r | mmulT x d l r =>
    simp only [encode, decode_cmd, decodeCommand, fields_cmdWord hwf]
    rfl
  | autoL x | autoH x | autoT x =>
    simp only [encode, decode_cmd, decodeCommand, fields_cmdWord hwf]
    rfl
  | idleWord x a p d l r =>
    simp only [encode, decode_cmd, decodeCommand, fields_cmdWord hwf]
    rfl
  | reservedPart x a d l r =>
    simp only [encode, decode_cmd, decodeCommand, fields_cmdWord hwf]
    cases a <;> rfl
  | reservedAuto x p d l r =>
    obtain ⟨⟨hx, hp⟩, hsel⟩ :
        (reservedOnly x = true ∧ p ≠ cfg.partReserved) ∧ (d = 0#2 → l = 0#2 → r ≠ 0#2) := by
      simpa [Instr.wf, imp_iff_not_or, or_assoc] using hwf
    obtain ⟨w, hw⟩ := widthOfCode_of_ne_reserved hp
    simp only [encode, decode_cmd, decodeCommand, fields_cmdWord hx, hw]
    cases w <;> simpa using hsel
  | expw e1 e0 =>
    have hhigh : (e1 ++ e0).extractLsb' 16 16 = e1 := BitVec.extractLsb'_append_eq_left
    have hlow : (e1 ++ e0).extractLsb' 0 16 = e0 := BitVec.extractLsb'_append_eq_right
    simp only [encode, decode, hhigh, hlow]
  | slotImage S img =>
    have hlen : img.length = slotWords := of_decide_eq_true hwf
    simp only [encode, decode, hlen, if_true]
  | rMod i => exact decode_readRequest .mod hwf
  | rOp0 i => exact decode_readRequest (.op 0#2) hwf
  | rOp1 i => exact decode_readRequest (.op 1#2) hwf
  | rOp2 i => exact decode_readRequest (.op 2#2) hwf
  | rOp3 i => exact decode_readRequest (.op 3#2) hwf
  | wMod i v => exact decode_writeRequest .mod v hwf
  | wOp0 i v => exact decode_writeRequest (.op 0#2) v hwf
  | wOp1 i v => exact decode_writeRequest (.op 1#2) v hwf
  | wOp2 i v => exact decode_writeRequest (.op 2#2) v hwf
  | wOp3 i v => exact decode_writeRequest (.op 3#2) v hwf
  | _ => rfl

/-! ### From a request to its row and back -/

theorem codeOfWidth_of_fieldPart {v : Word} {w : Width} (h : widthOfCode (fieldPart v) = some w) :
    fieldPart v = codeOfWidth w := widthOfCode_some h

/-- A command word's row is well-formed and encodes to the word (30_encoding.md R81, R83, R86). -/
theorem encode_decodeCommand (v : Word) : (decodeCommand v).wf = true ∧ encode (decodeCommand v) = .cmd v := by
  have hx := reservedOnly_reservedBits v
  have hv := cmdWord_fields v
  unfold decodeCommand
  by_cases hstart : fieldStart v = true
  case neg =>
    rw [Bool.not_eq_true] at hstart
    rw [hstart] at hv
    simp only [hstart, Bool.false_eq_true, if_false]
    exact ⟨hx, congrArg Request.cmd hv⟩
  rw [hstart] at hv
  simp only [hstart, if_true]
  cases hw : widthOfCode (fieldPart v) with
  | none =>
    rw [widthOfCode_none hw] at hv
    exact ⟨hx, congrArg Request.cmd hv⟩
  | some w =>
    have hp := codeOfWidth_of_fieldPart hw
    cases hauto : fieldAuto v with
    | false =>
      rw [hauto, hp] at hv
      cases w <;> exact ⟨hx, congrArg Request.cmd hv⟩
    | true =>
      rw [hauto] at hv
      by_cases hsel : fieldDst v = 0#2 ∧ fieldLeft v = 0#2 ∧ fieldRight v = 0#2
      · obtain ⟨hd, hl, hr⟩ := hsel
        rw [hp, hd, hl, hr] at hv
        simp only [hd, hl, hr, and_self, if_true]
        cases w <;> exact ⟨hx, congrArg Request.cmd hv⟩
      · have hres : fieldPart v ≠ cfg.partReserved := by
          rw [hp]
          cases w <;> decide
        have hrow : (Instr.reservedAuto (reservedBits v) (fieldPart v) (fieldDst v) (fieldLeft v) (fieldRight v)).wf = true := by
          simpa [Instr.wf, hx, hres, imp_iff_not_or, or_assoc] using hsel
        simp only [hsel, if_false]
        cases w <;> exact ⟨hrow, congrArg Request.cmd hv⟩

/-- An access the shape test lets through is of four bytes. -/
theorem eq_four_of_shapeOk {off : Word} {n : Nat} (h : shapeOk off n = true) : n = 4 := by
  simp only [shapeOk, Bool.and_eq_true, decide_eq_true_eq] at h
  exact h.1

theorem eq_ofNat_of_toNat {off : Word} {a : Nat} (h : off.toNat = a) : BitVec.ofNat 32 a = off := by
  rw [← h, BitVec.ofNat_toNat, BitVec.setWidth_eq]

/-- What a data-space read decodes to is well-formed and reads that offset. -/
theorem encode_decodeDataRead {off : Word} {i : Instr} (h : decodeDataRead off.toNat = .ok i) :
    i.wf = true ∧ encode i = .memRead .data off 4 := by
  unfold decodeDataRead at h
  split at h
  case h_1 S j hloc =>
    obtain ⟨hoff, hj⟩ := locate_some hloc
    injection h with h
    subst h
    rw [wf_slotRead, encode_slotRead, readRequest, eq_ofNat_of_toNat hoff]
    exact ⟨indexOk_of_lt hj, rfl⟩
  case h_2 hloc =>
    split at h
    · rename_i hoff
      injection h with h
      subst h
      rw [encode, eq_ofNat_of_toNat hoff]
      exact ⟨rfl, rfl⟩
    · cases h

theorem encode_decodeDataWrite {off v : Word} {i : Instr} (h : decodeDataWrite off.toNat v = .ok i) :
    i.wf = true ∧ encode i = .memWrite .data off 4 v := by
  unfold decodeDataWrite at h
  split at h
  case h_1 S j hloc =>
    obtain ⟨hoff, hj⟩ := locate_some hloc
    injection h with h
    subst h
    rw [wf_slotWrite, encode_slotWrite, writeRequest, eq_ofNat_of_toNat hoff]
    exact ⟨indexOk_of_lt hj, rfl⟩
  case h_2 hloc =>
    split at h
    · rename_i hoff
      injection h with h
      subst h
      rw [encode, eq_ofNat_of_toNat hoff]
      exact ⟨rfl, rfl⟩
    · cases h

theorem encode_decodeCtrlRead {off : Word} {i : Instr} (h : decodeCtrlRead off.toNat = .ok i) :
    i.wf = true ∧ encode i = .memRead .ctrl off 4 := by
  unfold decodeCtrlRead at h
  split_ifs at h with hctrl hgie hier
  all_goals
    injection h with h
    subst h
    rw [encode, eq_ofNat_of_toNat ‹_›]
    exact ⟨rfl, rfl⟩

theorem encode_decodeCtrlWrite {off v : Word} {i : Instr} (h : decodeCtrlWrite off.toNat v = .ok i) :
    i.wf = true ∧ encode i = .memWrite .ctrl off 4 v := by
  unfold decodeCtrlWrite at h
  split_ifs at h with hctrl hgie hier
  all_goals
    injection h with h
    subst h
    rw [encode, eq_ofNat_of_toNat ‹_›]
    exact ⟨rfl, rfl⟩

theorem encode_call {i : Instr} (h : i.isCall = true) : i.wf = true ∧ encode i = .call i := by
  cases i <;> cases h <;> exact ⟨rfl, rfl⟩

/-- Settles O6, request by request: what each decoder found is a row that the encoder puts back on the same interface. -/
theorem encodeDecode : Obligations.EncodeDecode := by
  intro q i hdec
  cases q with
  | cmd v =>
    injection hdec with hdec
    exact hdec ▸ encode_decodeCommand v
  | expw v =>
    injection hdec with hdec
    subst hdec
    refine ⟨rfl, congrArg Request.expw (BitVec.eq_of_getLsbD_eq fun j hj => ?_)⟩
    rw [BitVec.getLsbD_append, BitVec.getLsbD_extractLsb', BitVec.getLsbD_extractLsb']
    by_cases hlow : j < 16
    · simp [hlow]
    · have hsame : 16 + (j - 16) = j := by omega
      simp [hlow, hsame, show j - 16 < 16 by omega]
  | image S ws =>
    simp only [decode] at hdec
    split at hdec
    · rename_i hlen
      injection hdec with hdec
      subst hdec
      exact ⟨decide_eq_true hlen, rfl⟩
    · cases hdec
  | memRead sp off n =>
    simp only [decode] at hdec
    split at hdec
    · rename_i hshape
      obtain rfl := eq_four_of_shapeOk hshape
      cases sp with
      | data => exact encode_decodeDataRead hdec
      | ctrl => exact encode_decodeCtrlRead hdec
    · cases hdec
  | memWrite sp off n v =>
    simp only [decode] at hdec
    split at hdec
    · rename_i hshape
      obtain rfl := eq_four_of_shapeOk hshape
      cases sp with
      | data => exact encode_decodeDataWrite hdec
      | ctrl => exact encode_decodeCtrlWrite hdec
    · cases hdec
  | chanWrite n v =>
    simp only [decode] at hdec
    split at hdec
    · rename_i hshape
      obtain ⟨rfl, rfl⟩ := hshape
      injection hdec with hdec
      subst hdec
      exact ⟨rfl, rfl⟩
    · cases hdec
  | chanRead n =>
    simp only [decode] at hdec
    split at hdec
    · rename_i hshape
      obtain rfl := hshape
      injection hdec with hdec
      subst hdec
      exact ⟨rfl, rfl⟩
    · cases hdec
  | delay =>
    injection hdec with hdec
    subst hdec
    exact ⟨rfl, rfl⟩
  | call j =>
    simp only [decode] at hdec
    split at hdec
    · rename_i hcall
      injection hdec with hdec
      subst hdec
      exact encode_call hcall
    · cases hdec

/-- Settles O7: the decoder evaluated on each of the ten words. -/
theorem sampleWords : Obligations.SampleWords :=
  ⟨rfl, rfl, rfl, rfl, rfl, rfl, rfl, rfl, rfl, rfl⟩

/-! ### The two words of a launch, bit by bit (30_encoding.md R93) -/

theorem getLsbD_cmdFields_of_ge (p : BitVec 2) (d l r : Sel) (s a : Bool) {j : Nat} (hj : 10 ≤ j) :
    (cmdFields p d l r s a).getLsbD j = false := by
  have hfield (b : BitVec 2) (k : Nat) (hk : k ≤ 8) : (b.setWidth 32 <<< k).getLsbD j = false := by
    simp [BitVec.getLsbD_of_ge b (j - k) (by omega)]
  have hbit (b : Bool) (k : Nat) (hk : k ≤ 9) : (bitAt k b).getLsbD j = false := by
    simp [bitAt, show j - k ≠ 0 by omega]
  simp only [cmdFields, BitVec.getLsbD_or, hfield p cfg.partLsb (by decide), hfield d cfg.dstLsb (by decide),
    hfield l cfg.leftLsb (by decide), hfield r cfg.rightLsb (by decide), hbit s cfg.startBit (by decide),
    hbit a cfg.autoBit (by decide), Bool.or_false]

/-- The bits above the command fields are the old word's (30_encoding.md R93). -/
theorem getLsbD_cmdWord_of_ge (x : Word) (p : BitVec 2) (d l r : Sel) (s a : Bool) {j : Nat} (hj : 10 ≤ j) (hlt : j < 32) :
    (cmdWord x p d l r s a).getLsbD j = x.getLsbD j := by
  rw [cmdWord, BitVec.getLsbD_or, getLsbD_cmdFields_of_ge p d l r s a hj, reservedBits, BitVec.getLsbD_and,
    BitVec.getLsbD_not, getLsbD_cmdMask j hlt]
  simp [hlt, hj]

theorem getLsbD_word2 (v : Word) (j : Nat) : (word2 v).getLsbD j = if j = 8 then false else v.getLsbD j := by
  by_cases hj : j < 32
  · rw [word2, BitVec.getLsbD_and, BitVec.getLsbD_not, getLsbD_startMask j hj]
    by_cases h8 : j = 8 <;> simp [h8, hj]
  · rw [BitVec.getLsbD_of_ge _ _ (by omega), BitVec.getLsbD_of_ge _ _ (by omega), ite_self]

/-- The six selector bits of a word are its three selectors side by side (30_encoding.md R81, default positions). -/
theorem selectors_eq_append (v : Word) :
    v.extractLsb' 2 (2 + 2 + 2) = fieldRight v ++ fieldLeft v ++ fieldDst v := by
  refine BitVec.eq_of_getLsbD_eq fun j hj => ?_
  rw [BitVec.getLsbD_append, BitVec.getLsbD_append]
  interval_cases j <;> simp [fieldRight, fieldLeft, fieldDst, cfg]

theorem append_eq_zero_iff : ∀ d l r : Sel, r ++ l ++ d = 0#(2 + 2 + 2) ↔ d = 0#2 ∧ l = 0#2 ∧ r = 0#2 := by decide

theorem selectors_eq_zero_iff (v : Word) :
    v.extractLsb' 2 6 = 0#6 ↔ fieldDst v = 0#2 ∧ fieldLeft v = 0#2 ∧ fieldRight v = 0#2 := by
  rw [← append_eq_zero_iff, ← selectors_eq_append]

/-- Settles O8: both launch words are assembled words, whose fields and upper bits are laws of every assembled word. -/
theorem assembledWords : Obligations.AssembledWords := by
  intro old w d l r
  refine ⟨fun j => getLsbD_cmdWord_of_ge old _ _ _ _ _ _, fieldPart_cmdWord .., fieldDst_cmdWord .., fieldLeft_cmdWord ..,
    fieldRight_cmdWord .., fieldStart_cmdWord .., fieldAuto_cmdWord .., fun j => getLsbD_cmdWord_of_ge old _ _ _ _ _ _,
    fieldPart_cmdWord .., ?selectors, fieldStart_cmdWord .., fieldAuto_cmdWord .., getLsbD_word2⟩
  case selectors =>
    exact (selectors_eq_zero_iff _).2 ⟨fieldDst_cmdWord .., fieldLeft_cmdWord .., fieldRight_cmdWord ..⟩

/-! ### The command a launch word spells (30_encoding.md R83, R85) -/

theorem decodeCmd_eq_mmul {v : Word} {w : Width} (hauto : fieldAuto v = false) (hpart : fieldPart v = codeOfWidth w) :
    decodeCmd v = some (.mmul w (fieldDst v) (fieldLeft v) (fieldRight v)) := by
  simp only [decodeCmd, hpart, widthOfCode_codeOfWidth, hauto, Bool.false_eq_true, if_false]

theorem decodeCmd_eq_auto {v : Word} {w : Width} (hauto : fieldAuto v = true) (hsel : v.extractLsb' 2 6 = 0#6)
    (hpart : fieldPart v = codeOfWidth w) : decodeCmd v = some (.auto w) := by
  simp only [decodeCmd, hpart, widthOfCode_codeOfWidth, hauto, if_true, if_pos ((selectors_eq_zero_iff v).1 hsel)]

theorem decodeCmd_reservedPart {v : Word} (hpart : fieldPart v = cfg.partReserved) : decodeCmd v = none := by
  have hnone : widthOfCode cfg.partReserved = none := by decide
  simp only [decodeCmd, hpart, hnone]

theorem decodeCmd_reservedAuto {v : Word} (hauto : fieldAuto v = true)
    (hsel : ¬ (fieldDst v = 0#2 ∧ fieldLeft v = 0#2 ∧ fieldRight v = 0#2)) : decodeCmd v = none := by
  unfold decodeCmd
  split
  · rfl
  · rw [if_pos hauto, if_neg hsel]

/-- Settles O21: the fields at their default positions select the row. -/
theorem launchDecoding : Obligations.LaunchDecoding := fun v =>
  ⟨decodeCmd_eq_mmul (v := v) (w := .low), decodeCmd_eq_mmul (v := v) (w := .high), decodeCmd_eq_mmul (v := v) (w := .total),
    decodeCmd_eq_auto (v := v) (w := .low), decodeCmd_eq_auto (v := v) (w := .high), decodeCmd_eq_auto (v := v) (w := .total),
    decodeCmd_reservedPart (v := v),
    fun hauto hsel => decodeCmd_reservedAuto (v := v) hauto fun h => hsel ((selectors_eq_zero_iff v).2 h)⟩

/-! ### One step on the host's turn (00_scope.md section 3) -/

/-- Settles O1: the schedule's two ways to the host's turn, then the fetched request decodes. -/
theorem stepRunsDecoded : Obligations.StepRunsDecoded := by
  intro s q rest i hprog hdec _
  refine ⟨fun hsched => ?noTurn, fun ts hsched => ?hostTurn⟩
  case noTurn => simp only [step, hsched, hostStep, hprog, hdec]
  case hostTurn => simp only [step, hsched, hostStep, hprog, hdec]

/-- Settles O2: the schedule names the agent, and where it is empty the host has no request left. -/
theorem stepOfOtherAgents : Obligations.StepOfOtherAgents := by
  have hfree (s : State) (hprog : s.prog = []) (hsched : s.sched = []) : step s = freeRun s := by
    simp only [step, hsched, hostStep, hprog]
  refine ⟨fun s ts h => ?engine, fun s ts h => ?irq, fun s ts h => ?timeout, fun s hprog hsched he => ?running,
    fun s hprog hsched he => ?idle, fun s hend => ?ended⟩
  case engine => simp only [step, h]
  case irq => simp only [step, h]
  case timeout => simp only [step, h]
  case running => rw [hfree s hprog hsched, freeRun, if_neg he]
  case idle => rw [hfree s hprog hsched, freeRun, if_pos he]
  case ended =>
    obtain ⟨hprog, hsched, he, hdeliver⟩ := hend
    rw [hfree s hprog hsched, freeRun, if_pos he, irqStep_of_not s hdeliver]

/-- No word of a slot has an offset beyond word 47 of its page, nor at the push port or above (20_memory.md R55). -/
theorem locate_unmapped {off : Nat} (h : (off < 0x5000 ∧ 0xC0 ≤ off % 0x1000) ∨ 0x5000 < off) : locate off = none := by
  refine locate_none fun S i hi hoff => ?_
  cases S with
  | mod =>
    simp only [wordAddr, slotBase, cfg] at hoff
    omega
  | op k =>
    simp only [wordAddr, slotBase, cfg] at hoff
    omega

/-- Settles O4: the decoder finds neither a slot word, nor the push port, nor a register at the offset. -/
theorem unmappedOffsetsRefused : Obligations.UnmappedOffsetsRefused := by
  intro s off v rest hsched haligned
  have hshape : shapeOk off 4 = true := by simp [shapeOk, haligned]
  refine ⟨fun hdata => ?data, fun hctrl hgie hier => ?ctrl⟩
  case data =>
    have hport : off.toNat ≠ cfg.fifoOff := by
      rw [show cfg.fifoOff = 0x5000 from rfl]
      omega
    have hread : decode (.memRead .data off 4) = .error .unmappedOffset := by
      simp only [decode, hshape, if_true, decodeDataRead, locate_unmapped hdata, hport, if_false]
    have hwrite : decode (.memWrite .data off 4 v) = .error .unmappedOffset := by
      simp only [decode, hshape, if_true, decodeDataWrite, locate_unmapped hdata, hport, if_false]
    exact ⟨fun hprog => step_of_decode_error hsched hprog hread, fun hprog => step_of_decode_error hsched hprog hwrite⟩
  case ctrl =>
    have hread : decode (.memRead .ctrl off 4) = .error .unmappedOffset := by
      simp [decode, hshape, decodeCtrlRead, cfg, hctrl, hgie, hier]
    have hwrite : decode (.memWrite .ctrl off 4 v) = .error .unmappedOffset := by
      simp [decode, hshape, decodeCtrlWrite, cfg, hctrl, hgie, hier]
    exact ⟨fun hprog => step_of_decode_error hsched hprog hread, fun hprog => step_of_decode_error hsched hprog hwrite⟩

end Sys2Proof.Machine
end

section
/-! The invariant of the machine and the frames of its steps (10_state.md, 40_engine_ops.md R112, R113). Each part of the
invariant survives every elementary move; the frame of a field follows by the same principle, from the fields that the
engine's step and a write of CTRL can touch. -/

namespace Sys2Proof.Machine

/-! ### Whole words of slots (20_memory.md R53, R55) -/

theorem cells_setWord {m : Memory} {a : Nat} {v : Word} {c : Host.Cell} (h : c ∈ setWord m a v) :
    c ∈ m ∨ (a ≤ c.1 ∧ c.1 < a + 4) := by
  rcases mem_setByte h with rfl | h
  · exact .inr ⟨by simp, by simp⟩
  rcases mem_setByte h with rfl | h
  · exact .inr ⟨by simp, by simp⟩
  rcases mem_setByte h with rfl | h
  · exact .inr ⟨by simp, by simp⟩
  rcases mem_setByte h with rfl | h
  · exact .inr ⟨by simp, by simp⟩
  exact .inl h

theorem cells_clearWord {m : Memory} {a : Nat} {c : Host.Cell} (h : c ∈ clearWord m a) :
    c ∈ m ∧ (c.1 < a ∨ a + 4 ≤ c.1) := by
  obtain ⟨h, h3⟩ := mem_clearByte h
  obtain ⟨h, h2⟩ := mem_clearByte h
  obtain ⟨h, h1⟩ := mem_clearByte h
  obtain ⟨h, h0⟩ := mem_clearByte h
  exact ⟨h, by omega⟩

theorem locate_wordAddr_isSome (S : Slot) {i : Nat} (hi : i < 48) : (locate (wordAddr S i)).isSome = true := by
  have hval : (BitVec.ofNat 6 i).toNat = i := by rw [BitVec.toNat_ofNat, Nat.mod_eq_of_lt (by omega)]
  have hloc := locate_wordAddr S (i := BitVec.ofNat 6 i) (by omega)
  rw [hval] at hloc
  rw [hloc, Option.isSome_some]

/-- Storing a slot word keeps whole words: the cells stored are that word's, the others' words lie apart from it. -/
theorem memOk_setWord {m : Memory} (h : MemOk m) (S : Slot) {i : Nat} (hi : i < 48) (v : Word) :
    MemOk (setWord m (wordAddr S i) v) := by
  have haligned := (wordAddr_lt S hi).2
  intro c hc
  by_cases hinside : wordAddr S i ≤ c.1 ∧ c.1 < wordAddr S i + 4
  · have hbase : c.1 - c.1 % 4 = wordAddr S i := by omega
    rw [cellOk, hbase, getWord_setWord_same]
    exact ⟨locate_wordAddr_isSome S hi, rfl⟩
  · obtain ⟨hloc, hword⟩ := h c ((cells_setWord hc).resolve_right hinside)
    refine ⟨hloc, ?_⟩
    rwa [getWord_setWord_ne _ _ (by omega)]

theorem memOk_clearWord {m : Memory} (h : MemOk m) {a : Nat} (ha : a % 4 = 0) : MemOk (clearWord m a) := by
  intro c hc
  obtain ⟨hmem, houtside⟩ := cells_clearWord hc
  obtain ⟨hloc, hword⟩ := h c hmem
  refine ⟨hloc, ?_⟩
  rwa [getWord_clearWord_ne _ (by omega)]

theorem wordAddr_succ (S : Slot) (j : Nat) : wordAddr S j + cfg.stride = wordAddr S (j + 1) := by
  simp only [wordAddr, cfg_stride]
  omega

theorem memOk_writeRun {m : Memory} (h : MemOk m) (S : Slot) (vs : List Word) {j : Nat} (hj : j + vs.length ≤ 48) :
    MemOk (writeRun m (wordAddr S j) vs) := by
  induction vs generalizing m j with
  | nil => exact h
  | cons v vs ih =>
    simp only [List.length_cons] at hj
    rw [writeRun, wordAddr_succ]
    exact ih (memOk_setWord h S (by omega) v) (by omega)

theorem memOk_clearRun {m : Memory} (h : MemOk m) {a : Nat} (ha : a % 4 = 0) (k : Nat) : MemOk (clearRun m a k) := by
  induction k generalizing m a with
  | zero => exact h
  | succ k ih => exact ih (memOk_clearWord h ha) (by simp only [cfg_stride]; omega)

/-- What a completed operation leaves of its destination is whole words (40_engine_ops.md R114, R115). -/
theorem memOk_storeResult {m : Memory} (h : MemOk m) (S : Slot) (w : Width) (v : Nat) : MemOk (storeResult m S w v) := by
  have haligned (j : Nat) : wordAddr S j % 4 = 0 := by
    have := (wordAddr_lt S (i := 0) (by omega)).2
    simp only [wordAddr, cfg_stride] at this ⊢
    omega
  have hregion := loOf_add_cntOf w
  exact memOk_clearRun (memOk_clearRun (memOk_writeRun h S _ (by simpa using hregion)) (haligned _) _) (haligned _) _

/-! ### CTRL spells the operation in flight (40_engine_ops.md R112, R113) -/

/-- The mask of a busy write of CTRL compares the five fields other than START (40_engine_ops.md R113). -/
theorem sameFields_of_masked {v w : Word} (h : (v ^^^ w) &&& (cmdMask &&& ~~~startMask) = 0#32) : SameFields v w := by
  have hbit (j : Nat) (hj : j < 32) (h10 : j < 10) (h8 : j ≠ 8) : v.getLsbD j = w.getLsbD j := by
    have hz := congrArg (fun x : Word => x.getLsbD j) h
    simp only [BitVec.getLsbD_and, BitVec.getLsbD_xor, BitVec.getLsbD_not, getLsbD_cmdMask j hj, getLsbD_startMask j hj,
      BitVec.getLsbD_zero, hj, h10, h8, decide_true, decide_false, Bool.not_false, Bool.and_true] at hz
    simpa using hz
  have hfield (k : Nat) (hk : k + 2 ≤ 8) : v.extractLsb' k 2 = w.extractLsb' k 2 := by
    refine BitVec.eq_of_getLsbD_eq fun j hj => ?_
    rw [BitVec.getLsbD_extractLsb', BitVec.getLsbD_extractLsb', hbit (k + j) (by omega) (by omega) (by omega)]
  exact ⟨hfield _ (by decide), hfield _ (by decide), hfield _ (by decide), hfield _ (by decide),
    hbit 9 (by decide) (by decide) (by decide)⟩

/-- START is not decoded: two words with the same other fields spell the same command (30_encoding.md R83). -/
theorem decodeCmd_congr {v w : Word} (h : SameFields v w) : decodeCmd v = decodeCmd w := by
  obtain ⟨hpart, hdst, hleft, hright, hauto⟩ := h
  simp only [decodeCmd, hpart, hdst, hleft, hright, hauto]

/-- A step of the engine leaves no operation that CTRL does not spell. -/
theorem engineOk_engineStep {s t : State} (h : engineOk s) (ht : engineStep s = .next t) : engineOk t := by
  obtain ⟨-, rfl⟩ | ⟨c, he, rfl⟩ | ⟨w, d, l, r, -, hc⟩ | ⟨w, -, hc⟩ := engineStep_next ht
  · exact h
  · rw [engineOk, he] at h
    cases c with
    | mmul w d l r => exact h.2
    | auto w => exact h.2
  · obtain ⟨m, a, b, -, rfl⟩ := completeMmul_next hc
    trivial
  · obtain ⟨m, A, v, -, -, -, -, -, -, rfl⟩ := completeAuto_next hc
    trivial

/-- A write of CTRL over an operation in flight keeps the fields that spell it; before the latch it clears START only by
withdrawing the strobe. -/
theorem engineOk_writeCtrl {s t : State} {v : Word} (h : engineOk s) (ht : writeCtrl v s = .next t) : engineOk t := by
  obtain ⟨c, -, -, hstart, hcmd, rfl⟩ | ⟨he, -, rfl⟩ | ⟨he, -, hmask, hrest⟩ := writeCtrl_next ht
  · exact ⟨hstart, hcmd⟩
  · simp only [engineOk, he]
  · have hcmd := decodeCmd_congr (sameFields_of_masked hmask)
    obtain ⟨-, -, -, rfl⟩ | ⟨hkept, rfl⟩ := hrest
    · trivial
    · unfold engineOk at h ⊢
      cases heng : s.eng with
      | idle => trivial
      | latching c =>
        simp only [heng] at h ⊢
        have hlatching : latching s = true := by simp only [latching, heng]
        obtain ⟨hstart, hspelt⟩ := h
        have hv : fieldStart v = true := by simpa [hstart, hlatching] using hkept
        exact ⟨hv, hcmd.trans hspelt⟩
      | busyMmul w d l r =>
        simp only [heng] at h ⊢
        exact hcmd.trans h
      | busyAuto w =>
        simp only [heng] at h ⊢
        exact hcmd.trans h

/-! ### What the engine's step and a write of CTRL can touch -/

/-- A step of the engine changes the storage, the FIFO, its phase and the pending request, nothing else. -/
theorem engineStep_frame {s t : State} (h : engineStep s = .next t) :
    t = { s with mem := t.mem, fifo := t.fifo, eng := t.eng, irqPend := t.irqPend } := by
  obtain ⟨-, rfl⟩ | ⟨c, -, rfl⟩ | ⟨w, d, l, r, -, hc⟩ | ⟨w, -, hc⟩ := engineStep_next h
  · rfl
  · rfl
  · obtain ⟨m, a, b, -, rfl⟩ := completeMmul_next hc
    rfl
  · obtain ⟨m, A, v, -, -, -, -, -, -, rfl⟩ := completeAuto_next hc
    rfl

/-- The engine stores nothing outside the operand slots (40_engine_ops.md R115). -/
theorem engineStep_onlyOperands {s t : State} (h : engineStep s = .next t) : OnlyOperands s.mem t.mem := by
  intro a ha
  obtain ⟨-, rfl⟩ | ⟨c, -, rfl⟩ | ⟨w, d, l, r, -, hc⟩ | ⟨w, -, hc⟩ := engineStep_next h
  · rfl
  · rfl
  · obtain ⟨m, x, y, -, rfl⟩ := completeMmul_next hc
    exact getByte_storeResult_out s.mem (.op d) w _ (ha d)
  · obtain ⟨m, A, v, -, -, -, -, -, -, rfl⟩ := completeAuto_next hc
    exact getByte_storeResult_out s.mem (.op cfg.acc) w _ (ha cfg.acc)

theorem writeCtrl_frame {s t : State} {v : Word} (h : writeCtrl v s = .next t) :
    t = { s with ctrl := t.ctrl, eng := t.eng } := by
  obtain ⟨c, -, -, -, -, rfl⟩ | ⟨-, -, rfl⟩ | ⟨-, -, -, ⟨-, -, -, rfl⟩ | ⟨-, rfl⟩⟩ := writeCtrl_next h
  all_goals rfl

/-- Settles O15: the frames of the two agents' steps. -/
theorem agentsLeaveAlone : Obligations.AgentsLeaveAlone := by
  refine ⟨fun s t h => ⟨engineStep_frame h, engineStep_onlyOperands h⟩, fun s => ?irq⟩
  case irq =>
    by_cases h : deliverEnabled s = true
    · exact ⟨_, _, _, irqStep_of_enabled s h⟩
    · exact ⟨s.irqCount, s.irqPend, s.irqArmed, irqStep_of_not s (by simpa using h)⟩

/-! ### The invariant (10_state.md R45) -/

theorem inv_engineStep {s t : State} (h : Inv s) (ht : engineStep s = .next t) : Inv t := by
  have heng := engineOk_engineStep h.engineOk ht
  obtain ⟨-, rfl⟩ | ⟨c, -, rfl⟩ | ⟨w, d, l, r, -, hc⟩ | ⟨w, -, hc⟩ := engineStep_next ht
  · exact h
  · exact ⟨h.memWf, h.memOk, h.fifoOk, h.sessOk, heng⟩
  · obtain ⟨m, a, b, -, rfl⟩ := completeMmul_next hc
    exact ⟨wf_storeResult _ _ _ h.memWf, memOk_storeResult h.memOk _ _ _, h.fifoOk, h.sessOk, heng⟩
  · obtain ⟨m, A, v, -, -, -, -, -, -, rfl⟩ := completeAuto_next hc
    exact ⟨wf_storeResult _ _ _ h.memWf, memOk_storeResult h.memOk _ _ _, Nat.zero_le _, h.sessOk, heng⟩

theorem inv_writeCtrl {s t : State} {v : Word} (h : Inv s) (ht : writeCtrl v s = .next t) : Inv t := by
  have heng := engineOk_writeCtrl h.engineOk ht
  rw [writeCtrl_frame ht] at heng ⊢
  exact ⟨h.memWf, h.memOk, h.fifoOk, h.sessOk, heng⟩

theorem inv_irqStep {s : State} (h : Inv s) : Inv (irqStep s) := by
  by_cases hd : deliverEnabled s = true
  · rw [irqStep_of_enabled s hd]
    exact ⟨h.memWf, h.memOk, h.fifoOk, h.sessOk, h.engineOk⟩
  · rw [irqStep_of_not s (by simpa using hd)]
    exact h

/-- Every elementary move keeps the invariant: the storage's moves keep its form, a push its bound, CTRL's its spelling. -/
theorem keeps_inv : Keeps Inv where
  engine _ _ h ht := inv_engineStep h ht
  deliver _ h := inv_irqStep h
  sched _ _ h := ⟨h.memWf, h.memOk, h.fifoOk, h.sessOk, h.engineOk⟩
  ret _ _ h := ⟨h.memWf, h.memOk, h.fifoOk, h.sessOk, h.engineOk⟩
  log _ _ h := ⟨h.memWf, h.memOk, h.fifoOk, h.sessOk, h.engineOk⟩
  draws _ _ h := ⟨h.memWf, h.memOk, h.fifoOk, h.sessOk, h.engineOk⟩
  mapFails _ _ h := ⟨h.memWf, h.memOk, h.fifoOk, h.sessOk, h.engineOk⟩
  store _ S _ v hi _ h := ⟨wf_setWord _ v h.memWf, memOk_setWord h.memOk S hi v, h.fifoOk, h.sessOk, h.engineOk⟩
  push _ _ _ hroom h := ⟨h.memWf, h.memOk, by simpa using hroom, h.sessOk, h.engineOk⟩
  ctrl _ _ _ h ht := inv_writeCtrl h ht
  arm _ h := ⟨h.memWf, h.memOk, h.fifoOk, h.sessOk, h.engineOk⟩
  seen _ h := ⟨h.memWf, h.memOk, h.fifoOk, h.sessOk, h.engineOk⟩
  timeout _ h := ⟨h.memWf, h.memOk, h.fifoOk, h.sessOk, h.engineOk⟩
  last _ _ h := ⟨h.memWf, h.memOk, h.fifoOk, h.sessOk, h.engineOk⟩
  close _ h := ⟨h.memWf, h.memOk, h.fifoOk, h.sessOk, h.engineOk⟩

theorem length_r2Words (m n : Nat) (w : Width) : (r2Words m n w).length = 48 := by
  have := loOf_add_cntOf w
  simp only [r2Words, List.length_append, length_wordsOf, List.length_replicate, slotWords_eq]
  omega

/-- updateModulus writes a width with its own bit length, word count and 48 words of R² (42_protocol_wrapper.md R196). -/
theorem sessOk_setModulus {m n : Nat} {w : Width} (hn : widthOfBits n = some w) (s : State) :
    sessOk (setModulus m n w s).sess := by
  obtain rfl := widthOfBits_some hn
  have hwords : bitsOf w / 32 = cntOf w := by simp
  exact ⟨length_r2Words m _ w, rfl, congrArg some hwords⟩

theorem inv_setModulus {s : State} {m n : Nat} {w : Width} (hn : widthOfBits n = some w) (h : Inv s) :
    Inv (setModulus m n w s) := ⟨h.memWf, h.memOk, h.fifoOk, sessOk_setModulus hn s, h.engineOk⟩

/-- Settles O10 by the principle of steps: every elementary move and every field's write keeps the invariant. -/
theorem stepKeepsInv : Obligations.StepKeepsInv := by
  refine step_keeps keeps_inv (fun s q h => ?prog) (fun s v h => ?ier) (fun s v h => ?gie) (fun s h => ?opened)
    (fun s m n w hn h => inv_setModulus hn h)
  case prog => exact ⟨h.memWf, h.memOk, h.fifoOk, h.sessOk, h.engineOk⟩
  case ier => exact ⟨h.memWf, h.memOk, h.fifoOk, h.sessOk, h.engineOk⟩
  case gie => exact ⟨h.memWf, h.memOk, h.fifoOk, h.sessOk, h.engineOk⟩
  case opened => exact ⟨h.memWf, h.memOk, h.fifoOk, ⟨h.sessOk.1, rfl, rfl⟩, h.engineOk⟩

/-- Settles O11: reset has no cell, no word in the FIFO and no operation, and a closed session without a width. -/
theorem resetInv : Obligations.ResetInv :=
  ⟨rfl, fun _ hc => absurd hc List.not_mem_nil, Nat.zero_le _, ⟨rfl, rfl, rfl⟩, trivial⟩

/-- Settles O9: an empty storage gives no word a value, and the other fields are reset's own. -/
theorem resetValues : Obligations.ResetValues :=
  ⟨fun _ _ => rfl, rfl, rfl, rfl, rfl, rfl, rfl, rfl, rfl, rfl, rfl, rfl, rfl, rfl⟩

/-! ### Frames over every instruction -/

/-- A property of the session alone that the three session updates of a wait and of close keep is kept by every elementary
move. -/
theorem keeps_sess (Q : Session → Prop) (htimeout : ∀ ss, Q ss → Q { ss with desync := true })
    (hlast : ∀ ss c, Q ss → Q { ss with lastCount := c }) (hclose : ∀ ss, Q ss → Q { ss with isOpen := false }) :
    Keeps (fun s => Q s.sess) where
  engine _ _ h ht := by rw [engineStep_frame ht]; exact h
  deliver s h := by rw [irqStep_sess]; exact h
  sched _ _ h := h
  ret _ _ h := h
  log _ _ h := h
  draws _ _ h := h
  mapFails _ _ h := h
  store _ _ _ _ _ _ h := h
  push _ _ _ _ h := h
  ctrl _ _ _ h ht := by rw [writeCtrl_frame ht]; exact h
  arm _ h := h
  seen _ h := h
  timeout _ h := htimeout _ h
  last _ _ h := hlast _ _ h
  close _ h := hclose _ h

/-- A property of the two interrupt-enable registers alone is kept by every elementary move (10_state.md R28). -/
theorem keeps_enables (Q : Word → Word → Prop) : Keeps (fun s => Q s.ier s.gie) where
  engine _ _ h ht := by rw [engineStep_frame ht]; exact h
  deliver s h := by rw [irqStep_ier, irqStep_gie]; exact h
  sched _ _ h := h
  ret _ _ h := h
  log _ _ h := h
  draws _ _ h := h
  mapFails _ _ h := h
  store _ _ _ _ _ _ h := h
  push _ _ _ _ h := h
  ctrl _ _ _ h ht := by rw [writeCtrl_frame ht]; exact h
  arm _ h := h
  seen _ h := h
  timeout _ h := h
  last _ _ h := h
  close _ h := h

/-- Settles O12: the four fields are none of those that a wait's end, a timeout or close writes. -/
theorem sessionFieldsFrame : Obligations.SessionFieldsFrame := by
  intro i s t hopen hmod hexec
  have hkeeps := keeps_sess
    (fun ss => ss.width = s.sess.width ∧ ss.n = s.sess.n ∧ ss.words = s.sess.words ∧ ss.r2 = s.sess.r2)
    (fun _ h => h) (fun _ _ h => h) (fun _ h => h)
  exact exec_keeps hkeeps i (fun _ _ _ _ h => h) (fun _ _ _ _ h => h) (fun h => absurd h hopen)
    (fun m n h => absurd h (hmod m n)) s t ⟨rfl, rfl, rfl, rfl⟩ hexec

/-- Settles O13: each register survives the other's write, and no other row but open writes either. -/
theorem interruptEnablesFrame : Obligations.InterruptEnablesFrame := by
  intro i s t hopen hexec
  refine ⟨fun hrow => ?ier, fun hrow => ?gie⟩
  case ier =>
    exact exec_keeps (keeps_enables fun ier _ => ier = s.ier) i (fun v h => absurd h (hrow v)) (fun _ _ _ _ h => h)
      (fun h => absurd h hopen) (fun _ _ _ _ _ _ _ _ h => h) s t rfl hexec
  case gie =>
    exact exec_keeps (keeps_enables fun _ gie => gie = s.gie) i (fun _ _ _ _ h => h) (fun v h => absurd h (hrow v))
      (fun h => absurd h hopen) (fun _ _ _ _ _ _ _ _ h => h) s t rfl hexec

/-- Settles O14: a timeout sets the mark, and no other session update but open's touches it. -/
theorem desyncIsSticky : Obligations.DesyncIsSticky := by
  intro i s t hopen hmarked hexec
  exact exec_keeps (keeps_sess (fun ss => ss.desync = true) (fun _ _ => rfl) (fun _ _ h => h) (fun _ h => h)) i
    (fun _ _ _ _ h => h) (fun _ _ _ _ h => h) (fun h => absurd h hopen) (fun _ _ _ _ _ _ _ _ h => h) s t hmarked hexec

end Sys2Proof.Machine
end

section
/-! The command words and a write of CTRL (30_encoding.md R83, R86; 40_engine_ops.md R112, R113), the engine's latch, and the
accesses and enables whose rows are one shared operation each (20_memory.md R66; 41_host_primitives.md R148;
60_exceptions.md R234, R238; 42_protocol_wrapper.md R171). -/

namespace Sys2Proof.Machine

/-! ### The cases of a write of CTRL -/

/-- The other direction of the mask: words with the same five fields pass it (40_engine_ops.md R113). -/
theorem masked_of_sameFields {v w : Word} (h : SameFields v w) : (v ^^^ w) &&& (cmdMask &&& ~~~startMask) = 0#32 := by
  obtain ⟨hpart, hdst, hleft, hright, hauto⟩ := h
  have hfield (k : Nat) (heq : v.extractLsb' k 2 = w.extractLsb' k 2) :
      v.getLsbD k = w.getLsbD k ∧ v.getLsbD (k + 1) = w.getLsbD (k + 1) := by
    have h0 := congrArg (fun x : BitVec 2 => x.getLsbD 0) heq
    have h1 := congrArg (fun x : BitVec 2 => x.getLsbD 1) heq
    simpa [BitVec.getLsbD_extractLsb'] using And.intro h0 h1
  obtain ⟨h0, h1⟩ := hfield 0 hpart
  obtain ⟨h2, h3⟩ := hfield 2 hdst
  obtain ⟨h4, h5⟩ := hfield 4 hleft
  obtain ⟨h6, h7⟩ := hfield 6 hright
  have h9 : v.getLsbD 9 = w.getLsbD 9 := hauto
  refine BitVec.eq_of_getLsbD_eq fun j hj => ?_
  simp only [BitVec.getLsbD_and, BitVec.getLsbD_xor, BitVec.getLsbD_not, getLsbD_cmdMask j hj, getLsbD_startMask j hj,
    BitVec.getLsbD_zero]
  by_cases h10 : j < 10
  · interval_cases j <;> simp only [*, bne_self_eq_false, Bool.false_and, decide_true, Bool.not_true, Bool.and_false]
  · simp [h10]

section
variable {s : State} {v : Word}

theorem writeCtrl_launch {c : Cmd} (he : s.eng = .idle) (h0 : fieldStart s.ctrl = false) (h1 : fieldStart v = true)
    (hc : decodeCmd v = some c) : writeCtrl v s = .next { s with ctrl := v, eng := .latching c } := by
  simp [writeCtrl, he, h0, h1, hc]

theorem writeCtrl_reserved (he : s.eng = .idle) (h0 : fieldStart s.ctrl = false) (h1 : fieldStart v = true)
    (hc : decodeCmd v = none) : writeCtrl v s = .refused .reservedCommand := by
  simp [writeCtrl, he, h0, h1, hc]

/-- The two forms of "no launch": START was 1, or is 0 in the word written. -/
theorem noLaunch (h : fieldStart s.ctrl = true ∨ fieldStart v = false) : (!fieldStart s.ctrl && fieldStart v) = false := by
  rcases h with h | h <;> simp [h]

theorem writeCtrl_idle (he : s.eng = .idle) (h : fieldStart s.ctrl = true ∨ fieldStart v = false) :
    writeCtrl v s = .next { s with ctrl := v } := by
  simp [writeCtrl, he, noLaunch h]

theorem writeCtrl_launchWhileBusy (he : s.eng ≠ .idle) (h0 : fieldStart s.ctrl = false) (h1 : fieldStart v = true) :
    writeCtrl v s = .refused .launchWhileBusy := by
  simp [writeCtrl, he, h0, h1]

theorem writeCtrl_changed (he : s.eng ≠ .idle) (h : fieldStart s.ctrl = true ∨ fieldStart v = false)
    (hf : ¬ SameFields v s.ctrl) : writeCtrl v s = .refused .controlWriteWhileBusy := by
  have hmask : (v ^^^ s.ctrl) &&& (cmdMask &&& ~~~startMask) ≠ 0#32 := fun hz => hf (sameFields_of_masked hz)
  simp [writeCtrl, he, noLaunch h, hmask]

/-- Before the latch the write that clears START withdraws the strobe (40_engine_ops.md R112). -/
theorem writeCtrl_withdraws (hl : latching s = true) (h0 : fieldStart s.ctrl = true) (h1 : fieldStart v = false)
    (hf : SameFields v s.ctrl) : writeCtrl v s = .next { s with ctrl := v, eng := .idle } := by
  have he : s.eng ≠ .idle := by
    intro he
    simp [latching, he] at hl
  simp [writeCtrl, he, h0, h1, hl, masked_of_sameFields hf]

/-- A busy write with the same fields that withdraws nothing changes CTRL alone (40_engine_ops.md R113). -/
theorem writeCtrl_same (he : s.eng ≠ .idle)
    (h : fieldStart v = fieldStart s.ctrl ∨ (fieldStart v = false ∧ latching s = false))
    (hf : SameFields v s.ctrl) : writeCtrl v s = .next { s with ctrl := v } := by
  have hmask := masked_of_sameFields hf
  rcases h with h | ⟨h, hl⟩
  · cases h0 : fieldStart s.ctrl <;> simp [writeCtrl, he, h, h0, hmask]
  · simp [writeCtrl, he, h, hl, hmask]

theorem latching_of_eng {c : Cmd} (h : s.eng = .latching c) : latching s = true := by simp only [latching, h]

end

theorem exec_wCtrl (v : Word) (s : State) : exec (.wCtrl v) s = writeCtrl v s := rfl

/-- Settles O20: the cases of `writeCtrl`, each by its own law. -/
theorem writeCtrlCases : Obligations.WriteCtrlCases := by
  intro s v
  simp only [exec_wCtrl]
  exact ⟨fun c => writeCtrl_launch, writeCtrl_reserved, writeCtrl_idle, writeCtrl_launchWhileBusy, writeCtrl_changed,
    fun c he h0 h1 => writeCtrl_withdraws (latching_of_eng he) h0 h1,
    fun he h => writeCtrl_same he (.inl h), fun he hl _ h1 => writeCtrl_same he (.inr ⟨h1, hl⟩)⟩

/-- Settles O16: each row writes the launch word of its width, which spells the single operation. -/
theorem mmulLaunches : Obligations.MmulLaunches := by
  intro s x d l r he h0
  have hlaunch (w : Width) := writeCtrl_launch he h0 (fieldStart_cmdWord x (codeOfWidth w) d l r true false)
    (decodeCmd_single x w d l r)
  exact ⟨hlaunch .low, hlaunch .high, hlaunch .total⟩

/-- Settles O17: each row writes the launch word of its width, which spells the auto-run. -/
theorem autoLaunches : Obligations.AutoLaunches := by
  intro s x he h0
  have hlaunch (w : Width) := writeCtrl_launch he h0 (fieldStart_cmdWord x (codeOfWidth w) 0#2 0#2 0#2 true true)
    (decodeCmd_auto x w)
  exact ⟨hlaunch .low, hlaunch .high, hlaunch .total⟩

/-- Settles O18: the row writes a word with START = 0. -/
theorem idleWordWrites : Obligations.IdleWordWrites := by
  intro s x a p d l r
  have hstart := fieldStart_cmdWord x p d l r false a
  exact ⟨fun he => writeCtrl_idle he (.inr hstart),
    fun c he h0 => writeCtrl_withdraws (latching_of_eng he) h0 hstart,
    fun he hl => writeCtrl_same he (.inr ⟨hstart, hl⟩)⟩

/-- Settles O19: the words of the two reserved rows spell no command, and over START = 1 there is no launch to decode. -/
theorem reservedWords : Obligations.ReservedWords := by
  intro s x a p d l r he
  have hpart (b : Bool) := fieldStart_cmdWord x cfg.partReserved d l r true b
  have hauto := fieldStart_cmdWord x p d l r true true
  refine ⟨fun h0 => writeCtrl_reserved he h0 (hpart a) ?partReserved,
    fun h0 hwf => writeCtrl_reserved he h0 hauto ?autoReserved, fun h0 => writeCtrl_idle he (.inl h0),
    fun h0 => writeCtrl_idle he (.inl h0)⟩
  case partReserved => exact decodeCmd_reservedPart (fieldPart_cmdWord x cfg.partReserved d l r true a)
  case autoReserved =>
    refine decodeCmd_reservedAuto (fieldAuto_cmdWord x p d l r true true) ?_
    rw [fieldDst_cmdWord, fieldLeft_cmdWord, fieldRight_cmdWord]
    rintro ⟨rfl, rfl, rfl⟩
    simp [Instr.wf] at hwf

/-- Settles O24: the latch takes the waiting command, and an idle engine has none. -/
theorem engineLatches : Obligations.EngineLatches := fun _ =>
  ⟨fun _ _ _ _ h => engineStep_latching h, fun _ h => engineStep_latching h, engineStep_idle⟩

/-! ### Accesses while the engine is not idle (20_memory.md R66) -/

theorem readData_busy {s : State} (a : Nat) (he : s.eng ≠ .idle) :
    readData a s = .next { s with ret := .word (Config.drawWord s.draws), draws := s.draws + 1 } := by
  simp [readData, busy, he]

theorem writeData_busy {s : State} (a : Nat) (v : Word) (he : s.eng ≠ .idle) : writeData a v s = .refused .writeWhileBusy := by
  simp [writeData, busy, he]

/-- Settles O30: the rows of a slot are one read and one write, and the push port's is a push. -/
theorem busyAccesses : Obligations.BusyAccesses := by
  intro s i v j he hi
  have hread (S : Slot) : exec (slotRead S i) s =
      .next { s with ret := .word (Config.drawWord s.draws), draws := s.draws + 1 } := by
    rw [exec_slotRead, readSlot, if_pos (indexOk_of_lt hi), readData_busy _ he]
  have hwrite (S : Slot) : exec (slotWrite S i v) s = .refused .writeWhileBusy := by
    rw [exec_slotWrite, writeSlot, if_pos (indexOk_of_lt hi), writeData_busy _ v he]
  refine ⟨fun hj => ?reads, fun hj => ?writes, exec_rCtrl s⟩
  case reads =>
    simp only [List.mem_cons, List.not_mem_nil, or_false] at hj
    rcases hj with rfl | rfl | rfl | rfl | rfl
    exacts [hread .mod, hread (.op 0#2), hread (.op 1#2), hread (.op 2#2), hread (.op 3#2)]
  case writes =>
    simp only [List.mem_cons, List.not_mem_nil, or_false] at hj
    rcases hj with rfl | rfl | rfl | rfl | rfl | rfl
    exacts [hwrite .mod, hwrite (.op 0#2), hwrite (.op 1#2), hwrite (.op 2#2), hwrite (.op 3#2), pushFifo_busy v he]

/-! ### The enables and the delivery (10_state.md R28; 60_exceptions.md R234) -/

/-- A mask of one bit tests that bit. -/
theorem and_twoPow_eq_iff (x : Word) {k : Nat} (hk : k < 32) :
    x &&& BitVec.twoPow 32 k = BitVec.twoPow 32 k ↔ x.getLsbD k = true := by
  rw [BitVec.and_twoPow]
  cases hbit : x.getLsbD k
  · have hne : BitVec.twoPow 32 k ≠ 0#32 := fun h => by
      have := congrArg (fun y : Word => y.getLsbD k) h
      simp [hk] at this
    simp [hne.symm]
  · simp

theorem ierMask_eq : cfg.ierMask = BitVec.twoPow 32 0 := by decide

theorem gieMask_eq : cfg.gieMask = BitVec.twoPow 32 31 := by decide

/-- Delivery is enabled by bit 0 of IER and bit 31 of GIE (10_state.md R28, default masks). -/
theorem irqEnabled_iff (s : State) : irqEnabled s = true ↔ (s.ier.getLsbD 0 = true ∧ s.gie.getLsbD 31 = true) := by
  rw [irqEnabled, Bool.and_eq_true, decide_eq_true_eq, decide_eq_true_eq, ierMask_eq, gieMask_eq,
    and_twoPow_eq_iff _ (by decide), and_twoPow_eq_iff _ (by decide)]

theorem deliverEnabled_iff (s : State) :
    deliverEnabled s = true ↔
      (s.irqPend = true ∧ s.ier.getLsbD 0 = true ∧ s.gie.getLsbD 31 = true ∧ s.irqArmed = true) := by
  rw [deliverEnabled, Bool.and_eq_true, Bool.and_eq_true, irqEnabled_iff]
  tauto

/-- Settles O34: the two rows set one field each, and the masks test one bit each. -/
theorem enableWrites : Obligations.EnableWrites := by
  refine ⟨fun _ _ => rfl, fun _ _ => rfl, irqEnabled_iff, fun s t v hpend harmed hier hgie hexec => ?deliverable⟩
  case deliverable =>
    injection hexec with hexec
    subst hexec
    exact (deliverEnabled_iff _).2 ⟨hpend, hier, hgie, harmed⟩

/-- Settles O36: the four conditions, the delivery, and the turn that does nothing. -/
theorem delivery : Obligations.Delivery := by
  intro s
  refine ⟨deliverEnabled_iff s, fun h => ⟨s.irqCount + 1#32, ?count, irqStep_of_enabled s h⟩, irqStep_of_not s⟩
  case count => rw [BitVec.toNat_add, BitVec.toNat_ofNat, Nat.mod_eq_of_lt (a := 1) (by decide)]

/-! ### The channel read (60_exceptions.md R238) -/

theorem countNew_iff (s : State) : countNew s = true ↔ s.irqCount ≠ s.chanSeen := decide_eq_true_iff

theorem countNew_eq_false {s : State} (h : s.irqCount = s.chanSeen) : countNew s = false := by simp [countNew, h]

/-- A new count is returned at once, whatever the schedule (60_exceptions.md R238). -/
theorem cntGo_of_new (ts : List Turn) {s : State} (h : countNew s = true) :
    cntGo ts s = .next (takeCount { s with sched := ts }) := by
  cases ts with
  | nil => simp only [cntGo, h, if_true]
  | cons t ts => simp only [cntGo, h, if_true]

theorem readChannel_of_new {s : State} (h : countNew s = true) : readChannel s = .next (takeCount s) :=
  cntGo_of_new s.sched h

/-- The count after a delivery is one the host has not been given. -/
theorem countNew_irqStep {s : State} (hseen : s.irqCount = s.chanSeen) (hd : deliverEnabled s = true) :
    countNew (irqStep s) = true := by
  rw [countNew_iff, irqStep_of_enabled s hd, ← hseen]
  simp

/-- While the engine is idle the blocked read sees the delivery alone (70_reset_and_hazards.md R290). -/
theorem drain_idle {s : State} (he : s.eng = .idle) : drain s = .next (irqStep s) := by
  rw [drain, engineStep_idle he, andThen_of_next, engineStep_idle he, andThen_of_next]

section
variable {s : State} (ts : List Turn) (h : countNew s = false)
include h

theorem cntGo_timeout : cntGo (.timeout :: ts) s = .next { s with sched := ts, ret := .count none } := by
  simp only [cntGo, h, Bool.false_eq_true, if_false]

theorem cntGo_irq : cntGo (.irq :: ts) s = cntGo ts (irqStep s) := by
  simp only [cntGo, h, Bool.false_eq_true, if_false]

theorem cntGo_host : cntGo (.host :: ts) s = cntGo ts s := by
  simp only [cntGo, h, Bool.false_eq_true, if_false]

theorem cntGo_engine_idle (he : s.eng = .idle) : cntGo (.engine :: ts) s = cntGo ts s := by
  simp only [cntGo, h, Bool.false_eq_true, if_false, engineStep_idle he, andThen_of_next]

end

/-- With nothing scheduled and the engine idle the read takes an enabled delivery (60_exceptions.md R253). -/
theorem cntGo_nil_enabled {s : State} (he : s.eng = .idle) (hseen : s.irqCount = s.chanSeen) (hd : deliverEnabled s = true) :
    cntGo [] s = .next (takeCount (irqStep { s with sched := [] })) := by
  have hnew : countNew (irqStep { s with sched := [] }) = true := countNew_irqStep hseen hd
  have hdrain : drain { s with sched := [] } = .next (irqStep { s with sched := [] }) := drain_idle he
  simp only [cntGo, countNew_eq_false hseen, Bool.false_eq_true, if_false, hdrain, andThen_of_next, hnew, if_true]

/-- With nothing scheduled, the engine idle and no delivery enabled the read gives none (60_exceptions.md R253). -/
theorem cntGo_nil_none {s : State} (he : s.eng = .idle) (hseen : s.irqCount = s.chanSeen) (hd : deliverEnabled s = false) :
    cntGo [] s = .next { s with sched := [], ret := .count none } := by
  have hstay : irqStep { s with sched := [] } = { s with sched := [] } := irqStep_of_not _ hd
  have hdrain : drain { s with sched := [] } = .next { s with sched := [] } :=
    (drain_idle (s := { s with sched := [] }) he).trans (congrArg _ hstay)
  have hnew : countNew { s with sched := [] } = false := countNew_eq_false hseen
  simp only [cntGo, countNew_eq_false hseen, Bool.false_eq_true, if_false, hdrain, andThen_of_next, hnew]

theorem exec_cnt {s : State} {ts : List Turn} (h : s.sched = ts) : exec .cnt s = cntGo ts s := by
  rw [← h]
  rfl

/-- Settles O38: the new count first, else the schedule's first turn, else what is enabled. -/
theorem channelRead : Obligations.ChannelRead := by
  intro s
  refine ⟨fun h => readChannel_of_new ((countNew_iff s).2 h), fun ts hseen hsched => ?deadline,
    fun ts hseen hsched hd => ?delivered, fun hseen hsched he hd => ?enabled, fun hseen hsched he hd => ?none⟩
  case deadline => rw [exec_cnt hsched, cntGo_timeout ts (countNew_eq_false hseen)]
  case delivered =>
    rw [exec_cnt hsched, cntGo_irq ts (countNew_eq_false hseen), cntGo_of_new ts (countNew_irqStep hseen hd),
      irqStep_of_enabled s hd]
    rfl
  case enabled =>
    rw [exec_cnt hsched, cntGo_nil_enabled he hseen hd, ← hsched, irqStep_of_enabled s hd]
    rfl
  case none => rw [exec_cnt hsched, cntGo_nil_none he hseen hd, ← hsched]

/-- Settles O41: the row writes one session field and what the caller is told. -/
theorem closeSession : Obligations.CloseSession := fun _ => rfl

/-! ### Encoded objects (30_encoding.md R88, R91) -/

/-- Settles O35: the image is a run of 48 word writes from the slot's base, the exponent word a push. -/
theorem encodedObjectsStore : Obligations.EncodedObjectsStore := by
  refine ⟨fun s S img he hlen => ?image, fun s S img hlen => ?otherLength, fun s e1 e0 =>
    ⟨pushFifo_idle_room (e1 ++ e0), pushFifo_idle_full (e1 ++ e0), pushFifo_busy (e1 ++ e0)⟩⟩
  case image =>
    obtain ⟨t, ht, hu⟩ := writeWords_idle img (slotBase S) he
    have hmem : t.mem = writeRun s.mem (slotBase S) img := by rw [hu.2.2]
    refine ⟨t, (if_pos hlen).trans ht, by rwa [hmem], fun i hi => ?_, by rw [hmem]; exact onlySlot_image s.mem S hlen⟩
    rw [hmem, slotWord_image_same s.mem S (by omega), List.getElem?_eq_getElem (by omega)]
  case otherLength => exact if_neg hlen

end Sys2Proof.Machine
end

section
/-! The auto-run (40_engine_ops.md R118, R120, R122 to R124; 30_encoding.md R88, R89): the identities of the Montgomery product,
the order of the exponents' bits in the stream, what the loop computes from the protocol's preconditions, and at which pair
bit it is refused. -/

namespace Sys2Proof.Machine

/-! ### The identities of the Montgomery product (40_engine_ops.md R118) -/

section
variable {m n : Nat} (hodd : m % 2 = 1)
include hodd

/-- The Montgomery product of `a` and `b` is the `c` below `m` with `a * b` congruent to `c * 2^n`. -/
theorem montMul_eq {a b c : Nat} (h : a * b ≡ c * 2 ^ n [MOD m]) : montMul a b m n = c % m :=
  calc a * b * rinv m n
    _ ≡ c * 2 ^ n * rinv m n [MOD m] := h.mul_right _
    _ = c * (2 ^ n * rinv m n) := Nat.mul_assoc ..
    _ ≡ c * 1 [MOD m] := (two_pow_mul_rinv_modEq_one n hodd).mul_left c
    _ = c := Nat.mul_one c

/-- The product with R² is the Montgomery form. -/
theorem montMul_r2 (x : Nat) : montMul x (r2Of m n) m n = x * 2 ^ n % m := by
  refine montMul_eq hodd ?_
  rw [r2Of_of_pos n (by omega)]
  calc x * (2 ^ (2 * n) % m)
    _ ≡ x * 2 ^ (2 * n) [MOD m] := (Nat.mod_modEq _ m).mul_left x
    _ = x * 2 ^ n * 2 ^ n := by ring

/-- The form of 1. -/
theorem montMul_one_r2 : montMul 1 (r2Of m n) m n = 2 ^ n % m := by rw [montMul_r2 hodd, Nat.one_mul]

/-- The product of two numbers in Montgomery form is the product's form. -/
theorem montMul_forms (x y : Nat) : montMul (x * 2 ^ n % m) (y * 2 ^ n % m) m n = x * y * 2 ^ n % m := by
  refine montMul_eq hodd ?_
  calc x * 2 ^ n % m * (y * 2 ^ n % m)
    _ ≡ x * 2 ^ n * (y * 2 ^ n) [MOD m] := (Nat.mod_modEq _ m).mul (Nat.mod_modEq _ m)
    _ = x * y * 2 ^ n * 2 ^ n := by ring

/-- The product of a form with 1 is the number. -/
theorem montMul_one (x : Nat) : montMul (x * 2 ^ n % m) 1 m n = x % m := by
  refine montMul_eq hodd ?_
  rw [Nat.mul_one]
  exact Nat.mod_modEq _ m

/-- The two steps of Multiply (43_algorithms.md R212). -/
theorem montMul_montMul_r2 (x y : Nat) : montMul (montMul x y m n) (r2Of m n) m n = x * y % m := by
  rw [montMul_r2 hodd]
  calc montMul x y m n * 2 ^ n
    _ ≡ x * y * rinv m n * 2 ^ n [MOD m] := (Nat.mod_modEq _ m).mul_right _
    _ = x * y * (2 ^ n * rinv m n) := by ring
    _ ≡ x * y * 1 [MOD m] := (two_pow_mul_rinv_modEq_one n hodd).mul_left _
    _ = x * y := Nat.mul_one _

end

/-- Settles O23: each identity is a congruence to a multiple of `2^n`. -/
theorem montgomeryIdentities : Obligations.MontgomeryIdentities := by
  intro m n x y hodd _ _
  exact ⟨montMul_r2 hodd x, fun _ => montMul_one_r2 hodd, montMul_forms hodd x y, montMul_one hodd x,
    montMul_montMul_r2 hodd x y⟩

/-! ### The bits of the exponent stream (30_encoding.md R88, R89) -/

theorem getLsbD_wordAt (v i : Nat) {t : Nat} (ht : t < 32) : (wordAt v i).getLsbD t = v.testBit (32 * i + t) := by
  rw [wordAt, BitVec.getLsbD_ofNat, Nat.testBit_div_two_pow, Nat.add_comm t]
  simp [ht]

section
variable (e0 e1 i : Nat) {t : Nat} (ht : t < 16)
include ht

theorem getLsbD_expWordA_low : (expWordA e0 e1 i).getLsbD t = e0.testBit (32 * i + (16 + t)) := by
  rw [expWordA_eq_append, BitVec.getLsbD_append, if_pos ht, BitVec.getLsbD_extractLsb', getLsbD_wordAt _ _ (by omega)]
  simp [ht]

theorem getLsbD_expWordA_high : (expWordA e0 e1 i).getLsbD (16 + t) = e1.testBit (32 * i + (16 + t)) := by
  rw [expWordA_eq_append, BitVec.getLsbD_append, if_neg (by omega), Nat.add_sub_cancel_left, BitVec.getLsbD_extractLsb',
    getLsbD_wordAt _ _ (by omega)]
  simp [ht]

theorem getLsbD_expWordB_low : (expWordB e0 e1 i).getLsbD t = e0.testBit (32 * i + t) := by
  rw [expWordB_eq_append, BitVec.getLsbD_append, if_pos ht, BitVec.getLsbD_extractLsb', getLsbD_wordAt _ _ (by omega)]
  simp [ht]

theorem getLsbD_expWordB_high : (expWordB e0 e1 i).getLsbD (16 + t) = e1.testBit (32 * i + t) := by
  rw [expWordB_eq_append, BitVec.getLsbD_append, if_neg (by omega), Nat.add_sub_cancel_left, BitVec.getLsbD_extractLsb',
    getLsbD_wordAt _ _ (by omega)]
  simp [ht]

end

/-- The pair bits of the stream fall in strictly decreasing weight: the two words of each exponent word, high halves first. -/
theorem pairBits_expStream (e0 e1 : Nat) {k j : Nat} (hj : j < 32 * k) :
    ((expStream e0 e1 k).getD (j / 16) 0#32).getLsbD (15 - j % 16) = e0.testBit (32 * k - 1 - j) ∧
    ((expStream e0 e1 k).getD (j / 16) 0#32).getLsbD (31 - j % 16) = e1.testBit (32 * k - 1 - j) := by
  induction k generalizing j with
  | zero => omega
  | succ k ih =>
    rw [expStream_succ]
    by_cases hA : j < 16
    · have hword : j / 16 = 0 := by omega
      have hlow := getLsbD_expWordA_low e0 e1 k (t := 15 - j) (by omega)
      have hhigh := getLsbD_expWordA_high e0 e1 k (t := 15 - j) (by omega)
      rw [show 32 * k + (16 + (15 - j)) = 32 * (k + 1) - 1 - j by omega] at hlow hhigh
      rw [show 16 + (15 - j) = 31 - j by omega] at hhigh
      rw [hword, show j % 16 = j by omega]
      exact ⟨hlow, hhigh⟩
    by_cases hB : j < 32
    · have hword : j / 16 = 1 := by omega
      have hlow := getLsbD_expWordB_low e0 e1 k (t := 31 - j) (by omega)
      have hhigh := getLsbD_expWordB_high e0 e1 k (t := 31 - j) (by omega)
      rw [show 32 * k + (31 - j) = 32 * (k + 1) - 1 - j by omega] at hlow hhigh
      rw [hword, show 15 - j % 16 = 31 - j by omega, show 31 - j % 16 = 16 + (31 - j) by omega]
      exact ⟨hlow, hhigh⟩
    · have hrest := ih (j := j - 32) (by omega)
      rw [show (j - 32) % 16 = j % 16 by omega, show 32 * k - 1 - (j - 32) = 32 * (k + 1) - 1 - j by omega] at hrest
      rw [show j / 16 = (j - 32) / 16 + 2 by omega]
      exact hrest

/-- Settles O52: two words for each exponent word, and the order of their bits. -/
theorem streamBitOrder : Obligations.StreamBitOrder := fun e0 e1 k _ hj =>
  ⟨length_expStream e0 e1 k, pairBits_expStream e0 e1 hj⟩

/-! ### What the loop computes (40_engine_ops.md R120, R124) -/

/-- A number without its last `k` bits is twice the number without one more, and the bit between (Nat.testBit). -/
theorem div_two_pow_succ (e k : Nat) : e / 2 ^ k = 2 * (e / 2 ^ (k + 1)) + (e.testBit k).toNat := by
  rw [pow_succ, ← Nat.div_div_eq_div_mul, Nat.testBit_eq_decide_div_mod_eq]
  have := Nat.div_add_mod (e / 2 ^ k) 2
  by_cases h : e / 2 ^ k % 2 = 1 <;> simp [h] <;> omega

/-- The Montgomery form of `g0^a * g1^b`, which the accumulator holds once the leading bits `a` and `b` of the two exponents
have been consumed. -/
def powersForm (m n g0 g1 a b : Nat) : Nat := g0 ^ a * g1 ^ b * 2 ^ n % m

/-- The multiplicand slots hold what the protocol puts there: TAB1 the form of `g0`, and where stream 1 has a bit (`two`) TAB2
that of `g1` and TAB3 that of their product (40_engine_ops.md R124). -/
structure TabsHold (mem : Memory) (w : Width) (m g0 g1 : Nat) (two : Prop) : Prop where
  tab1 : regionVal mem (.op cfg.tab1) w = some (g0 * 2 ^ bitsOf w % m)
  tab2 : two → regionVal mem (.op cfg.tab2) w = some (g1 * 2 ^ bitsOf w % m)
  tab3 : two → regionVal mem (.op cfg.tab3) w = some (g0 * g1 * 2 ^ bitsOf w % m)

section
variable {mem : Memory} {w : Width} {m g0 g1 : Nat} {two : Prop} (hodd : m % 2 = 1) (htabs : TabsHold mem w m g0 g1 two)
include hodd

/-- Squaring doubles both exponents. -/
theorem montMul_powersForm_self (a b : Nat) :
    montMul (powersForm m (bitsOf w) g0 g1 a b) (powersForm m (bitsOf w) g0 g1 a b) m (bitsOf w) =
      powersForm m (bitsOf w) g0 g1 (2 * a) (2 * b) := by
  rw [powersForm, montMul_forms hodd, powersForm]
  congr 2
  ring

/-- Multiplying by the form of `y` multiplies the number in the form. -/
theorem montMul_powersForm (a b y : Nat) :
    montMul (powersForm m (bitsOf w) g0 g1 a b) (y * 2 ^ bitsOf w % m) m (bitsOf w) =
      g0 ^ a * g1 ^ b * y * 2 ^ bitsOf w % m := montMul_forms hodd _ _

include htabs

/-- One pair bit appends one bit to each exponent (40_engine_ops.md R120). -/
theorem autoPair_powersForm {b1 b0 : Bool} (htwo : b1 = true → two) (a b : Nat) :
    autoPair mem w m b1 b0 (powersForm m (bitsOf w) g0 g1 a b) =
      .next (powersForm m (bitsOf w) g0 g1 (2 * a + b0.toNat) (2 * b + b1.toNat)) := by
  have hlt (y : Nat) : y * 2 ^ bitsOf w % m < m := Nat.mod_lt _ (by omega)
  unfold autoPair
  rw [montMul_powersForm_self hodd]
  cases b1 with
  | false =>
    cases b0 with
    | false => rfl
    | true =>
      simp only [tabSlot, htabs.tab1, if_pos (hlt g0)]
      rw [montMul_powersForm hodd, powersForm]
      congr 3
      simp only [Bool.toNat_true, Bool.toNat_false, Nat.add_zero, pow_succ]
      ring
  | true =>
    cases b0 with
    | false =>
      simp only [tabSlot, htabs.tab2 (htwo rfl), if_pos (hlt g1)]
      rw [montMul_powersForm hodd, powersForm]
      congr 3
      simp only [Bool.toNat_true, Bool.toNat_false, Nat.add_zero, pow_succ]
      ring
    | true =>
      simp only [tabSlot, htabs.tab3 (htwo rfl), if_pos (hlt (g0 * g1))]
      rw [montMul_powersForm hodd, powersForm]
      congr 3
      simp only [Bool.toNat_true, pow_succ]
      ring

/-- The pair bits `k - 1` to 0 of a word whose halves are the exponents' bits from `off` on. -/
theorem autoWord_powersForm {e0 e1 : Nat} (htwo : e1 ≠ 0 → two) {x : Word} {off k : Nat}
    (h0 : ∀ t < k, x.getLsbD t = e0.testBit (off + t)) (h1 : ∀ t < k, x.getLsbD (16 + t) = e1.testBit (off + t)) :
    autoWord mem w m x k (powersForm m (bitsOf w) g0 g1 (e0 / 2 ^ (off + k)) (e1 / 2 ^ (off + k))) =
      .next (powersForm m (bitsOf w) g0 g1 (e0 / 2 ^ off) (e1 / 2 ^ off)) := by
  induction k with
  | zero => rfl
  | succ k ih =>
    have hbit : x.getLsbD (16 + k) = true → two := fun hb => htwo fun hz => by
      rw [h1 k (by omega), hz, Nat.zero_testBit] at hb
      cases hb
    have hpair := autoPair_powersForm hodd htabs (b0 := x.getLsbD k) hbit (e0 / 2 ^ (off + k + 1)) (e1 / 2 ^ (off + k + 1))
    rw [h0 k (by omega), h1 k (by omega), ← div_two_pow_succ, ← div_two_pow_succ] at hpair
    rw [autoWord, h0 k (by omega), h1 k (by omega), ← Nat.add_assoc, hpair, andThen_of_next]
    exact ih (fun t ht => h0 t (by omega)) (fun t ht => h1 t (by omega))

/-- The stream of `k` exponent words, from the exponents' bits above it (40_engine_ops.md R124). -/
theorem autoRun_powersForm {e0 e1 : Nat} (htwo : e1 ≠ 0 → two) (k : Nat) :
    autoRun mem w m (expStream e0 e1 k) (powersForm m (bitsOf w) g0 g1 (e0 / 2 ^ (32 * k)) (e1 / 2 ^ (32 * k))) =
      .next (powersForm m (bitsOf w) g0 g1 e0 e1) := by
  induction k with
  | zero => simp [expStream, autoRun]
  | succ k ih =>
    have hA := autoWord_powersForm hodd htabs htwo (x := expWordA e0 e1 k) (off := 32 * k + 16) (k := 16)
      (fun t ht => by rw [getLsbD_expWordA_low e0 e1 k ht, Nat.add_assoc])
      (fun t ht => by rw [getLsbD_expWordA_high e0 e1 k ht, Nat.add_assoc])
    have hB := autoWord_powersForm hodd htabs htwo (x := expWordB e0 e1 k) (off := 32 * k) (k := 16)
      (fun t ht => getLsbD_expWordB_low e0 e1 k ht) (fun t ht => getLsbD_expWordB_high e0 e1 k ht)
    rw [expStream, autoRun, show 32 * (k + 1) = 32 * k + 16 + 16 by ring, hA, andThen_of_next, autoRun, hB,
      andThen_of_next]
    exact ih

/-- From the form of 1 a stream long enough for both exponents gives the form of `g0^e0 * g1^e1` (40_engine_ops.md R124). -/
theorem autoRun_expStream {e0 e1 n : Nat} (htwo : e1 ≠ 0 → two) (hlen : n % 32 = 0) (h0 : e0 < 2 ^ n) (h1 : e1 < 2 ^ n) :
    autoRun mem w m (expStream e0 e1 (n / 32)) (2 ^ bitsOf w % m) = .next (g0 ^ e0 * g1 ^ e1 * 2 ^ bitsOf w % m) := by
  have hrun := autoRun_powersForm hodd htabs htwo (e0 := e0) (n / 32)
  rw [show 32 * (n / 32) = n by omega, Nat.div_eq_of_lt h0, Nat.div_eq_of_lt h1] at hrun
  simpa [powersForm] using hrun

end

/-- A completed operation leaves every byte outside its destination slot (40_engine_ops.md R115). -/
theorem onlySlot_storeResult (mem : Memory) (S : Slot) (w : Width) (v : Nat) : OnlySlot S mem (storeResult mem S w v) :=
  fun _ ha => getByte_storeResult_out mem S w v ha

theorem engineStep_busyAuto {s : State} {w : Width} (h : s.eng = .busyAuto w) : engineStep s = completeAuto w s := by
  simp only [engineStep, h]

/-- What the step `complete` of an auto-run is, once its modulus, FIFO and accumulator pass (40_engine_ops.md R120). -/
theorem completeAuto_of_loop {s : State} {w : Width} {m A : Nat} (hm : regionVal s.mem .mod w = some m) (hf : s.fifo ≠ [])
    (hA : regionVal s.mem (.op cfg.acc) w = some A) (hodd : m % 2 = 1) (hlt : A < m) :
    completeAuto w s = andThen (autoRun s.mem w m s.fifo A)
      (fun v => .next { finishOp (.op cfg.acc) w v s with fifo := [] }) := by
  simp only [completeAuto, hm, if_neg hf, hA, if_pos (And.intro hodd hlt)]

theorem expStream_ne_nil (e0 e1 : Nat) {k : Nat} (hk : 0 < k) : expStream e0 e1 k ≠ [] := by
  refine List.ne_nil_of_length_pos ?_
  rw [length_expStream]
  omega

/-- Settles O26: the loop's result is below the modulus, so it fits the accumulator's region. -/
theorem autoComputesPowers : Obligations.AutoComputesPowers := by
  intro s w m g0 g1 e0 e1 n hbusy hm hodd _ _ hacc htab1 htwo hpos hlen he0 he1 hfifo
  have htabs : TabsHold s.mem w m g0 g1 (e1 ≠ 0) := ⟨htab1, fun h => (htwo h).1, fun h => (htwo h).2⟩
  have hloop := autoRun_expStream hodd htabs id hlen he0 he1
  have hne : s.fifo ≠ [] := hfifo ▸ expStream_ne_nil e0 e1 (by omega)
  have hmod (x : Nat) : x % m < m := Nat.mod_lt x (by omega)
  rw [engineStep_busyAuto hbusy, completeAuto_of_loop hm hne hacc hodd (hmod _), hfifo, hloop, andThen_of_next]
  exact ⟨_, rfl, rfl, slotResult_storeResult s.mem _ w ((hmod _).trans (regionVal_lt hm)),
    onlySlot_storeResult s.mem _ w _⟩

/-! ### Where the loop is refused (40_engine_ops.md R120, R123) -/

/-- The pair bit `t` of a word can be consumed: it selects no multiplicand or one that can be used. -/
def PairOk (mem : Memory) (w : Width) (m : Nat) (x : Word) (t : Nat) : Prop :=
  ∀ S, tabSlot (x.getLsbD (16 + t)) (x.getLsbD t) = some S → MultiplicandOk mem w m S

section
variable {mem : Memory} {w : Width} {m : Nat}

theorem autoWord_ok {x : Word} {k : Nat} (h : ∀ t < k, PairOk mem w m x t) (A : Nat) :
    ∃ A', autoWord mem w m x k A = .next A' := by
  induction k generalizing A with
  | zero => exact ⟨A, rfl⟩
  | succ k ih =>
    obtain ⟨A', hpair⟩ := autoPair_ok A (h k (by omega))
    rw [autoWord, hpair, andThen_of_next]
    exact ih (fun t ht => h t (by omega)) A'

/-- A pair bit that is refused from every accumulator refuses its word, where the pair bits above it can be consumed. -/
theorem autoWord_refused {x : Word} {k t : Nat} {e : Refusal} (ht : t < k)
    (hok : ∀ u, t < u → u < k → PairOk mem w m x u)
    (hbad : ∀ A, autoPair mem w m (x.getLsbD (16 + t)) (x.getLsbD t) A = .refused e) (A : Nat) :
    autoWord mem w m x k A = .refused e := by
  induction k generalizing A with
  | zero => omega
  | succ k ih =>
    rw [autoWord]
    by_cases hlast : t = k
    · rw [← hlast, hbad]
      rfl
    · obtain ⟨A', hpair⟩ := autoPair_ok A (hok k (by omega) (by omega))
      rw [hpair, andThen_of_next]
      exact ih (by omega) (fun u hu hk => hok u hu (by omega)) A'

theorem pairSlot_head (x : Word) (q : List Word) {t : Nat} (ht : t < 16) :
    pairSlot (x :: q) (15 - t) = tabSlot (x.getLsbD (16 + t)) (x.getLsbD t) := by
  rw [pairSlot, show (15 - t) / 16 = 0 by omega, show 31 - (15 - t) % 16 = 16 + t by omega,
    show 15 - (15 - t) % 16 = t by omega]
  rfl

theorem pairSlot_tail (x : Word) (q : List Word) (j : Nat) : pairSlot (x :: q) (16 + j) = pairSlot q j := by
  rw [pairSlot, pairSlot, Nat.add_mod_left, show (16 + j) / 16 = j / 16 + 1 by omega, List.getD_cons_succ]

/-- The head word's pair bits can be consumed where those of the FIFO's first sixteen numbers can. -/
theorem pairOk_head {x : Word} {q : List Word} {t : Nat} (ht : t < 16)
    (h : ∀ S, pairSlot (x :: q) (15 - t) = some S → MultiplicandOk mem w m S) : PairOk mem w m x t := by
  rwa [pairSlot_head x q ht] at h

/-- The loop completes where every selected multiplicand can be used (40_engine_ops.md R120, R123 (d)). -/
theorem autoRun_ok {q : List Word} (h : ∀ j S, j < 16 * q.length → pairSlot q j = some S → MultiplicandOk mem w m S)
    (A : Nat) : ∃ A', autoRun mem w m q A = .next A' := by
  induction q generalizing A with
  | nil => exact ⟨A, rfl⟩
  | cons x q ih =>
    simp only [List.length_cons] at h
    obtain ⟨A', hword⟩ := autoWord_ok (x := x) (k := 16)
      (fun t ht => pairOk_head ht fun S => h (15 - t) S (by omega)) A
    rw [autoRun, hword, andThen_of_next]
    exact ih (fun j S hj hs => h (16 + j) S (by omega) (by rwa [pairSlot_tail])) A'

/-- The loop is refused at the first pair bit that is, wherever in the FIFO it stands (40_engine_ops.md R120). -/
theorem autoRun_refused {q : List Word} {j : Nat} {S : Slot} {e : Refusal} (hj : j < 16 * q.length)
    (hsel : pairSlot q j = some S) (hok : ∀ i S', i < j → pairSlot q i = some S' → MultiplicandOk mem w m S')
    (hbad : ∀ b1 b0 A, tabSlot b1 b0 = some S → autoPair mem w m b1 b0 A = .refused e) (A : Nat) :
    autoRun mem w m q A = .refused e := by
  induction q generalizing j A with
  | nil => simp at hj
  | cons x q ih =>
    rw [autoRun]
    by_cases hhead : j < 16
    · obtain ⟨t, ht, rfl⟩ : ∃ t, t < 16 ∧ j = 15 - t := ⟨15 - j, by omega, by omega⟩
      rw [pairSlot_head x q ht] at hsel
      rw [autoWord_refused ht (fun u hu hlt => pairOk_head hlt fun S' => hok (15 - u) S' (by omega))
        (fun A' => hbad _ _ A' hsel)]
      rfl
    · obtain ⟨j, rfl⟩ := Nat.exists_eq_add_of_le (Nat.le_of_not_lt hhead)
      obtain ⟨A', hword⟩ := autoWord_ok (x := x) (k := 16)
        (fun t ht => pairOk_head ht fun S' => hok (15 - t) S' (by omega)) A
      rw [hword, andThen_of_next]
      simp only [List.length_cons] at hj
      rw [pairSlot_tail] at hsel
      exact ih (by omega) hsel (fun i S' hi hs => hok (16 + i) S' (by omega) (by rwa [pairSlot_tail])) A'

end

/-- Settles O27: the tests of `completeAuto` in their order, then the loop. -/
theorem autoRefusals : Obligations.AutoRefusals := by
  intro s w hbusy
  rw [engineStep_busyAuto hbusy]
  refine ⟨fun hm => ?noModulus, fun m hm => ⟨fun hf => ?emptyFifo, fun hf hA => ?noAccumulator, fun A hf hA =>
    ⟨fun hbad => ?outOfDomain, fun hodd hlt => ⟨fun j S hj hsel hok => ⟨fun hS => ?unwritten, fun T hS hT => ?notBelow⟩,
      fun hok => ?completes⟩⟩⟩⟩
  case noModulus => simp only [completeAuto, hm]
  case emptyFifo => simp only [completeAuto, hm, if_pos hf]
  case noAccumulator => simp only [completeAuto, hm, if_neg hf, hA]
  case outOfDomain =>
    simp only [completeAuto, hm, if_neg hf, hA]
    exact if_neg (by omega)
  case unwritten =>
    rw [completeAuto_of_loop hm hf hA hodd hlt, autoRun_refused hj hsel hok fun _ _ A' hs => autoPair_unwritten A' hs hS]
    rfl
  case notBelow =>
    rw [completeAuto_of_loop hm hf hA hodd hlt, autoRun_refused hj hsel hok fun _ _ A' hs => autoPair_outOfDomain A' hs hS hT]
    rfl
  case completes =>
    obtain ⟨v, hv⟩ := autoRun_ok hok A
    rw [completeAuto_of_loop hm hf hA hodd hlt, hv, andThen_of_next]
    exact ⟨_, rfl⟩

end Sys2Proof.Machine
end

section
/-! The wrapper's operations one by one (42_protocol_wrapper.md R170 to R196; 41_host_primitives.md R150): the settle delay, open,
the codec's accesses, a launch call, a wait, and updateModulus. An update that does not touch the interrupt path commutes with
the turns inside an operation, so each operation is its own updates and at most one delivery. -/

namespace Sys2Proof.Machine

/-! ### The turns inside an operation -/

/-- An update that neither looks at nor changes the interrupt path, its enables and the schedule. -/
structure IrqBlind (f : State → State) : Prop where
  commutes : ∀ s c p a ts, f { s with irqCount := c, irqPend := p, irqArmed := a, sched := ts } =
    { f s with irqCount := c, irqPend := p, irqArmed := a, sched := ts }
  enabled : ∀ s, irqEnabled (f s) = irqEnabled s

/-- Such an update commutes with the turns inside an operation. -/
theorem upToIrq_map {f : State → State} (hf : IrqBlind f) {s t : State} (h : UpToIrq s t) : UpToIrq (f s) (f t) := by
  obtain ⟨hmoved, hsched, heq⟩ := h
  have hs : f s = { f s with irqCount := s.irqCount, irqPend := s.irqPend, irqArmed := s.irqArmed, sched := s.sched } :=
    hf.commutes s s.irqCount s.irqPend s.irqArmed s.sched
  have ht := hf.commutes s t.irqCount t.irqPend t.irqArmed t.sched
  rw [← heq] at ht
  have hcount : (f s).irqCount = s.irqCount := by rw [hs]
  have hpend : (f s).irqPend = s.irqPend := by rw [hs]
  have harmed : (f s).irqArmed = s.irqArmed := by rw [hs]
  have hturns : (f s).sched = s.sched := by rw [hs]
  have hdeliver : deliverEnabled (f s) = deliverEnabled s := by simp only [deliverEnabled, hpend, harmed, hf.enabled]
  rw [ht]
  refine ⟨?_, by simpa only [hturns] using hsched, rfl⟩
  unfold IrqMoved at hmoved ⊢
  simpa only [hcount, hpend, harmed, hdeliver] using hmoved

/-- The turns inside an operation, as the values they leave in the interrupt path and the schedule. -/
theorem upToIrq_elim {s t : State} (h : UpToIrq s t) :
    ∃ c p a ts, t = { s with irqCount := c, irqPend := p, irqArmed := a, sched := ts } ∧ ts <:+ s.sched ∧
      ((c = s.irqCount ∧ p = s.irqPend ∧ a = s.irqArmed) ∨
        (deliverEnabled s = true ∧ c = s.irqCount + 1#32 ∧ p = false ∧ a = false)) :=
  ⟨t.irqCount, t.irqPend, t.irqArmed, t.sched, h.2.2, h.2.1, h.1⟩

/-- With nothing pending the turns only use up the schedule. -/
theorem upToIrq_elim_noPend {s t : State} (hpend : s.irqPend = false) (h : UpToIrq s t) :
    ∃ ts, t = { s with sched := ts } ∧ ts <:+ s.sched :=
  ⟨t.sched, upToIrq_of_not h (not_deliver_of_noPend hpend), h.2.1⟩

theorem irqBlind_eng (e : Eng) : IrqBlind (fun s => { s with eng := e }) := ⟨fun _ _ _ _ _ => rfl, fun _ => rfl⟩

theorem irqBlind_ctrl_eng (v : Word) (e : Eng) : IrqBlind (fun s => { s with ctrl := v, eng := e }) :=
  ⟨fun _ _ _ _ _ => rfl, fun _ => rfl⟩

theorem irqBlind_ctrl_ret (v : Word) (r : Ret) : IrqBlind (fun s => { s with ctrl := v, ret := r }) :=
  ⟨fun _ _ _ _ _ => rfl, fun _ => rfl⟩

theorem irqBlind_ret_draws (r : Ret) (n : Nat) : IrqBlind (fun s => { s with ret := r, draws := n }) :=
  ⟨fun _ _ _ _ _ => rfl, fun _ => rfl⟩

/-! ### The settle delay (41_host_primitives.md R150) -/

theorem delayGo_latched (ts : List Turn) {s : State} (h : latching s = false) : delayGo ts s = .next { s with sched := ts } := by
  cases ts with
  | nil => simp only [delayGo, h, Bool.false_eq_true, if_false]
  | cons t ts => simp only [delayGo, h, Bool.false_eq_true, if_false]

/-- A strobe that waits is latched when the delay is over, and nothing else but deliveries has happened. -/
theorem delayGo_latching (ts : List Turn) {s : State} {c : Cmd} (he : s.eng = .latching c) (hs : ts <:+ s.sched) :
    ∃ t, delayGo ts s = .next t ∧ UpToIrq { s with eng := busyOf c } t := by
  have hl := latching_of_eng he
  induction ts generalizing s with
  | nil =>
    refine ⟨{ s with eng := busyOf c, sched := [] }, ?_, upToIrq_sched _ hs⟩
    simp only [delayGo, hl, if_true, engineStep_latching he, andThen_of_next]
  | cons x ts ih =>
    have hs' : ts <:+ s.sched := (List.suffix_cons x ts).trans hs
    cases x with
    | host =>
      obtain ⟨t, ht, hu⟩ := ih he hs' hl
      exact ⟨t, by simpa only [delayGo, hl, if_true] using ht, hu⟩
    | timeout =>
      obtain ⟨t, ht, hu⟩ := ih he hs' hl
      exact ⟨t, by simpa only [delayGo, hl, if_true] using ht, hu⟩
    | irq =>
      have hirq : (irqStep s).eng = .latching c := by rw [irqStep_eng, he]
      obtain ⟨t, ht, hu⟩ := ih hirq (by rwa [irqStep_sched]) (latching_of_eng hirq)
      exact ⟨t, by simpa only [delayGo, hl, if_true] using ht,
        upToIrq_trans (upToIrq_map (irqBlind_eng (busyOf c)) (upToIrq_irqStep s)) hu⟩
    | engine =>
      have hlatched : latching { s with eng := busyOf c } = false := by cases c <;> rfl
      refine ⟨_, ?_, upToIrq_sched _ hs'⟩
      simp only [delayGo, hl, if_true, engineStep_latching he, andThen_of_next, delayGo_latched ts hlatched]

/-- Settles O39: without a strobe the delay is over at once; with one the engine's first turn ends it. -/
theorem settleDelay_spec : Obligations.SettleDelay := fun s =>
  ⟨fun h => delayGo_latched s.sched h, fun _ he => delayGo_latching s.sched he (List.suffix_refl _)⟩

/-! ### Open (42_protocol_wrapper.md R170) -/

/-- `t`'s interrupt path is `s`'s, or `s`'s after its one delivery, the enables left aside: open writes them between the turns. -/
def PathMoved (s t : State) : Prop :=
  (t.irqCount = s.irqCount ∧ t.irqPend = s.irqPend ∧ t.irqArmed = s.irqArmed) ∨
  (s.irqPend = true ∧ s.irqArmed = true ∧ t.irqCount = s.irqCount + 1#32 ∧ t.irqPend = false ∧ t.irqArmed = false)

theorem pathMoved_of_upToIrq {s t : State} (h : UpToIrq s t) : PathMoved s t := by
  rcases h.1 with hstay | ⟨hdeliver, hmoved⟩
  · exact .inl hstay
  · obtain ⟨hpend, -, -, harmed⟩ := (deliverEnabled_iff s).1 hdeliver
    exact .inr ⟨hpend, harmed, hmoved⟩

theorem PathMoved.trans {s t u : State} (h : PathMoved s t) (h' : PathMoved t u) : PathMoved s u := by
  rcases h with ⟨hcount, hpend, harmed⟩ | ⟨hp, ha, hcount, hpend, harmed⟩
  · unfold PathMoved at h' ⊢
    rwa [hcount, hpend, harmed] at h'
  · rcases h' with ⟨hcount', hpend', harmed'⟩ | ⟨hp', -⟩
    · exact .inr ⟨hp, ha, hcount'.trans hcount, hpend'.trans hpend, harmed'.trans harmed⟩
    · rw [hpend] at hp'
      cases hp'

theorem exec_openSession (s : State) : exec .openSession s = openOp s := rfl

/-- Settles O40: the two refusals of a mapping, then the three accesses, the engine taking no step between them. -/
theorem openSession : Obligations.OpenSession := by
  refine ⟨fun s hopen => if_pos hopen, fun s hclosed hfails => ?mapping, fun s hclosed hmaps hquiet => ?opened⟩
  case mapping =>
    rw [exec_openSession, openOp, if_neg (ne_true_of_eq_false hclosed), if_pos hfails]
    rfl
  case opened =>
    obtain ⟨t1, h1, u1⟩ := turn_quiet (s := { s with mapFails := s.mapFails.tail, chanSeen := s.irqCount }) hquiet
      (writeIer cfg.ierMask)
    have q1 := engineQuiet_of_upToIrq u1 hquiet
    obtain ⟨t2, h2, u2⟩ := turn_quiet (s := { t1 with ier := cfg.ierMask }) q1 (writeGie cfg.gieMask)
    have q2 := engineQuiet_of_upToIrq u2 q1
    obtain ⟨t3, h3, u3⟩ := turn_quiet (s := { t2 with gie := cfg.gieMask }) q2 armChannel
    have hmoved1 := pathMoved_of_upToIrq u1
    have hmoved2 := pathMoved_of_upToIrq u2
    have hmoved3 := pathMoved_of_upToIrq u3
    have hmoved : PathMoved s t3 := PathMoved.trans (t := t1) hmoved1 (PathMoved.trans (t := t2) hmoved2 hmoved3)
    have hrun : openOp s = .next { t3 with irqArmed := true, sess := openedSession t3.sess, ret := .done } := by
      rw [openOp, if_neg (ne_true_of_eq_false hclosed), if_neg (ne_true_of_eq_false hmaps)]
      simp only [runAll, h1, writeIer, andThen_of_next, h2, writeGie, h3, armChannel]
    refine ⟨_, hrun, ?_, ?_⟩
    · obtain ⟨c1, p1, a1, ts1, rfl, -⟩ := upToIrq_elim u1
      obtain ⟨c2, p2, a2, ts2, rfl, -⟩ := upToIrq_elim u2
      obtain ⟨c3, p3, a3, ts3, rfl, -⟩ := upToIrq_elim u3
      rfl
    · rcases hmoved with ⟨hcount, hpend, -⟩ | ⟨hp, ha, hcount, hpend, -⟩
      · exact .inl ⟨hcount, hpend⟩
      · exact .inr ⟨hp, ha, hcount, hpend⟩

/-! ### Slot writes and reads (42_protocol_wrapper.md R174, R175) -/

/-- Settles O43: the image of the number is stored, whatever turns fall between its words. -/
theorem writeSlotValue : Obligations.WriteSlotValue := by
  intro s S w v he
  obtain ⟨t, ht, hu⟩ := wrs_idle S w v he
  have hmem : t.mem = writeRun s.mem (slotBase S) (slotImageOf v w) := by rw [hu.2.2]
  refine ⟨t, ht, by rwa [hmem], ?_, ?_⟩
  · rw [hmem]
    exact slotHolds_image s.mem S w v
  · rw [hmem]
    exact onlySlot_image s.mem S (length_slotImageOf v w)

/-- The draws numbered from `n` on (00_scope.md R11). -/
def drawsFrom (n k : Nat) : List Word := (List.range k).map fun i => Config.drawWord (n + i)

theorem drawsFrom_succ (n k : Nat) : drawsFrom n (k + 1) = Config.drawWord n :: drawsFrom (n + 1) k := by
  simp only [drawsFrom, List.range_succ_eq_map, List.map_cons, List.map_map, Nat.add_zero]
  congr 2
  funext i
  simp only [Function.comp_apply, Nat.succ_eq_add_one]
  congr 1
  omega

/-- A run of reads while the engine runs and takes no step: every word is a draw (20_memory.md R66). -/
theorem readWords_busy (k a : Nat) (acc : List Word) {s : State} (he : s.eng ≠ .idle) (hq : Turn.engine ∉ s.sched) :
    ∃ t, readWords k a acc s = .next t ∧
      UpToIrq { s with ret := .value (acc ++ drawsFrom s.draws k), draws := s.draws + k } t := by
  induction k generalizing a acc s with
  | zero => exact ⟨_, rfl, by simpa [drawsFrom] using upToIrq_refl _⟩
  | succ k ih =>
    obtain ⟨t, ht, hu⟩ := turn_quiet (.inr hq) (readData a)
    have het : t.eng ≠ .idle := by rwa [upToIrq_eng hu]
    have hdraws : t.draws = s.draws := by rw [hu.2.2]
    rw [readData_busy a het] at ht
    obtain ⟨u, hrest, hu'⟩ := ih (a + cfg.stride) (acc ++ [Config.drawWord t.draws])
      (s := { t with ret := .word (Config.drawWord t.draws), draws := t.draws + 1 }) het (fun hx => hq (hu.2.1.subset hx))
    refine ⟨u, by simp only [readWords, ht, andThen_of_next, retWord, hrest], ?_⟩
    have hmap := upToIrq_map (irqBlind_ret_draws (.value (acc ++ drawsFrom s.draws (k + 1))) (s.draws + (k + 1))) hu
    rw [hdraws, List.append_assoc, List.singleton_append, ← drawsFrom_succ, Nat.add_assoc, Nat.add_comm 1 k] at hu'
    exact upToIrq_trans hmap hu'

/-- Settles O44: a read of the region the engine leaves alone, or of as many draws. -/
theorem readSlotValue : Obligations.ReadSlotValue :=
  ⟨fun _ S w _ he hv => rds_idle S w he hv, fun _ S w he hq => readWords_busy (cntOf w) (readBase S w) [] he hq⟩

/-! ### A launch call (42_protocol_wrapper.md R180 to R182) -/

/-- A launch word of command `c`: START is 1 and the fields spell `c` (30_encoding.md R93). -/
structure LaunchWord (v : Word) (c : Cmd) : Prop where
  start : fieldStart v = true
  spells : decodeCmd v = some c

theorem launchWord_single (old : Word) (w : Width) (d l r : Sel) : LaunchWord (singleWord1 old w d l r) (.mmul w d l r) :=
  ⟨fieldStart_cmdWord .., decodeCmd_single ..⟩

theorem launchWord_auto (old : Word) (w : Width) : LaunchWord (autoWord1 old w) (.auto w) :=
  ⟨fieldStart_cmdWord .., decodeCmd_auto ..⟩

/-- The second word over the first, the strobe no longer waiting: CTRL alone changes (40_engine_ops.md R113). -/
theorem writeCtrl_word2 {s : State} (hstart : fieldStart s.ctrl = true) (hl : latching s = false) :
    writeCtrl (word2 s.ctrl) s = .next { s with ctrl := word2 s.ctrl } := by
  by_cases he : s.eng = .idle
  · exact writeCtrl_idle he (.inl hstart)
  · exact writeCtrl_same he (.inr ⟨fieldStart_word2 _, hl⟩) (sameFields_of_masked (word2_only_start _))

/-- A launch call up to the end of its settle delay: `word1` is written and the engine has latched the command. -/
theorem strobe_latched {s : State} {g : Word → Word} {c : Cmd} (he : s.eng = .idle) (h0 : fieldStart s.ctrl = false)
    (hw : LaunchWord (g s.ctrl) c) :
    ∃ t, UpToIrq { s with ctrl := g s.ctrl, eng := busyOf c, ret := .word s.ctrl } t ∧
      strobe g s = runAll [turn (writeCtrl (word2 (g s.ctrl))), returnDone] t := by
  obtain ⟨t0, h0', u0⟩ := turn_idle he (fun s0 => andThen (readCtrl s0) (runAll
    [turn (writeCtrl (g s0.ctrl)), settleDelay, turn (writeCtrl (word2 (g s0.ctrl))), returnDone]))
  have hctrl0 : t0.ctrl = s.ctrl := by rw [u0.2.2]
  have he0 : t0.eng = .idle := (upToIrq_eng u0).trans he
  obtain ⟨t1, h1, u1⟩ := turn_idle (s := { t0 with ret := .word t0.ctrl }) he0 (writeCtrl (g t0.ctrl))
  have hctrl1 : t1.ctrl = t0.ctrl := by rw [u1.2.2]
  have he1 : t1.eng = .idle := (upToIrq_eng u1).trans he0
  rw [writeCtrl_launch he1 (by rw [hctrl1, hctrl0, h0]) (by rw [hctrl0]; exact hw.start) (by rw [hctrl0]; exact hw.spells)] at h1
  obtain ⟨t2, h2, u2⟩ := delayGo_latching t1.sched (s := { t1 with ctrl := g t0.ctrl, eng := .latching c }) rfl
    (List.suffix_refl _)
  refine ⟨t2, ?_, ?_⟩
  · have m0 := upToIrq_map (f := fun x => { x with ctrl := g s.ctrl, eng := busyOf c, ret := .word s.ctrl })
      ⟨fun _ _ _ _ _ => rfl, fun _ => rfl⟩ u0
    have m1 := upToIrq_map (irqBlind_ctrl_eng (g s.ctrl) (busyOf c)) u1
    rw [hctrl0] at m1 u2
    exact upToIrq_trans m0 (upToIrq_trans m1 u2)
  · rw [strobe, h0']
    simp only [readCtrl, andThen_of_next]
    rw [runAll, h1, andThen_of_next, runAll, settleDelay, h2, andThen_of_next, hctrl0]

theorem latching_busyOf {s : State} {c : Cmd} (h : s.eng = busyOf c) : latching s = false := by
  cases c <;> simp only [latching, h, busyOf]

/-- The end of a launch call, from a state the other agents' turns have left before its last write. -/
theorem strobe_end {t u : State} {v : Word} (hturn : agents t = .next u) (hctrl : u.ctrl = v) (hstart : fieldStart v = true)
    (hl : latching u = false) :
    runAll [turn (writeCtrl (word2 v)), returnDone] t = .next { u with ctrl := word2 v, ret := .done } := by
  subst hctrl
  simp only [runAll, turn, hturn, andThen_of_next, writeCtrl_word2 hstart hl, returnDone]

/-- A launch call into which no step of the engine falls but the latch (42_protocol_wrapper.md R180). -/
theorem strobe_quiet {s : State} {g : Word → Word} {c : Cmd} (he : s.eng = .idle) (h0 : fieldStart s.ctrl = false)
    (hq : Turn.engine ∉ s.sched) (hw : LaunchWord (g s.ctrl) c) :
    ∃ t, strobe g s = .next t ∧ UpToIrq { s with ctrl := word2 (g s.ctrl), eng := busyOf c, ret := .done } t := by
  obtain ⟨t, ut, hrun⟩ := strobe_latched he h0 hw
  obtain ⟨u, hu, uu⟩ := agentsGo_quiet t.sched (s := t) (.inr fun hx => hq (ut.2.1.subset hx)) (List.suffix_refl _)
  have htu := upToIrq_trans ut uu
  have hctrl : u.ctrl = g s.ctrl := by rw [htu.2.2]
  refine ⟨_, hrun.trans (strobe_end hu hctrl hw.start (latching_busyOf (upToIrq_eng htu))), ?_⟩
  exact upToIrq_map (irqBlind_ctrl_ret (word2 (g s.ctrl)) .done) htu

/-- Settles O45: both calls are a strobe with the launch word of their command. -/
theorem startCalls : Obligations.StartCalls := fun s he h0 hq =>
  ⟨fun w d l r => strobe_quiet (g := fun old => singleWord1 old w d l r) he h0 hq (launchWord_single s.ctrl w d l r),
    fun w => strobe_quiet (g := fun old => autoWord1 old w) he h0 hq (launchWord_auto s.ctrl w)⟩

/-- The engine's step does not look at CTRL, at what the host was given, or at the schedule. -/
theorem engineStep_with {s t : State} (v : Word) (r : Ret) (ts : List Turn) (h : engineStep s = .next t) :
    engineStep { s with ctrl := v, ret := r, sched := ts } = .next { t with ctrl := v, ret := r, sched := ts } := by
  obtain ⟨he, rfl⟩ | ⟨c, he, rfl⟩ | ⟨w, d, l, r', he, hc⟩ | ⟨w, he, hc⟩ := engineStep_next h
  · exact engineStep_idle (s := { t with ctrl := v, ret := r, sched := ts }) he
  · exact engineStep_latching (s := { s with ctrl := v, ret := r, sched := ts }) he
  · obtain ⟨m, a, b, hd, rfl⟩ := completeMmul_next hc
    rw [engineStep_busyMmul (s := { s with ctrl := v, ret := r, sched := ts }) he]
    exact completeMmul_of_domain hd
  · obtain ⟨m, A, x, hm, hf, hA, hodd, hlt, hloop, rfl⟩ := completeAuto_next hc
    have hcompletes := completeAuto_of_loop (s := { s with ctrl := v, ret := r, sched := ts }) hm hf hA hodd hlt
    rw [engineStep_busyAuto (s := { s with ctrl := v, ret := r, sched := ts }) he, hcompletes, hloop, andThen_of_next]
    rfl

/-- A running operation's step is its completion: the engine is idle after it (40_engine_ops.md R114, R120). -/
theorem eng_of_completed {s t : State} {c : Cmd} (he : s.eng = busyOf c) (h : engineStep s = .next t) : t.eng = .idle := by
  obtain ⟨hidle, rfl⟩ | ⟨c', hl, rfl⟩ | ⟨w, d, l, r, -, hc⟩ | ⟨w, -, hc⟩ := engineStep_next h
  · exact hidle
  · rw [he] at hl
    cases c <;> cases hl
  · obtain ⟨m, a, b, -, rfl⟩ := completeMmul_next hc
    rfl
  · obtain ⟨m, A, v, -, -, -, -, -, -, rfl⟩ := completeAuto_next hc
    rfl

/-- `t` is `s`, or `s` after its operation's completion, but for what the IRQ's turns do. -/
def UpToCompletion (s t : State) : Prop := UpToIrq s t ∨ ∃ s', engineStep s = .next s' ∧ UpToIrq s' t

/-- The turns before an access, an operation running and nothing pending: it runs on or has completed. -/
theorem agentsGo_running (ts : List Turn) {s t : State} {c : Cmd} (he : s.eng = busyOf c) (hp : s.irqPend = false)
    (hs : ts <:+ s.sched) (h : agentsGo ts s = .next t) : UpToCompletion s t := by
  induction ts with
  | nil =>
    injection h with h
    exact .inl (h ▸ upToIrq_sched s hs)
  | cons x ts ih =>
    have hs' : ts <:+ s.sched := (List.suffix_cons x ts).trans hs
    cases x with
    | host =>
      injection h with h
      exact .inl (h ▸ upToIrq_sched s hs')
    | timeout => exact ih hs' h
    | irq =>
      rw [agentsGo, irqStep_of_not s (not_deliver_of_noPend hp)] at h
      exact ih hs' h
    | engine =>
      obtain ⟨s', hstep, hrest⟩ := andThen_next.1 h
      have hsched : s'.sched = s.sched := by rw [engineStep_frame hstep]
      obtain ⟨t', ht', hu⟩ := agentsGo_idle ts (eng_of_completed he hstep) (by rwa [hsched])
      rw [hrest] at ht'
      injection ht' with ht'
      exact .inr ⟨s', hstep, ht' ▸ hu⟩

/-- A launch call that ends normally, with nothing pending before: the operation runs, or has completed already
(42_protocol_wrapper.md R182). -/
theorem strobe_oneAction {s t : State} {g : Word → Word} {c : Cmd} (he : s.eng = .idle) (h0 : fieldStart s.ctrl = false)
    (hp : s.irqPend = false) (hw : LaunchWord (g s.ctrl) c) (h : strobe g s = .next t) :
    UpToCompletion { s with ctrl := word2 (g s.ctrl), eng := busyOf c, ret := .done } t := by
  obtain ⟨b, ub, hrun⟩ := strobe_latched he h0 hw
  have hturns := upToIrq_of_not ub (not_deliver_of_noPend hp)
  have hpb : b.irqPend = false := by rw [hturns]; exact hp
  rw [hrun] at h
  obtain ⟨a, hturn, -⟩ := andThen_next.1 h
  obtain ⟨u, hagents, -⟩ := andThen_next.1 hturn
  have hblind := irqBlind_ctrl_ret (word2 (g s.ctrl)) .done
  have hctrlb : b.ctrl = g s.ctrl := by rw [hturns]
  rcases agentsGo_running b.sched (upToIrq_eng ub) hpb (List.suffix_refl _) hagents with hu | ⟨b', hstep, hu⟩
  · have hctrl : u.ctrl = g s.ctrl := by rw [hu.2.2, hctrlb]
    rw [strobe_end hagents hctrl hw.start (latching_busyOf ((upToIrq_eng hu).trans (upToIrq_eng ub)))] at h
    injection h with h
    exact .inl (h ▸ upToIrq_trans (upToIrq_map hblind ub) (upToIrq_map hblind hu))
  · have hframe := engineStep_frame hstep
    have hctrl : u.ctrl = g s.ctrl := by rw [hu.2.2, hframe, hctrlb]
    have hidle : u.eng = .idle := (upToIrq_eng hu).trans (eng_of_completed (upToIrq_eng ub) hstep)
    rw [strobe_end hagents hctrl hw.start (by simp only [latching, hidle])] at h
    injection h with h
    have hstep' := engineStep_with (word2 (g s.ctrl)) .done s.sched hstep
    have hbase : ({ b with ctrl := word2 (g s.ctrl), ret := .done, sched := s.sched } : State) =
        { s with ctrl := word2 (g s.ctrl), eng := busyOf c, ret := .done } := by rw [hturns]
    rw [hbase] at hstep'
    have hsched : b'.sched <:+ s.sched := by
      rw [hframe]
      exact ub.2.1
    have hfirst := upToIrq_sched { b' with ctrl := word2 (g s.ctrl), ret := .done, sched := s.sched } hsched
    exact .inr ⟨_, hstep', h ▸ upToIrq_trans hfirst (upToIrq_map hblind hu)⟩

/-- Settles O46: both calls are a strobe with the launch word of their command. -/
theorem strobeIsOneAction : Obligations.StrobeIsOneAction := fun s he h0 hp =>
  ⟨fun w d l r _ h => ⟨_, rfl,
      strobe_oneAction (g := fun old => singleWord1 old w d l r) he h0 hp (launchWord_single s.ctrl w d l r) h⟩,
    fun w _ h => ⟨_, rfl, strobe_oneAction (g := fun old => autoWord1 old w) he h0 hp (launchWord_auto s.ctrl w) h⟩⟩

/-! ### A wait (42_protocol_wrapper.md R190; 60_exceptions.md R238, R239) -/

/-- The end of a wait into which no step of the engine falls: a request deliverable before may be delivered before the
re-arming. -/
theorem endWait_quiet (o : Option Word) {s : State} (hq : EngineQuiet s) :
    ∃ c p ts, endWait o s = .next { s with
        irqCount := c, irqPend := p, irqArmed := true, sess := { s.sess with lastCount := o.getD s.sess.lastCount },
        ret := .done, sched := ts } ∧
      ((c = s.irqCount ∧ p = s.irqPend) ∨ (deliverEnabled s = true ∧ c = s.irqCount + 1#32 ∧ p = false)) := by
  obtain ⟨t, ht, hu⟩ := turn_quiet hq armChannel
  obtain ⟨c, p, a, ts, rfl, -, hmoved⟩ := upToIrq_elim hu
  refine ⟨c, p, ts, by rw [endWait, ht]; rfl, ?_⟩
  rcases hmoved with ⟨hcount, hpend, -⟩ | ⟨hd, hcount, hpend, -⟩
  · exact .inl ⟨hcount, hpend⟩
  · exact .inr ⟨hd, hcount, hpend⟩

/-- One round of the wait's loop, by what the channel read gave. -/
theorem waitLoop_none {s t : State} (k : Nat) (o : Option Word) (hread : readChannel s = .next t) (hret : t.ret = .count none) :
    waitLoop (k + 1) o s = endWait o (timedOut t) := by
  simp only [waitLoop, hread, andThen_of_next, retCount, hret]

theorem waitLoop_above {s t : State} {c : Word} (k : Nat) (o : Option Word) (hread : readChannel s = .next t)
    (hret : t.ret = .count (some c)) (hlt : t.sess.lastCount < c) : waitLoop (k + 1) o s = endWait (some c) t := by
  simp only [waitLoop, hread, andThen_of_next, retCount, hret, hlt, if_true]

theorem waitLoop_notAbove {s t : State} {c : Word} (k : Nat) (o : Option Word) (hread : readChannel s = .next t)
    (hret : t.ret = .count (some c)) (hle : ¬ t.sess.lastCount < c) : waitLoop (k + 1) o s = waitLoop k (some c) t := by
  simp only [waitLoop, hread, andThen_of_next, retCount, hret, hle, if_false]

/-- Settles O47: the first read gives the new count, which ends the loop. -/
theorem waitTakesCount : Obligations.WaitTakesCount := by
  intro s hq hnew hlast
  have hread := readChannel_of_new ((countNew_iff s).2 hnew)
  obtain ⟨c, p, ts, hend, hmoved⟩ := endWait_quiet (some s.irqCount) (s := takeCount s) hq
  exact ⟨_, (waitLoop_above 2 none hread rfl hlast).trans hend, rfl, hmoved⟩

/-- The channel read where no count is new, the engine idle and no delivery enabled, gives none, for every schedule. -/
theorem cntGo_none (ts : List Turn) {s : State} (he : s.eng = .idle) (hseen : s.irqCount = s.chanSeen)
    (hd : deliverEnabled s = false) : ∃ ts', cntGo ts s = .next { s with sched := ts', ret := .count none } := by
  have hnew := countNew_eq_false hseen
  induction ts with
  | nil => exact ⟨[], cntGo_nil_none he hseen hd⟩
  | cons x ts ih =>
    cases x with
    | host => rwa [cntGo_host ts hnew]
    | timeout => exact ⟨ts, cntGo_timeout ts hnew⟩
    | irq => rwa [cntGo_irq ts hnew, irqStep_of_not s hd]
    | engine => rwa [cntGo_engine_idle ts hnew he]

/-- The channel read that takes the one enabled delivery, the engine idle and no deadline on the schedule. -/
theorem cntGo_delivered (ts : List Turn) {s : State} (he : s.eng = .idle) (hseen : s.irqCount = s.chanSeen)
    (hd : deliverEnabled s = true) (hn : Turn.timeout ∉ ts) :
    ∃ ts', cntGo ts s = .next (takeCount { s with
      irqCount := s.irqCount + 1#32, irqPend := false, irqArmed := false, sched := ts' }) := by
  have hnew := countNew_eq_false hseen
  induction ts with
  | nil => exact ⟨[], by rw [cntGo_nil_enabled he hseen hd, irqStep_of_enabled { s with sched := [] } hd]⟩
  | cons x ts ih =>
    have hn' : Turn.timeout ∉ ts := fun hx => hn (List.mem_cons_of_mem _ hx)
    cases x with
    | host => rw [cntGo_host ts hnew]; exact ih hn'
    | timeout => exact absurd List.mem_cons_self hn
    | irq => exact ⟨ts, by rw [cntGo_irq ts hnew, cntGo_of_new ts (countNew_irqStep hseen hd), irqStep_of_enabled s hd]⟩
    | engine => rw [cntGo_engine_idle ts hnew he]; exact ih hn'

theorem readChannel_none {s : State} (he : s.eng = .idle) (hseen : s.irqCount = s.chanSeen) (hd : deliverEnabled s = false) :
    ∃ ts, readChannel s = .next { s with sched := ts, ret := .count none } := cntGo_none s.sched he hseen hd

/-- Settles O48: the first read gives none, and the end of the wait may see a delivery before it re-arms. -/
theorem waitTimesOut : Obligations.WaitTimesOut := by
  intro s hseen hcase
  obtain ⟨ts, hread, hq⟩ : ∃ ts, readChannel s = .next { s with sched := ts, ret := .count none } ∧
      (s.eng = .idle ∨ Turn.engine ∉ ts) := by
    rcases hcase with ⟨he, hd⟩ | ⟨ts, hsched, hq⟩
    · obtain ⟨ts, hread⟩ := readChannel_none he hseen hd
      exact ⟨ts, hread, .inl he⟩
    · exact ⟨ts, by rw [readChannel, hsched, cntGo_timeout ts (countNew_eq_false hseen)], hq⟩
  obtain ⟨c, p, ts', hend, hmoved⟩ := endWait_quiet none (s := timedOut { s with sched := ts, ret := .count none }) hq
  exact ⟨_, (waitLoop_none 2 none hread rfl).trans hend, rfl, hmoved⟩

/-- Settles O49: the delivered count is 0 and not above the last one, so the loop reads on and the second read gives none. -/
theorem waitAtWrap : Obligations.WaitAtWrap := by
  intro s he hcount hseen hlast hd hn
  obtain ⟨ts1, hread1⟩ := cntGo_delivered s.sched he (hcount.trans hseen.symm) hd hn
  have hwrap : s.irqCount + 1#32 = 0#32 := by rw [hcount]; rfl
  rw [hwrap] at hread1
  obtain ⟨ts2, hread2⟩ := readChannel_none he rfl rfl
    (s := takeCount { s with irqCount := 0#32, irqPend := false, irqArmed := false, sched := ts1 })
  have hnotAbove : ¬ s.sess.lastCount < 0#32 := by rw [hlast]; decide
  obtain ⟨c, p, ts3, hend, hmoved⟩ := endWait_quiet (some 0#32) (s := timedOut { s with
    irqCount := 0#32, irqPend := false, irqArmed := false, chanSeen := 0#32, sched := ts2, ret := .count none }) (.inl he)
  have hrun : waitOp s = _ :=
    (waitLoop_notAbove 2 none hread1 rfl hnotAbove).trans ((waitLoop_none 1 (some 0#32) hread2 rfl).trans hend)
  rcases hmoved with ⟨rfl, rfl⟩ | ⟨hd', -⟩
  · exact ⟨_, hrun, rfl⟩
  · cases hd'

/-! ### updateModulus (42_protocol_wrapper.md R196) -/

theorem exec_updmod (m n : Nat) (s : State) : exec (.updmod m n) s = updateModulus m n s := rfl

theorem widthOfBits_none {n : Nat} (h512 : n ≠ 512) (h1024 : n ≠ 1024) (h1536 : n ≠ 1536) : widthOfBits n = none := by
  simp [widthOfBits, h512, h1024, h1536]

theorem raise_unsupportedWidth (s : State) :
    raise .unsupportedWidth s = .next { s with ret := .error .unsupportedWidth, log := s.log ++ [.unsupportedWidth] } := rfl

theorem take_r2Words (m n : Nat) (w : Width) : (r2Words m n w).take (cntOf w) = wordsOf (cntOf w) (r2Of m n) :=
  List.take_left' (length_wordsOf _ _)

theorem r2Of_lt {m : Nat} (n : Nat) (hpos : 0 < m) : r2Of m n < m := by
  rw [r2Of_of_pos n hpos]
  exact Nat.mod_lt _ hpos

/-- The cached words stand for R² where the modulus fits its width (43_algorithms.md R211). -/
theorem valueOf_take_r2Words {m : Nat} {w : Width} (hpos : 0 < m) (hlt : m < 2 ^ bitsOf w) :
    valueOf ((r2Words m (bitsOf w) w).take (cntOf w)) = r2Of m (bitsOf w) := by
  rw [take_r2Words, valueOf_wordsOf, ← bitsOf_eq, Nat.mod_eq_of_lt ((r2Of_lt _ hpos).trans hlt)]

/-- Settles O53: the width's check, else the session's update and a slot write. -/
theorem updateModulus_spec : Obligations.UpdateModulus := by
  refine ⟨fun s m n h512 h1024 h1536 => ?unsupported, fun s w m he => ?updated⟩
  case unsupported =>
    simp only [exec_updmod, updateModulus, widthOfBits_none h512 h1024 h1536, raise_unsupportedWidth]
  case updated =>
    obtain ⟨t, ht, hu⟩ := wrs_idle .mod w m (s := setModulus m (bitsOf w) w s) he
    have hmem : t.mem = writeRun s.mem (slotBase .mod) (slotImageOf m w) := by rw [hu.2.2]; rfl
    have hr2 : t.sess.r2 = r2Words m (bitsOf w) w := by rw [hu.2.2]; rfl
    have hwords : bitsOf w / 32 = cntOf w := by simp
    have hrun : exec (.updmod m (bitsOf w)) s = .next t := by
      simp only [exec_updmod, updateModulus, widthOfBits_bitsOf, ht]
    refine ⟨t, hrun, ?_, ?_, ?_, ?_, fun hpos hlt => ?_, fun i hi hi' => ?_⟩
    · rw [hmem, hr2, ← hwords]
      exact hu
    · rw [hmem]
      exact slotHolds_image s.mem .mod w m
    · rw [hmem]
      exact onlySlot_image s.mem .mod (length_slotImageOf m w)
    · rw [hr2, length_r2Words]
    · rw [hr2, valueOf_take_r2Words hpos hlt, r2Of_of_pos _ hpos]
    · rw [hr2, r2Words, List.getElem?_append_right (by simpa using hi), length_wordsOf, List.getElem?_replicate,
        if_pos (by simp only [slotWords_eq]; omega)]

end Sys2Proof.Machine
end

section
/-! The rounds and the algorithms (42_protocol_wrapper.md R191; 43_algorithms.md R210 to R218; 60_exceptions.md R241). Every
algorithm is a chain of slot writes, rounds, pushes and one read, run from READY; along the chain it is tracked what each of
the five slots holds, and each operation changes the entry of the one slot it writes. -/

namespace Sys2Proof.Machine

/-! ### A round of a single operation (42_protocol_wrapper.md R191) -/

theorem endWait_ret {o : Option Word} {s t : State} (h : endWait o s = .next t) : t.ret = .done := by
  obtain ⟨u, -, hu⟩ := andThen_next.1 h
  injection hu with hu
  rw [← hu]

/-- A wait always returns normally to its caller (42_protocol_wrapper.md R190). -/
theorem waitLoop_ret {k : Nat} {o : Option Word} {s t : State} (h : waitLoop k o s = .next t) : t.ret = .done := by
  induction k generalizing o s with
  | zero => exact endWait_ret h
  | succ k ih =>
    obtain ⟨u, -, hu⟩ := andThen_next.1 h
    split at hu
    · exact endWait_ret hu
    · split at hu
      · exact endWait_ret hu
      · exact ih hu

/-- A READY state after `k` operations, field by field, where the FIFO is as before. -/
theorem Stays.eq_with {s t : State} {k : Nat} {v : Word} (h : Stays s k t) (hk : k ≠ 0) (hfifo : t.fifo = s.fifo)
    (hctrl : t.ctrl = v) :
    t = { s with mem := t.mem, ctrl := v, irqCount := s.irqCount + BitVec.ofNat 32 k,
                 chanSeen := s.irqCount + BitVec.ofNat 32 k,
                 sess := { s.sess with lastCount := s.irqCount + BitVec.ofNat 32 k }, ret := t.ret, sched := t.sched } := by
  have hlast : t.sess.lastCount = t.irqCount := by rw [h.last, if_neg hk]
  refine h.rest.trans ?_
  rw [hlast, hfifo, hctrl, h.count]

/-- Settles O50: a round from READY, taken apart into its launch call and its wait. -/
theorem roundCompletes : Obligations.RoundCompletes := by
  intro s w d l r m a b hready hn hroom hdom
  obtain ⟨u, hrun, hstays, hmem, hfifo, hctrl⟩ := singleRound_ready (d := d) hready hn hroom hdom
  obtain ⟨t, hstart, hrest⟩ := andThen_next.1 hrun
  obtain ⟨u', hwait, hu'⟩ := andThen_next.1 hrest
  injection hu' with hu'
  subst hu'
  refine ⟨t, u', hstart, hwait, hstays.ready, ?_, ?_, ?_⟩
  · have heq := hstays.eq_with (by decide) hfifo hctrl
    rwa [waitLoop_ret hwait] at heq
  · rw [hmem]
    exact slotResult_storeResult s.mem (.op d) w (montMul_lt_of_domain hdom)
  · rw [hmem]
    exact onlySlot_storeResult s.mem (.op d) w _

/-! ### What a slot holds, and what an operation on another slot leaves of it -/

/-- What is known of a slot at the width of the algorithm: nothing, the number of its region, or also its other words, as the
codec or as an operation leaves them. -/
inductive Content where
  | unknown
  | value (v : Nat)
  | holds (v : Nat)
  | result (v : Nat)

/-- The number of the slot's region, where it is known. -/
def Content.number : Content → Option Nat
  | .unknown => none
  | .value v => some v
  | .holds v => some v
  | .result v => some v

/-- The slot holds what is said of it. -/
def Content.At (mem : Memory) (w : Width) (S : Slot) : Content → Prop
  | .unknown => True
  | .value v => regionVal mem S w = some v
  | .holds v => SlotHolds mem S w v
  | .result v => SlotResult mem S w v

theorem Content.At.regionVal {mem : Memory} {w : Width} {S : Slot} {c : Content} {v : Nat} (h : c.At mem w S)
    (hv : c.number = some v) : regionVal mem S w = some v := by
  cases c with
  | unknown => cases hv
  | value u => exact h.trans hv
  | holds u => exact h.1.trans hv
  | result u => exact h.1.trans hv

section
variable {mem mem' : Memory} {w : Width} {S T : Slot}

/-- Every word of another slot is as before (20_memory.md R55: the slots lie apart). -/
theorem slotWord_of_onlySlot (h : OnlySlot S mem mem') (hne : T ≠ S) {i : Nat} (hi : i < 48) :
    slotWord mem' T i = slotWord mem T i := by
  have hapart := slotBase_apart hne
  have hbyte (j : Nat) (hj : j < 4) : getByte mem' (wordAddr T i + j) = getByte mem (wordAddr T i + j) := by
    refine h _ ?_
    simp only [OutsideSlot, wordAddr, slotWords_eq, cfg_stride]
    omega
  have h0 := hbyte 0 (by decide)
  rw [Nat.add_zero] at h0
  rw [slotWord, slotWord, getWord, getWord, h0, hbyte 1 (by decide), hbyte 2 (by decide), hbyte 3 (by decide)]

theorem Content.At.of_words {c : Content} (h : c.At mem w S)
    (hsame : ∀ i, i < 48 → slotWord mem' S i = slotWord mem S i) : c.At mem' w S := by
  have hregion := loOf_add_cntOf w
  have hval : Machine.regionVal mem' S w = Machine.regionVal mem S w := regionVal_congr fun i _ hi => hsame i (by omega)
  cases c with
  | unknown => trivial
  | value v => exact hval.trans h
  | holds v => exact ⟨hval.trans h.1, fun i hi => (hsame i hi.1).trans (h.2 i hi)⟩
  | result v => exact ⟨hval.trans h.1, fun i hi => (hsame i hi.1).trans (h.2 i hi)⟩

theorem OnlyOperands.trans_onlySlot {m0 : Memory} {k : Sel} (h : OnlyOperands m0 mem) (h' : OnlySlot (.op k) mem mem') :
    OnlyOperands m0 mem' := fun a ha => (h' a (ha k)).trans (h a ha)

end

/-- The five slots, the modulus first. -/
def slots (c c0 c1 c2 c3 : Content) : Slot → Content
  | .mod => c
  | .op k => if k = 0#2 then c0 else if k = 1#2 then c1 else if k = 2#2 then c2 else c3

/-- One slot's entry replaced. -/
def put (f : Slot → Content) (S : Slot) (c : Content) : Slot → Content := fun T => if T = S then c else f T

theorem eq_slots (f : Slot → Content) : f = slots (f .mod) (f (.op 0#2)) (f (.op 1#2)) (f (.op 2#2)) (f (.op 3#2)) := by
  funext S
  cases S with
  | mod => rfl
  | op k =>
    obtain rfl | rfl | rfl | rfl := sel_cases k
    all_goals rfl

/-! ### The chain of an algorithm's operations, tracked -/

/-- Where a chain of operations run from READY `s0` stands: `k` rounds are over, the FIFO holds `q`, the slots hold what `f`
says, and every byte outside the operand slots is as in `m0`, the storage the algorithm found. -/
structure Track (s0 : State) (m0 : Memory) (w : Width) (k : Nat) (f : Slot → Content) (q : List Word) (s : State) : Prop where
  stays : Stays s0 k s
  only : OnlyOperands m0 s.mem
  content : ∀ S, (f S).At s.mem w S
  fifo : s.fifo = q

section
variable {s0 s : State} {m0 : Memory} {w : Width} {k m : Nat} {f : Slot → Content} {q : List Word}

theorem Track.eq_slots (h : Track s0 m0 w k f q s) :
    Track s0 m0 w k (slots (f .mod) (f (.op 0#2)) (f (.op 1#2)) (f (.op 2#2)) (f (.op 3#2))) q s := by
  rwa [← Machine.eq_slots f]

/-- An operation that writes one operand slot replaces that slot's entry. -/
theorem Track.write {t : State} {j : Nat} {d : Sel} {c : Content} {q' : List Word} (h : Track s0 m0 w k f q s)
    (hstays : Stays s j t) (hslot : OnlySlot (.op d) s.mem t.mem) (hc : c.At t.mem w (.op d)) (hq : t.fifo = q') :
    Track s0 m0 w (k + j) (put f (.op d) c) q' t where
  stays := h.stays.trans hstays
  only := h.only.trans_onlySlot hslot
  content S := by
    by_cases hS : S = .op d
    · rw [put, if_pos hS, hS]
      exact hc
    · rw [put, if_neg hS]
      exact (h.content S).of_words fun i hi => slotWord_of_onlySlot hslot hS hi
  fifo := hq

/-- An operation that writes no slot leaves every entry. -/
theorem Track.leave {t : State} {q' : List Word} (h : Track s0 m0 w k f q s) (hstays : Stays s 0 t) (hmem : t.mem = s.mem)
    (hq : t.fifo = q') : Track s0 m0 w k f q' t where
  stays := h.stays.trans hstays
  only := by rw [hmem]; exact h.only
  content S := by rw [hmem]; exact h.content S
  fifo := hq

/-- The count of a chain has room for the rounds it has still to make. -/
theorem Track.room (h : Track s0 m0 w k f q s) (hroom : s0.irqCount.toNat + k + 1 < 2 ^ 32) :
    s.irqCount.toNat + 1 < 2 ^ 32 := by
  rw [h.stays.count, BitVec.toNat_add, BitVec.toNat_ofNat]
  omega

/-- WRS in a chain (42_protocol_wrapper.md R174). -/
theorem Track.wrs (h : Track s0 m0 w k f q s) (d : Sel) {v : Nat} (hv : v < 2 ^ bitsOf w) :
    ∃ t, wrs (.op d) w v s = .next t ∧ Track s0 m0 w k (put f (.op d) (.holds v)) q t := by
  obtain ⟨t, ht, hstays, hmem, hfifo, -⟩ := wrs_ready (.op d) w v h.stays.ready h.stays.noTimeout
  refine ⟨t, ht, h.write hstays ?_ ?_ (hfifo.trans h.fifo)⟩
  · rw [hmem]
    exact onlySlot_image s.mem (.op d) (length_slotImageOf v w)
  · rw [hmem]
    exact slotHolds_image_of_lt s.mem (.op d) w hv

/-- The second launch word of a chain's round has the reserved bits CTRL had at its start (30_encoding.md R93). -/
theorem Track.singleWord1_eq (h : Track s0 m0 w k f q s) (d l r : Sel) :
    singleWord1 s.ctrl w d l r = singleWord1 s0.ctrl w d l r := cmdWord_congr h.stays.kept _ _ _ _ _ _

/-- A single operation's round in a chain (40_engine_ops.md R114; 42_protocol_wrapper.md R191). -/
theorem Track.round (h : Track s0 m0 w k f q s) {d l r : Sel} {a b v : Nat} (hroom : s0.irqCount.toNat + k + 1 < 2 ^ 32)
    (hm : (f .mod).number = some m) (hodd : m % 2 = 1) (ha : (f (.op l)).number = some a) (halt : a < m)
    (hb : (f (.op r)).number = some b) (hblt : b < m) (hv : montMul a b m (bitsOf w) = v) :
    ∃ t, singleRound w d l r s = .next t ∧ Track s0 m0 w (k + 1) (put f (.op d) (.result v)) q t ∧
      t.ctrl = word2 (singleWord1 s0.ctrl w d l r) := by
  subst hv
  have hdom : MmulDomain s w l r m a b :=
    ⟨(h.content _).regionVal hm, (h.content _).regionVal ha, (h.content _).regionVal hb, hodd, halt, hblt⟩
  obtain ⟨t, ht, hstays, hmem, hfifo, hctrl⟩ := singleRound_ready (d := d) h.stays.ready h.stays.noTimeout (h.room hroom) hdom
  refine ⟨t, ht, h.write hstays ?_ ?_ (hfifo.trans h.fifo), by rw [hctrl, h.singleWord1_eq]⟩
  · rw [hmem]
    exact onlySlot_storeResult s.mem (.op d) w _
  · rw [hmem]
    exact slotResult_storeResult s.mem (.op d) w (montMul_lt_of_domain hdom)

/-- PUSHE in a chain that finds the FIFO empty (42_protocol_wrapper.md R185). -/
theorem Track.push (h : Track s0 m0 w k f [] s) (e0 : Nat) (e1 : Option Nat) {n : Nat} (hlen : n % 32 = 0)
    (hroom : 2 * (n / 32) ≤ Config.fifoDepth) :
    ∃ t, pushExponent e0 e1 n s = .next t ∧ Track s0 m0 w k f (expStream e0 (e1.getD 0) (n / 32)) t := by
  obtain ⟨t, ht, hstays, hmem, hfifo, -⟩ := push_ready e0 e1 n h.stays.ready h.stays.noTimeout hlen
    (by rw [h.fifo, length_expStream, List.length_nil, Nat.zero_add]; exact hroom)
  exact ⟨t, ht, h.leave hstays hmem (by rw [hfifo, h.fifo, List.nil_append])⟩

/-- An auto-run's round in a chain, from the preconditions of the protocol (40_engine_ops.md R124). -/
theorem Track.auto {e0 e1 n g0 g1 : Nat} {two : Prop} (h : Track s0 m0 w k f (expStream e0 e1 (n / 32)) s)
    (hroom : s0.irqCount.toNat + k + 1 < 2 ^ 32) (hm : (f .mod).number = some m) (hodd : m % 2 = 1)
    (hacc : (f (.op cfg.acc)).number = some (2 ^ bitsOf w % m)) (htabs : TabsHold s.mem w m g0 g1 two) (htwo : e1 ≠ 0 → two)
    (hpos : 0 < n) (hlen : n % 32 = 0) (h0 : e0 < 2 ^ n) (h1 : e1 < 2 ^ n) :
    ∃ t, autoRound w s = .next t ∧
      Track s0 m0 w (k + 1) (put f (.op cfg.acc) (.result (g0 ^ e0 * g1 ^ e1 * 2 ^ bitsOf w % m))) [] t := by
  have hmod (x : Nat) : x % m < m := Nat.mod_lt x (by omega)
  have hmval := (h.content _).regionVal hm
  have hloop := autoRun_expStream hodd htabs htwo hlen h0 h1
  rw [← h.fifo] at hloop
  obtain ⟨t, ht, hstays, hmem, hfifo, -⟩ := autoRound_ready h.stays.ready h.stays.noTimeout (h.room hroom) hmval
    (h.fifo ▸ expStream_ne_nil e0 e1 (by omega)) ((h.content _).regionVal hacc) hodd (hmod _) hloop
  refine ⟨t, ht, h.write hstays ?_ ?_ hfifo⟩
  · rw [hmem]
    exact onlySlot_storeResult s.mem (.op cfg.acc) w _
  · rw [hmem]
    exact slotResult_storeResult s.mem (.op cfg.acc) w ((hmod _).trans (regionVal_lt hmval))

/-- RDS at the end of a chain (42_protocol_wrapper.md R175). -/
theorem Track.rds (h : Track s0 m0 w k f q s) (d : Sel) {v : Nat} (hv : (f (.op d)).number = some v) :
    ∃ t, rds (.op d) w s = .next t ∧ Track s0 m0 w k f q t ∧ t.ctrl = s.ctrl ∧ t.ret = .value (wordsOf (cntOf w) v) := by
  obtain ⟨t, ht, hstays, hmem, hfifo, hctrl, hret⟩ := rds_ready (.op d) w h.stays.ready h.stays.noTimeout
    ((h.content _).regionVal hv)
  exact ⟨t, ht, h.leave hstays hmem (hfifo.trans h.fifo), hctrl, hret⟩

end

/-! ### The three sequences (43_algorithms.md R212, R214, R216) -/

section
variable {s0 s : State} {m0 : Memory} {w : Width} {m : Nat} {cm c0 c1 c2 c3 : Content} {q : List Word}
  (hm : cm.number = some m) (hodd : m % 2 = 1) (hlt : m < 2 ^ bitsOf w)
include hm hodd hlt

/-- Multiply (43_algorithms.md R212, R213): the product, then the product with R² that takes it out of Montgomery form. -/
theorem mulSeq_track {x y : Nat} (h : Track s0 m0 w 0 (slots cm c0 c1 c2 c3) q s) (hroom : s0.irqCount.toNat + 2 < 2 ^ 32)
    (hx : x < m) (hy : y < m) :
    ∃ t, mulSeq w (r2Of m (bitsOf w)) x y s = .next t ∧
      Track s0 m0 w 2 (slots cm (.result (x * y % m)) (.holds x) (.holds y) (.holds (r2Of m (bitsOf w)))) q t ∧
      t.ctrl = word2 (singleWord1 s0.ctrl w 0#2 0#2 3#2) ∧ t.ret = .value (wordsOf (cntOf w) (x * y % m)) := by
  have hpos : 0 < m := by omega
  have hr2 := r2Of_lt (bitsOf w) hpos
  obtain ⟨s1, e1, h1⟩ := h.wrs 1#2 (hx.trans hlt)
  obtain ⟨s2, e2, h2⟩ := h1.wrs 2#2 (hy.trans hlt)
  obtain ⟨s3, e3, h3⟩ := h2.wrs 3#2 (hr2.trans hlt)
  obtain ⟨s4, e4, h4, -⟩ := h3.round (d := 0#2) (l := 1#2) (r := 2#2) (by omega) hm hodd rfl hx rfl hy rfl
  obtain ⟨s5, e5, h5, hctrl5⟩ := h4.round (d := 0#2) (l := 0#2) (r := 3#2) (by omega) hm hodd rfl (montMul_lt _ _ _ hpos)
    rfl hr2 (montMul_montMul_r2 hodd x y)
  obtain ⟨s6, e6, h6, hctrl6, hret⟩ := h5.rds 0#2 rfl
  refine ⟨s6, ?_, h6.eq_slots, hctrl6.trans hctrl5, hret⟩
  simp only [mulSeq, runAll, e1, e2, e3, e4, e5, e6, andThen_of_next]

/-- Exponentiate (43_algorithms.md R214, R215): the forms of `g` and of 1, the auto-run over the exponent with stream 1 zero,
and the product with 1 that takes its result out of Montgomery form. -/
theorem expSeq_track {g e n : Nat} (h : Track s0 m0 w 0 (slots cm c0 c1 c2 c3) [] s)
    (hroom : s0.irqCount.toNat + 4 < 2 ^ 32) (hone : 1 < m) (hg : g < m) (hpos : 0 < n) (hlen : n % 32 = 0) (he : e < 2 ^ n)
    (hfifo : 2 * (n / 32) ≤ Config.fifoDepth) :
    ∃ t, expSeq w (r2Of m (bitsOf w)) g e n s = .next t ∧
      Track s0 m0 w 4 (slots cm (.result (g ^ e % m)) (.result (g * 2 ^ bitsOf w % m)) (.holds 1)
        (.holds (r2Of m (bitsOf w)))) [] t ∧
      t.ctrl = word2 (singleWord1 s0.ctrl w 0#2 0#2 2#2) ∧ t.ret = .value (wordsOf (cntOf w) (g ^ e % m)) := by
  have hmpos : 0 < m := by omega
  have hmod (x : Nat) : x % m < m := Nat.mod_lt _ hmpos
  have hr2 := r2Of_lt (bitsOf w) hmpos
  obtain ⟨s1, e1, h1⟩ := h.wrs 1#2 (hg.trans hlt)
  obtain ⟨s2, e2, h2⟩ := h1.wrs 3#2 (hr2.trans hlt)
  obtain ⟨s3, e3, h3⟩ := h2.wrs 2#2 (hone.trans hlt)
  obtain ⟨s4, e4, h4, -⟩ := h3.round (d := 1#2) (l := 1#2) (r := 3#2) (by omega) hm hodd rfl hg rfl hr2 (montMul_r2 hodd g)
  obtain ⟨s5, e5, h5, -⟩ := h4.round (d := 0#2) (l := 2#2) (r := 3#2) (by omega) hm hodd rfl hone rfl hr2
    (montMul_one_r2 hodd)
  obtain ⟨s6, e6, h6⟩ := h5.push e none hlen hfifo
  have htabs : TabsHold s6.mem w m g 0 False := ⟨(h6.content (.op 1#2)).regionVal rfl, False.elim, False.elim⟩
  obtain ⟨s7, e7, h7⟩ := h6.auto (by omega) hm hodd rfl htabs (absurd rfl) hpos hlen he (by positivity)
  obtain ⟨s8, e8, h8, hctrl8⟩ := h7.round (d := 0#2) (l := 0#2) (r := 2#2) (by omega) hm hodd rfl (hmod _) rfl hone
    (montMul_one hodd _)
  rw [show g ^ e * 0 ^ (none.getD 0) = g ^ e by simp] at h8
  obtain ⟨s9, e9, h9, hctrl9, hret⟩ := h8.rds 0#2 rfl
  refine ⟨s9, ?_, h9.eq_slots, hctrl9.trans hctrl8, hret⟩
  simp only [expSeq, runAll, e1, e2, e3, e4, e5, e6, e7, e8, e9, andThen_of_next]

/-- Simultaneous exponentiate (43_algorithms.md R216, R217): the forms of the two bases, of 1 and of the bases' product, the
auto-run over both exponents, and the product with 1 that takes its result out of Montgomery form. -/
theorem dexpSeq_track {g0 e0 g1 e1 n : Nat} (h : Track s0 m0 w 0 (slots cm c0 c1 c2 c3) [] s)
    (hroom : s0.irqCount.toNat + 6 < 2 ^ 32) (hone : 1 < m) (hg0 : g0 < m) (hg1 : g1 < m) (hpos : 0 < n)
    (hlen : n % 32 = 0) (he0 : e0 < 2 ^ n) (he1 : e1 < 2 ^ n) (hfifo : 2 * (n / 32) ≤ Config.fifoDepth) :
    ∃ t, dexpSeq w (r2Of m (bitsOf w)) g0 e0 g1 e1 n s = .next t ∧
      Track s0 m0 w 6 (slots cm (.result (g0 ^ e0 * g1 ^ e1 % m)) (.holds 1) (.result (g1 * 2 ^ bitsOf w % m))
        (.result (g0 * g1 * 2 ^ bitsOf w % m))) [] t ∧
      t.ctrl = word2 (singleWord1 s0.ctrl w 0#2 0#2 1#2) ∧ t.ret = .value (wordsOf (cntOf w) (g0 ^ e0 * g1 ^ e1 % m)) := by
  have hmpos : 0 < m := by omega
  have hmod (x : Nat) : x % m < m := Nat.mod_lt _ hmpos
  have hr2 := r2Of_lt (bitsOf w) hmpos
  obtain ⟨s1, r1, h1⟩ := h.wrs 0#2 (hone.trans hlt)
  obtain ⟨s2, r2, h2⟩ := h1.wrs 1#2 (hg0.trans hlt)
  obtain ⟨s3, r3, h3⟩ := h2.wrs 2#2 (hg1.trans hlt)
  obtain ⟨s4, r4, h4⟩ := h3.wrs 3#2 (hr2.trans hlt)
  obtain ⟨s5, r5, h5, -⟩ := h4.round (d := 1#2) (l := 1#2) (r := 3#2) (by omega) hm hodd rfl hg0 rfl hr2 (montMul_r2 hodd g0)
  obtain ⟨s6, r6, h6, -⟩ := h5.round (d := 2#2) (l := 2#2) (r := 3#2) (by omega) hm hodd rfl hg1 rfl hr2 (montMul_r2 hodd g1)
  obtain ⟨s7, r7, h7, -⟩ := h6.round (d := 0#2) (l := 0#2) (r := 3#2) (by omega) hm hodd rfl hone rfl hr2
    (montMul_one_r2 hodd)
  obtain ⟨s8, r8, h8, -⟩ := h7.round (d := 3#2) (l := 1#2) (r := 2#2) (by omega) hm hodd rfl (hmod _) rfl (hmod _)
    (montMul_forms hodd g0 g1)
  obtain ⟨s9, r9, h9⟩ := h8.push e0 (some e1) hlen hfifo
  have htabs : TabsHold s9.mem w m g0 g1 True := ⟨(h9.content (.op 1#2)).regionVal rfl,
    fun _ => (h9.content (.op 2#2)).regionVal rfl, fun _ => (h9.content (.op 3#2)).regionVal rfl⟩
  obtain ⟨s10, r10, h10⟩ := h9.auto (by omega) hm hodd rfl htabs (fun _ => trivial) hpos hlen he0 he1
  obtain ⟨s11, r11, h11⟩ := h10.wrs 1#2 (hone.trans hlt)
  obtain ⟨s12, r12, h12, hctrl12⟩ := h11.round (d := 0#2) (l := 0#2) (r := 1#2) (by omega) hm hodd rfl (hmod _) rfl hone
    (montMul_one hodd _)
  obtain ⟨s13, r13, h13, hctrl13, hret⟩ := h12.rds 0#2 rfl
  refine ⟨s13, ?_, h13.eq_slots, hctrl13.trans hctrl12, hret⟩
  simp only [dexpSeq, runAll, r1, r2, r3, r4, r5, r6, r7, r8, r9, r10, r11, r12, r13, andThen_of_next]

end

/-! ### The ambient and the explicit forms (43_algorithms.md R210, R218) -/

section
variable {s : State} {w : Width} {m : Nat}

/-- The ambient form runs with the session's width and, where the session describes the modulus, with its R². -/
theorem ambient_eq (seq : Width → Nat → State → Result) (hwidth : s.sess.width = some w)
    (hr2 : s.sess.r2 = r2Words m (bitsOf w) w) (hpos : 0 < m) (hlt : m < 2 ^ bitsOf w) :
    ambient seq s = seq w (r2Of m (bitsOf w)) s := by
  simp only [ambient, hwidth, hr2, valueOf_take_r2Words hpos hlt]

/-- Where an ambient algorithm starts: the modulus slot holds the modulus, of the operand slots nothing is known. -/
theorem track_ambient (h : Ready s) (hn : NoTimeout s) (hm : regionVal s.mem .mod w = some m) :
    Track s s.mem w 0 (slots (.value m) .unknown .unknown .unknown .unknown) s.fifo s where
  stays := Stays.refl h hn
  only _ _ := rfl
  content S := by
    cases S with
    | mod => exact hm
    | op k =>
      obtain rfl | rfl | rfl | rfl := sel_cases k
      all_goals trivial
  fifo := rfl

/-- Where the sequence of an explicit algorithm starts: the modulus slot alone has been written (43_algorithms.md R218). -/
theorem track_explicit (seq : Width → Nat → State → Result) (h : Ready s) (hn : NoTimeout s) (hlt : m < 2 ^ bitsOf w) :
    ∃ u, withModulus m (bitsOf w) w seq s = seq w (r2Of m (bitsOf w)) u ∧ OnlySlot .mod s.mem u.mem ∧
      Track s u.mem w 0 (slots (.holds m) .unknown .unknown .unknown .unknown) s.fifo u := by
  obtain ⟨u, hu, hstays, hmem, hfifo, -⟩ := wrs_ready .mod w m h hn
  refine ⟨u, by rw [withModulus, hu, andThen_of_next], ?_, hstays, fun _ _ => rfl, fun S => ?_, hfifo⟩
  · rw [hmem]
    exact onlySlot_image s.mem .mod (length_slotImageOf m w)
  · cases S with
    | mod =>
      rw [hmem]
      exact slotHolds_image_of_lt s.mem .mod w hlt
    | op k =>
      obtain rfl | rfl | rfl | rfl := sel_cases k
      all_goals trivial

/-- The modulus slot written, then operand slots: nothing outside the five slots (43_algorithms.md R218). -/
theorem onlySlots_of_mod {m0 m1 m2 : Memory} (h : OnlySlot .mod m0 m1) (h' : OnlyOperands m1 m2) : OnlySlots m0 m2 :=
  fun a ha => (h' a fun k => ha (.op k)).trans (h a (ha .mod))

theorem exec_mul (x y : Nat) (mn : Option (Nat × Nat)) : exec (.mul x y mn) s = execMul x y mn s := rfl

theorem exec_exp (g e n : Nat) (mn : Option (Nat × Nat)) : exec (.exp g e n mn) s = execExp g e n mn s := rfl

theorem exec_dexp (g0 e0 g1 e1 n : Nat) (mn : Option (Nat × Nat)) :
    exec (.dexp g0 e0 g1 e1 n mn) s = execDexp g0 e0 g1 e1 n mn s := rfl

theorem exec_mul_ambient (x y : Nat) : exec (.mul x y none) s = ambient (fun w r2 => mulSeq w r2 x y) s := rfl

theorem exec_mul_explicit (x y : Nat) :
    exec (.mul x y (some (m, bitsOf w))) s = withModulus m (bitsOf w) w (fun w r2 => mulSeq w r2 x y) s := by
  simp only [exec_mul, execMul, widthOfBits_bitsOf]

theorem exec_exp_ambient (g e : Nat) {n : Nat} (hlen : n % 32 = 0) :
    exec (.exp g e n none) s = ambient (fun w r2 => expSeq w r2 g e n) s := if_neg (not_not.2 hlen)

theorem exec_exp_explicit (g e : Nat) {n : Nat} (hlen : n % 32 = 0) :
    exec (.exp g e n (some (m, bitsOf w))) s = withModulus m (bitsOf w) w (fun w r2 => expSeq w r2 g e n) s := by
  simp only [exec_exp, execExp, widthOfBits_bitsOf, hlen, ne_eq, not_true_eq_false, if_false]

theorem exec_dexp_ambient (g0 e0 g1 e1 : Nat) {n : Nat} (hlen : n % 32 = 0) :
    exec (.dexp g0 e0 g1 e1 n none) s = ambient (fun w r2 => dexpSeq w r2 g0 e0 g1 e1 n) s := if_neg (not_not.2 hlen)

theorem exec_dexp_explicit (g0 e0 g1 e1 : Nat) {n : Nat} (hlen : n % 32 = 0) :
    exec (.dexp g0 e0 g1 e1 n (some (m, bitsOf w))) s =
      withModulus m (bitsOf w) w (fun w r2 => dexpSeq w r2 g0 e0 g1 e1 n) s := by
  simp only [exec_dexp, execDexp, widthOfBits_bitsOf, hlen, ne_eq, not_true_eq_false, if_false]

end

/-- Settles O54: the sequence of R212 tracked from the ambient modulus. -/
theorem mulAmbient : Obligations.MulAmbient := by
  intro s w m x y hready hn hroom hwidth hr2 hm hodd hx hy
  have hlt := regionVal_lt hm
  obtain ⟨t, ht, hT, hctrl, hret⟩ := mulSeq_track rfl hodd hlt (track_ambient hready hn hm) hroom hx hy
  have hrun := (exec_mul_ambient x y).trans ((ambient_eq _ hwidth hr2 (by omega) hlt).trans ht)
  exact ⟨t, hrun, hT.stays.ready, hret,
    hT.stays.eq_with (by decide) hT.fifo hctrl, hT.content (.op 0#2), hT.content (.op 1#2), hT.content (.op 2#2),
    hT.content (.op 3#2), hT.only⟩

/-- Settles O55: the sequence of R212 tracked from the call's modulus. -/
theorem mulExplicit : Obligations.MulExplicit := by
  intro s w m x y hready hn hroom hodd hlt hx hy
  obtain ⟨u, hu, hmod, hU⟩ := track_explicit (fun w r2 => mulSeq w r2 x y) hready hn hlt
  obtain ⟨t, ht, hT, hctrl, hret⟩ := mulSeq_track rfl hodd hlt hU hroom hx hy
  exact ⟨t, (exec_mul_explicit x y).trans (hu.trans ht), hT.stays.ready, hret,
    hT.stays.eq_with (by decide) hT.fifo hctrl, hT.content .mod, hT.content (.op 0#2), hT.content (.op 1#2),
    hT.content (.op 2#2), hT.content (.op 3#2), onlySlots_of_mod hmod hT.only⟩

/-- Settles O56: the sequence of R214 tracked from the ambient modulus. -/
theorem expAmbient : Obligations.ExpAmbient := by
  intro s w m g e n hready hn hroom hwidth hr2 hm hodd hone hg hpos hlen he hempty hfifo
  have hlt := regionVal_lt hm
  have hstart := track_ambient hready hn hm
  rw [hempty] at hstart
  obtain ⟨t, ht, hT, hctrl, hret⟩ := expSeq_track rfl hodd hlt hstart hroom hone hg hpos hlen he hfifo
  have hrun := (exec_exp_ambient g e hlen).trans ((ambient_eq _ hwidth hr2 (by omega) hlt).trans ht)
  exact ⟨t, hrun, hT.stays.ready, hret, hT.stays.eq_with (by decide) (hT.fifo.trans hempty.symm) hctrl,
    hT.content (.op 0#2), hT.content (.op 1#2), hT.content (.op 2#2), hT.content (.op 3#2), hT.only⟩

/-- Settles O57: the sequence of R214 tracked from the call's modulus. -/
theorem expExplicit : Obligations.ExpExplicit := by
  intro s w m g e n hready hn hroom hodd hone hlt hg hpos hlen he hempty hfifo
  obtain ⟨u, hu, hmod, hU⟩ := track_explicit (fun w r2 => expSeq w r2 g e n) hready hn hlt
  rw [hempty] at hU
  obtain ⟨t, ht, hT, hctrl, hret⟩ := expSeq_track rfl hodd hlt hU hroom hone hg hpos hlen he hfifo
  exact ⟨t, (exec_exp_explicit g e hlen).trans (hu.trans ht), hT.stays.ready, hret,
    hT.stays.eq_with (by decide) (hT.fifo.trans hempty.symm) hctrl, hT.content .mod, hT.content (.op 0#2),
    hT.content (.op 1#2), hT.content (.op 2#2), hT.content (.op 3#2), onlySlots_of_mod hmod hT.only⟩

/-- Settles O58: the sequence of R216 tracked from the ambient modulus. -/
theorem dexpAmbient : Obligations.DexpAmbient := by
  intro s w m g0 e0 g1 e1 n hready hn hroom hwidth hr2 hm hodd hone hg0 hg1 hpos hlen he0 he1 hempty hfifo
  have hlt := regionVal_lt hm
  have hstart := track_ambient hready hn hm
  rw [hempty] at hstart
  obtain ⟨t, ht, hT, hctrl, hret⟩ := dexpSeq_track rfl hodd hlt hstart hroom hone hg0 hg1 hpos hlen he0 he1 hfifo
  have hrun := (exec_dexp_ambient g0 e0 g1 e1 hlen).trans ((ambient_eq _ hwidth hr2 (by omega) hlt).trans ht)
  exact ⟨t, hrun, hT.stays.ready, hret, hT.stays.eq_with (by decide) (hT.fifo.trans hempty.symm) hctrl,
    hT.content (.op 0#2), hT.content (.op 1#2), hT.content (.op 2#2), hT.content (.op 3#2), hT.only⟩

/-- Settles O59: the sequence of R216 tracked from the call's modulus. -/
theorem dexpExplicit : Obligations.DexpExplicit := by
  intro s w m g0 e0 g1 e1 n hready hn hroom hodd hone hlt hg0 hg1 hpos hlen he0 he1 hempty hfifo
  obtain ⟨u, hu, hmod, hU⟩ := track_explicit (fun w r2 => dexpSeq w r2 g0 e0 g1 e1 n) hready hn hlt
  rw [hempty] at hU
  obtain ⟨t, ht, hT, hctrl, hret⟩ := dexpSeq_track rfl hodd hlt hU hroom hone hg0 hg1 hpos hlen he0 he1 hfifo
  exact ⟨t, (exec_dexp_explicit g0 e0 g1 e1 hlen).trans (hu.trans ht), hT.stays.ready, hret,
    hT.stays.eq_with (by decide) (hT.fifo.trans hempty.symm) hctrl, hT.content .mod, hT.content (.op 0#2),
    hT.content (.op 1#2), hT.content (.op 2#2), hT.content (.op 3#2), onlySlots_of_mod hmod hT.only⟩

/-! ### The algorithms' errors (60_exceptions.md R231, R241) -/

section
variable {s : State} {m n t : Nat}

/-- The width is tested before the exponent length, and both before any access (60_exceptions.md R241). -/
theorem explicit_unsupported (x y g e g1 e1 t : Nat) (hn : widthOfBits n = none) :
    execMul x y (some (m, n)) s = raise .unsupportedWidth s ∧
    execExp g e t (some (m, n)) s = raise .unsupportedWidth s ∧
    execDexp g e g1 e1 t (some (m, n)) s = raise .unsupportedWidth s := by
  simp only [execMul, execExp, execDexp, hn, and_self]

theorem explicit_badLength {w : Width} (g e g1 e1 : Nat) (hn : widthOfBits n = some w) (ht : t % 32 ≠ 0) :
    execExp g e t (some (m, n)) s = raise .invalidExponentLength s ∧
    execDexp g e g1 e1 t (some (m, n)) s = raise .invalidExponentLength s := by
  simp only [execExp, execDexp, hn, if_pos ht, and_self]

theorem ambient_badLength (g e g1 e1 : Nat) (ht : t % 32 ≠ 0) :
    execExp g e t none s = raise .invalidExponentLength s ∧ execDexp g e g1 e1 t none s = raise .invalidExponentLength s := by
  simp only [execExp, execDexp, if_pos ht, and_self]

/-- Before any updateModulus there is no width to run at (43_algorithms.md R210). -/
theorem ambient_noModulus (seq : Width → Nat → State → Result) (hwidth : s.sess.width = none) :
    ambient seq s = .refused .noAmbientModulus := by
  simp only [ambient, hwidth]

end

theorem widthOfBits_of_width {n : Nat} (h : n = 512 ∨ n = 1024 ∨ n = 1536) : ∃ w, widthOfBits n = some w := by
  rcases h with rfl | rfl | rfl
  exacts [⟨.low, rfl⟩, ⟨.high, rfl⟩, ⟨.total, rfl⟩]

/-- Settles O60: the checks in their order; E2 is logged and E3 is not. -/
theorem algorithmErrors : Obligations.AlgorithmErrors := by
  intro s x y g e g1 e1 m n t
  refine ⟨fun h512 h1024 h1536 => explicit_unsupported x y g e g1 e1 t (widthOfBits_none h512 h1024 h1536),
    ambient_badLength g e g1 e1, fun ht hn => ?badLength, fun hwidth => ?noModulus⟩
  case badLength =>
    obtain ⟨w, hw⟩ := widthOfBits_of_width hn
    exact explicit_badLength g e g1 e1 hw ht
  case noModulus =>
    exact ⟨(exec_mul_ambient x y).trans (ambient_noModulus _ hwidth), fun ht =>
      ⟨(exec_exp_ambient g e ht).trans (ambient_noModulus _ hwidth), (exec_dexp_ambient g e g1 e1 ht).trans (ambient_noModulus _ hwidth)⟩⟩

end Sys2Proof.Machine
end
